-- ==== Sys2Proof/Word.lean ====
section
/-! DEFINITION. The word, byte and register-number types (00_scope.md R7, R9, R10; 10_state.md R20, R28). -/

namespace Sys2Proof

/-- A 32-bit value: XLEN = 32 (R7). `+`, `-`, `*` wrap modulo 2^32 (R10). -/
abbrev Word := BitVec 32

/-- A byte. -/
abbrev Byte := BitVec 8

/-- A general register's number, x0 to x31 (R20). -/
abbrev Reg := Fin 32

/-- A CSR's 12-bit unsigned index, 0x000 to 0xFFF (R28, R109). -/
abbrev CsrIndex := BitVec 12

end Sys2Proof
end

