-- ==== Sys2Proof/Syntax.lean ====
section
/-! DEFINITION. The instructions: one constructor per row of spec/opcode_table.json (30_encoding.md R113),
with every field of the word, the ignored ones too, and the reasons a word is illegal (R114). -/

namespace Sys2Proof

/-- An instruction. `imm` of the I and S forms is the 12-bit signed immediate (R103, R104), `offset` the
signed byte offset of a branch (13 bits, R105) or of JAL (21 bits, R107), `imm20` the value of inst[31:12]
(R106). `aq`, `rl`, LR.W's `rs2` and all MISC-MEM fields are decoded and ignored (R110, R111, R230 to R232);
`immField` is inst[31:20] of a MISC-MEM word other than FENCE. -/
inductive Instr where
  -- upper immediates (R141, R142)
  | lui (rd : Reg) (imm20 : BitVec 20)
  | auipc (rd : Reg) (imm20 : BitVec 20)
  -- OP-IMM (R143 to R151)
  | addi (rd rs1 : Reg) (imm : BitVec 12)
  | slti (rd rs1 : Reg) (imm : BitVec 12)
  | sltiu (rd rs1 : Reg) (imm : BitVec 12)
  | xori (rd rs1 : Reg) (imm : BitVec 12)
  | ori (rd rs1 : Reg) (imm : BitVec 12)
  | andi (rd rs1 : Reg) (imm : BitVec 12)
  | slli (rd rs1 : Reg) (shamt : BitVec 5)
  | srli (rd rs1 : Reg) (shamt : BitVec 5)
  | srai (rd rs1 : Reg) (shamt : BitVec 5)
  -- OP (R152 to R161)
  | add (rd rs1 rs2 : Reg)
  | sub (rd rs1 rs2 : Reg)
  | sll (rd rs1 rs2 : Reg)
  | slt (rd rs1 rs2 : Reg)
  | sltu (rd rs1 rs2 : Reg)
  | xor (rd rs1 rs2 : Reg)
  | srl (rd rs1 rs2 : Reg)
  | sra (rd rs1 rs2 : Reg)
  | or (rd rs1 rs2 : Reg)
  | and (rd rs1 rs2 : Reg)
  -- multiply and divide (R171 to R178)
  | mul (rd rs1 rs2 : Reg)
  | mulh (rd rs1 rs2 : Reg)
  | mulhsu (rd rs1 rs2 : Reg)
  | mulhu (rd rs1 rs2 : Reg)
  | div (rd rs1 rs2 : Reg)
  | divu (rd rs1 rs2 : Reg)
  | rem (rd rs1 rs2 : Reg)
  | remu (rd rs1 rs2 : Reg)
  -- loads (R191 to R195)
  | lb (rd rs1 : Reg) (imm : BitVec 12)
  | lh (rd rs1 : Reg) (imm : BitVec 12)
  | lw (rd rs1 : Reg) (imm : BitVec 12)
  | lbu (rd rs1 : Reg) (imm : BitVec 12)
  | lhu (rd rs1 : Reg) (imm : BitVec 12)
  -- stores (R196 to R198)
  | sb (rs1 rs2 : Reg) (imm : BitVec 12)
  | sh (rs1 rs2 : Reg) (imm : BitVec 12)
  | sw (rs1 rs2 : Reg) (imm : BitVec 12)
  -- control transfer (R211 to R218)
  | jal (rd : Reg) (offset : BitVec 21)
  | jalr (rd rs1 : Reg) (imm : BitVec 12)
  | beq (rs1 rs2 : Reg) (offset : BitVec 13)
  | bne (rs1 rs2 : Reg) (offset : BitVec 13)
  | blt (rs1 rs2 : Reg) (offset : BitVec 13)
  | bge (rs1 rs2 : Reg) (offset : BitVec 13)
  | bltu (rs1 rs2 : Reg) (offset : BitVec 13)
  | bgeu (rs1 rs2 : Reg) (offset : BitVec 13)
  -- MISC-MEM (R230 to R232)
  | fence (fm pred succ : BitVec 4) (rs1 rd : Reg)
  | fenceI (immField : BitVec 12) (rs1 rd : Reg)
  | miscMemRsv01x (funct3 : BitVec 3) (immField : BitVec 12) (rs1 rd : Reg)
  | miscMemRsv1xx (funct3 : BitVec 3) (immField : BitVec 12) (rs1 rd : Reg)
  -- SYSTEM (R241 to R250)
  | ecall
  | ebreak
  | mret
  | csrrw (rd : Reg) (csr : CsrIndex) (rs1 : Reg)
  | csrrs (rd : Reg) (csr : CsrIndex) (rs1 : Reg)
  | csrrc (rd : Reg) (csr : CsrIndex) (rs1 : Reg)
  | csrrwi (rd : Reg) (csr : CsrIndex) (zimm : BitVec 5)
  | csrrsi (rd : Reg) (csr : CsrIndex) (zimm : BitVec 5)
  | csrrci (rd : Reg) (csr : CsrIndex) (zimm : BitVec 5)
  -- atomics (R262 to R272)
  | lrW (aq rl : Bool) (rd rs1 rs2 : Reg)
  | scW (aq rl : Bool) (rd rs1 rs2 : Reg)
  | amoswapW (aq rl : Bool) (rd rs1 rs2 : Reg)
  | amoaddW (aq rl : Bool) (rd rs1 rs2 : Reg)
  | amoxorW (aq rl : Bool) (rd rs1 rs2 : Reg)
  | amoandW (aq rl : Bool) (rd rs1 rs2 : Reg)
  | amoorW (aq rl : Bool) (rd rs1 rs2 : Reg)
  | amominW (aq rl : Bool) (rd rs1 rs2 : Reg)
  | amomaxW (aq rl : Bool) (rd rs1 rs2 : Reg)
  | amominuW (aq rl : Bool) (rd rs1 rs2 : Reg)
  | amomaxuW (aq rl : Bool) (rd rs1 rs2 : Reg)
  deriving DecidableEq, Repr

/-- Why no instruction is read: `truncated` when fewer than four bytes are given, else the item of R114's list
that makes the word illegal. -/
inductive Illegal where
  | truncated
  | opcode      -- item 1: bits 6:0 not in the table of R112
  | opImm       -- item 2
  | op          -- item 3
  | load        -- item 4
  | store       -- item 5
  | jalr        -- item 6
  | branch      -- item 7
  | system      -- item 8
  | amo         -- item 9
  deriving DecidableEq, Repr

end Sys2Proof
end

