-- ==== Sys2Proof/WellFormed.lean ====
section
/-! DEFINITION. Which instruction terms stand for a word (30_encoding.md R105, R107, R232). Register numbers,
immediates and CSR indices are bounded by their types; what is left to check stands here. -/

namespace Sys2Proof

/-- A branch or JAL offset is even: bit 0 is not encoded and is 0 (R105, R107). A MISC-MEM reserved row's funct3
is one of the row's own: 010, 011 for RSV01x and 100 to 111 for RSV1xx (R232). -/
def Instr.wf : Instr → Bool
  | .jal _ offset => !offset.getLsbD 0
  | .beq _ _ offset | .bne _ _ offset | .blt _ _ offset
  | .bge _ _ offset | .bltu _ _ offset | .bgeu _ _ offset => !offset.getLsbD 0
  | .miscMemRsv01x funct3 _ _ _ => funct3 == 0b010#3 || funct3 == 0b011#3
  | .miscMemRsv1xx funct3 _ _ _ => funct3.getLsbD 2
  | .lui .. | .auipc .. | .addi .. | .slti .. | .sltiu .. | .xori .. | .ori .. | .andi ..
  | .slli .. | .srli .. | .srai .. | .add .. | .sub .. | .sll .. | .slt .. | .sltu .. | .xor ..
  | .srl .. | .sra .. | .or .. | .and .. | .mul .. | .mulh .. | .mulhsu .. | .mulhu .. | .div ..
  | .divu .. | .rem .. | .remu .. | .lb .. | .lh .. | .lw .. | .lbu .. | .lhu .. | .sb .. | .sh ..
  | .sw .. | .jalr .. | .fence .. | .fenceI .. | .ecall | .ebreak | .mret | .csrrw .. | .csrrs ..
  | .csrrc .. | .csrrwi .. | .csrrsi .. | .csrrci .. | .lrW .. | .scW .. | .amoswapW .. | .amoaddW ..
  | .amoxorW .. | .amoandW .. | .amoorW .. | .amominW .. | .amomaxW .. | .amominuW ..
  | .amomaxuW .. => true

end Sys2Proof
end

