-- ==== Sys2Proof/Decode.lean ====
section
/-! DEFINITION. Decoding: bits to an instruction or a named reason, total (30_encoding.md R100 to R117), and the
encoder, written from the same formats (R102). The bit positions are the RISC-V standard's, which the spec
supplies from general knowledge (93_implementation_defined.md G9 to G18): log entry 9. -/

namespace Sys2Proof

/-! ## The fields of a word (R101, R103 to R111) -/

/-- bits 6:0. -/
def opcodeOf (w : Word) : BitVec 7 := w.extractLsb' 0 7
/-- bits 11:7. -/
def rdOf (w : Word) : Reg := (w.extractLsb' 7 5).toFin
/-- bits 14:12. -/
def funct3Of (w : Word) : BitVec 3 := w.extractLsb' 12 3
/-- bits 19:15. -/
def rs1Of (w : Word) : Reg := (w.extractLsb' 15 5).toFin
/-- bits 24:20. -/
def rs2Of (w : Word) : Reg := (w.extractLsb' 20 5).toFin
/-- bits 31:25. -/
def funct7Of (w : Word) : BitVec 7 := w.extractLsb' 25 7
/-- inst[31:20], before its sign extension (R103); also a MISC-MEM word's bits 31:20. -/
def immIOf (w : Word) : BitVec 12 := w.extractLsb' 20 12
/-- The 12 bits inst[31:25], inst[11:7] (R104). -/
def immSOf (w : Word) : BitVec 12 := w.extractLsb' 25 7 ++ w.extractLsb' 7 5
/-- The 13 bits inst[31], inst[7], inst[30:25], inst[11:8], 0 (R105). -/
def immBOf (w : Word) : BitVec 13 :=
  w.extractLsb' 31 1 ++ w.extractLsb' 7 1 ++ w.extractLsb' 25 6 ++ w.extractLsb' 8 4 ++ 0#1
/-- inst[31:12] (R106). -/
def imm20Of (w : Word) : BitVec 20 := w.extractLsb' 12 20
/-- The 21 bits inst[31], inst[19:12], inst[20], inst[30:21], 0 (R107). -/
def immJOf (w : Word) : BitVec 21 :=
  w.extractLsb' 31 1 ++ w.extractLsb' 12 8 ++ w.extractLsb' 20 1 ++ w.extractLsb' 21 10 ++ 0#1
/-- inst[24:20] of a shift-immediate (R108). -/
def shamtOf (w : Word) : BitVec 5 := w.extractLsb' 20 5
/-- inst[31:20], the CSR index (R109). -/
def csrOf (w : Word) : CsrIndex := w.extractLsb' 20 12
/-- inst[19:15] of CSRRWI, CSRRSI, CSRRCI (R109). -/
def zimmOf (w : Word) : BitVec 5 := w.extractLsb' 15 5
/-- inst[31:27] (R110). -/
def funct5Of (w : Word) : BitVec 5 := w.extractLsb' 27 5
/-- inst[26] (R110). -/
def aqOf (w : Word) : Bool := w.getLsbD 26
/-- inst[25] (R110). -/
def rlOf (w : Word) : Bool := w.getLsbD 25
/-- inst[31:28] of a FENCE (R111). -/
def fmOf (w : Word) : BitVec 4 := w.extractLsb' 28 4
/-- inst[27:24] of a FENCE (R111). -/
def predOf (w : Word) : BitVec 4 := w.extractLsb' 24 4
/-- inst[23:20] of a FENCE (R111). -/
def succOf (w : Word) : BitVec 4 := w.extractLsb' 20 4

/-! ## The decoder, class by class (R112, R113); what falls through is illegal (R114) -/

/-- OP-IMM, R113. -/
def decodeOpImm (w : Word) : Except Illegal Instr :=
  let rd := rdOf w
  let rs1 := rs1Of w
  if funct3Of w = 0b000#3 then .ok (.addi rd rs1 (immIOf w))
  else if funct3Of w = 0b010#3 then .ok (.slti rd rs1 (immIOf w))
  else if funct3Of w = 0b011#3 then .ok (.sltiu rd rs1 (immIOf w))
  else if funct3Of w = 0b100#3 then .ok (.xori rd rs1 (immIOf w))
  else if funct3Of w = 0b110#3 then .ok (.ori rd rs1 (immIOf w))
  else if funct3Of w = 0b111#3 then .ok (.andi rd rs1 (immIOf w))
  else if funct3Of w = 0b001#3 then
    if funct7Of w = 0b0000000#7 then .ok (.slli rd rs1 (shamtOf w)) else .error .opImm
  else
    if funct7Of w = 0b0000000#7 then .ok (.srli rd rs1 (shamtOf w))
    else if funct7Of w = 0b0100000#7 then .ok (.srai rd rs1 (shamtOf w))
    else .error .opImm

/-- OP with funct7 0000000, R113. -/
def decodeOpBase (w : Word) : Instr :=
  let rd := rdOf w
  let rs1 := rs1Of w
  let rs2 := rs2Of w
  if funct3Of w = 0b000#3 then .add rd rs1 rs2
  else if funct3Of w = 0b001#3 then .sll rd rs1 rs2
  else if funct3Of w = 0b010#3 then .slt rd rs1 rs2
  else if funct3Of w = 0b011#3 then .sltu rd rs1 rs2
  else if funct3Of w = 0b100#3 then .xor rd rs1 rs2
  else if funct3Of w = 0b101#3 then .srl rd rs1 rs2
  else if funct3Of w = 0b110#3 then .or rd rs1 rs2
  else .and rd rs1 rs2

/-- OP with funct7 0000001, R113. -/
def decodeOpM (w : Word) : Instr :=
  let rd := rdOf w
  let rs1 := rs1Of w
  let rs2 := rs2Of w
  if funct3Of w = 0b000#3 then .mul rd rs1 rs2
  else if funct3Of w = 0b001#3 then .mulh rd rs1 rs2
  else if funct3Of w = 0b010#3 then .mulhsu rd rs1 rs2
  else if funct3Of w = 0b011#3 then .mulhu rd rs1 rs2
  else if funct3Of w = 0b100#3 then .div rd rs1 rs2
  else if funct3Of w = 0b101#3 then .divu rd rs1 rs2
  else if funct3Of w = 0b110#3 then .rem rd rs1 rs2
  else .remu rd rs1 rs2

/-- OP, R113. -/
def decodeOp (w : Word) : Except Illegal Instr :=
  if funct7Of w = 0b0000000#7 then .ok (decodeOpBase w)
  else if funct7Of w = 0b0100000#7 then
    if funct3Of w = 0b000#3 then .ok (.sub (rdOf w) (rs1Of w) (rs2Of w))
    else if funct3Of w = 0b101#3 then .ok (.sra (rdOf w) (rs1Of w) (rs2Of w))
    else .error .op
  else if funct7Of w = 0b0000001#7 then .ok (decodeOpM w)
  else .error .op

/-- LOAD, R113. -/
def decodeLoad (w : Word) : Except Illegal Instr :=
  let rd := rdOf w
  let rs1 := rs1Of w
  if funct3Of w = 0b000#3 then .ok (.lb rd rs1 (immIOf w))
  else if funct3Of w = 0b001#3 then .ok (.lh rd rs1 (immIOf w))
  else if funct3Of w = 0b010#3 then .ok (.lw rd rs1 (immIOf w))
  else if funct3Of w = 0b100#3 then .ok (.lbu rd rs1 (immIOf w))
  else if funct3Of w = 0b101#3 then .ok (.lhu rd rs1 (immIOf w))
  else .error .load

/-- STORE, R113. -/
def decodeStore (w : Word) : Except Illegal Instr :=
  let rs1 := rs1Of w
  let rs2 := rs2Of w
  if funct3Of w = 0b000#3 then .ok (.sb rs1 rs2 (immSOf w))
  else if funct3Of w = 0b001#3 then .ok (.sh rs1 rs2 (immSOf w))
  else if funct3Of w = 0b010#3 then .ok (.sw rs1 rs2 (immSOf w))
  else .error .store

/-- BRANCH, R113. -/
def decodeBranch (w : Word) : Except Illegal Instr :=
  let rs1 := rs1Of w
  let rs2 := rs2Of w
  if funct3Of w = 0b000#3 then .ok (.beq rs1 rs2 (immBOf w))
  else if funct3Of w = 0b001#3 then .ok (.bne rs1 rs2 (immBOf w))
  else if funct3Of w = 0b100#3 then .ok (.blt rs1 rs2 (immBOf w))
  else if funct3Of w = 0b101#3 then .ok (.bge rs1 rs2 (immBOf w))
  else if funct3Of w = 0b110#3 then .ok (.bltu rs1 rs2 (immBOf w))
  else if funct3Of w = 0b111#3 then .ok (.bgeu rs1 rs2 (immBOf w))
  else .error .branch

/-- MISC-MEM: every word of the class is legal (R113, R116, R230 to R232). -/
def decodeMiscMem (w : Word) : Instr :=
  let rd := rdOf w
  let rs1 := rs1Of w
  if funct3Of w = 0b000#3 then .fence (fmOf w) (predOf w) (succOf w) rs1 rd
  else if funct3Of w = 0b001#3 then .fenceI (immIOf w) rs1 rd
  else if funct3Of w = 0b010#3 ∨ funct3Of w = 0b011#3 then
    .miscMemRsv01x (funct3Of w) (immIOf w) rs1 rd
  else .miscMemRsv1xx (funct3Of w) (immIOf w) rs1 rd

/-- SYSTEM: with funct3 000 only three exact words (R113, R240). -/
def decodeSystem (w : Word) : Except Illegal Instr :=
  let rd := rdOf w
  let csr := csrOf w
  if w = 0x00000073#32 then .ok .ecall
  else if w = 0x00100073#32 then .ok .ebreak
  else if w = 0x30200073#32 then .ok .mret
  else if funct3Of w = 0b001#3 then .ok (.csrrw rd csr (rs1Of w))
  else if funct3Of w = 0b010#3 then .ok (.csrrs rd csr (rs1Of w))
  else if funct3Of w = 0b011#3 then .ok (.csrrc rd csr (rs1Of w))
  else if funct3Of w = 0b101#3 then .ok (.csrrwi rd csr (zimmOf w))
  else if funct3Of w = 0b110#3 then .ok (.csrrsi rd csr (zimmOf w))
  else if funct3Of w = 0b111#3 then .ok (.csrrci rd csr (zimmOf w))
  else .error .system

/-- AMO: funct3 010 and one of eleven funct5 values (R113). -/
def decodeAmo (w : Word) : Except Illegal Instr :=
  let aq := aqOf w
  let rl := rlOf w
  let rd := rdOf w
  let rs1 := rs1Of w
  let rs2 := rs2Of w
  if funct3Of w = 0b010#3 then
    if funct5Of w = 0b00010#5 then .ok (.lrW aq rl rd rs1 rs2)
    else if funct5Of w = 0b00011#5 then .ok (.scW aq rl rd rs1 rs2)
    else if funct5Of w = 0b00001#5 then .ok (.amoswapW aq rl rd rs1 rs2)
    else if funct5Of w = 0b00000#5 then .ok (.amoaddW aq rl rd rs1 rs2)
    else if funct5Of w = 0b00100#5 then .ok (.amoxorW aq rl rd rs1 rs2)
    else if funct5Of w = 0b01100#5 then .ok (.amoandW aq rl rd rs1 rs2)
    else if funct5Of w = 0b01000#5 then .ok (.amoorW aq rl rd rs1 rs2)
    else if funct5Of w = 0b10000#5 then .ok (.amominW aq rl rd rs1 rs2)
    else if funct5Of w = 0b10100#5 then .ok (.amomaxW aq rl rd rs1 rs2)
    else if funct5Of w = 0b11000#5 then .ok (.amominuW aq rl rd rs1 rs2)
    else if funct5Of w = 0b11100#5 then .ok (.amomaxuW aq rl rd rs1 rs2)
    else .error .amo
  else .error .amo

/-- A 32-bit word to its instruction, or the reason it is illegal (R112 to R114, R116). -/
def decodeWord (w : Word) : Except Illegal Instr :=
  if opcodeOf w = 0b0110111#7 then .ok (.lui (rdOf w) (imm20Of w))
  else if opcodeOf w = 0b0010111#7 then .ok (.auipc (rdOf w) (imm20Of w))
  else if opcodeOf w = 0b0010011#7 then decodeOpImm w
  else if opcodeOf w = 0b0110011#7 then decodeOp w
  else if opcodeOf w = 0b0000011#7 then decodeLoad w
  else if opcodeOf w = 0b0100011#7 then decodeStore w
  else if opcodeOf w = 0b1101111#7 then .ok (.jal (rdOf w) (immJOf w))
  else if opcodeOf w = 0b1100111#7 then
    if funct3Of w = 0b000#3 then .ok (.jalr (rdOf w) (rs1Of w) (immIOf w)) else .error .jalr
  else if opcodeOf w = 0b1100011#7 then decodeBranch w
  else if opcodeOf w = 0b0001111#7 then .ok (decodeMiscMem w)
  else if opcodeOf w = 0b1110011#7 then decodeSystem w
  else if opcodeOf w = 0b0101111#7 then decodeAmo w
  else .error .opcode

/-! ## Bytes: little-endian, always four (R66, R100, R117) -/

/-- The word whose bytes, lowest address first, are b0, b1, b2, b3 (R60, R66). -/
def wordOfBytes (b0 b1 b2 b3 : Byte) : Word := b3 ++ b2 ++ b1 ++ b0

/-- Byte k of a word, k = 0 the least significant (R61, R66). -/
def byteOf (w : Word) (k : Nat) : Byte := w.extractLsb' (8 * k) 8

/-- A word's four bytes, lowest address first (R66). -/
def bytesOf (w : Word) : List Byte := [byteOf w 0, byteOf w 1, byteOf w 2, byteOf w 3]

/-- Decode the instruction at the front of a byte string and return the bytes after it (R100). -/
def decode : List Byte → Except Illegal (Instr × List Byte)
  | b0 :: b1 :: b2 :: b3 :: rest =>
    match decodeWord (wordOfBytes b0 b1 b2 b3) with
    | .ok i => .ok (i, rest)
    | .error e => .error e
  | _ => .error .truncated

/-- The instruction the decoder reads from a word as spec/opcode_table.json numbers its bits. -/
def decodeTableWord (nbits w : Nat) : Option Instr :=
  match decode (bytesOf (BitVec.ofNat 32 (w % 2 ^ nbits))) with
  | .ok (i, _) => some i
  | .error _ => none

/-! ## The encoder: the formats of R102, field by field -/

/-- A register number's 5-bit field. -/
def regBits (r : Reg) : BitVec 5 := BitVec.ofFin r

/-- R format (R102). -/
def encodeR (funct7 : BitVec 7) (rs2 rs1 : Reg) (funct3 : BitVec 3) (rd : Reg) (opcode : BitVec 7) :
    Word :=
  funct7 ++ regBits rs2 ++ regBits rs1 ++ funct3 ++ regBits rd ++ opcode

/-- I format (R102, R103), the CSR forms too, whose index stands in the immediate's place (R109). -/
def encodeI (imm : BitVec 12) (rs1 : Reg) (funct3 : BitVec 3) (rd : Reg) (opcode : BitVec 7) : Word :=
  imm ++ regBits rs1 ++ funct3 ++ regBits rd ++ opcode

/-- The shift-immediate form of I (R108). -/
def encodeShift (funct7 : BitVec 7) (shamt : BitVec 5) (rs1 : Reg) (funct3 : BitVec 3) (rd : Reg) :
    Word :=
  funct7 ++ shamt ++ regBits rs1 ++ funct3 ++ regBits rd ++ 0b0010011#7

/-- The CSR immediate form of I: zimm in the rs1 field (R109). -/
def encodeCsrI (csr : CsrIndex) (zimm : BitVec 5) (funct3 : BitVec 3) (rd : Reg) : Word :=
  csr ++ zimm ++ funct3 ++ regBits rd ++ 0b1110011#7

/-- S format (R102, R104). -/
def encodeS (imm : BitVec 12) (rs2 rs1 : Reg) (funct3 : BitVec 3) : Word :=
  imm.extractLsb' 5 7 ++ regBits rs2 ++ regBits rs1 ++ funct3 ++ imm.extractLsb' 0 5 ++ 0b0100011#7

/-- B format (R102, R105); bit 0 of the offset is not encoded. -/
def encodeB (offset : BitVec 13) (rs2 rs1 : Reg) (funct3 : BitVec 3) : Word :=
  offset.extractLsb' 12 1 ++ offset.extractLsb' 5 6 ++ regBits rs2 ++ regBits rs1 ++ funct3 ++
    offset.extractLsb' 1 4 ++ offset.extractLsb' 11 1 ++ 0b1100011#7

/-- U format (R102, R106). -/
def encodeU (imm20 : BitVec 20) (rd : Reg) (opcode : BitVec 7) : Word :=
  imm20 ++ regBits rd ++ opcode

/-- J format (R102, R107); bit 0 of the offset is not encoded. -/
def encodeJ (offset : BitVec 21) (rd : Reg) : Word :=
  offset.extractLsb' 20 1 ++ offset.extractLsb' 1 10 ++ offset.extractLsb' 11 1 ++
    offset.extractLsb' 12 8 ++ regBits rd ++ 0b1101111#7

/-- The AMO form of R (R110). -/
def encodeAmo (funct5 : BitVec 5) (aq rl : Bool) (rd rs1 rs2 : Reg) : Word :=
  funct5 ++ BitVec.ofBool aq ++ BitVec.ofBool rl ++ regBits rs2 ++ regBits rs1 ++ 0b010#3 ++
    regBits rd ++ 0b0101111#7

/-- The FENCE form of I (R111). -/
def encodeFence (fm pred succ : BitVec 4) (rs1 rd : Reg) : Word :=
  fm ++ pred ++ succ ++ regBits rs1 ++ 0b000#3 ++ regBits rd ++ 0b0001111#7

/-- The word of a well-formed instruction (R102, R112, R113). -/
def encode : Instr → Word
  | .lui rd imm20 => encodeU imm20 rd 0b0110111#7
  | .auipc rd imm20 => encodeU imm20 rd 0b0010111#7
  | .addi rd rs1 imm => encodeI imm rs1 0b000#3 rd 0b0010011#7
  | .slti rd rs1 imm => encodeI imm rs1 0b010#3 rd 0b0010011#7
  | .sltiu rd rs1 imm => encodeI imm rs1 0b011#3 rd 0b0010011#7
  | .xori rd rs1 imm => encodeI imm rs1 0b100#3 rd 0b0010011#7
  | .ori rd rs1 imm => encodeI imm rs1 0b110#3 rd 0b0010011#7
  | .andi rd rs1 imm => encodeI imm rs1 0b111#3 rd 0b0010011#7
  | .slli rd rs1 shamt => encodeShift 0b0000000#7 shamt rs1 0b001#3 rd
  | .srli rd rs1 shamt => encodeShift 0b0000000#7 shamt rs1 0b101#3 rd
  | .srai rd rs1 shamt => encodeShift 0b0100000#7 shamt rs1 0b101#3 rd
  | .add rd rs1 rs2 => encodeR 0b0000000#7 rs2 rs1 0b000#3 rd 0b0110011#7
  | .sub rd rs1 rs2 => encodeR 0b0100000#7 rs2 rs1 0b000#3 rd 0b0110011#7
  | .sll rd rs1 rs2 => encodeR 0b0000000#7 rs2 rs1 0b001#3 rd 0b0110011#7
  | .slt rd rs1 rs2 => encodeR 0b0000000#7 rs2 rs1 0b010#3 rd 0b0110011#7
  | .sltu rd rs1 rs2 => encodeR 0b0000000#7 rs2 rs1 0b011#3 rd 0b0110011#7
  | .xor rd rs1 rs2 => encodeR 0b0000000#7 rs2 rs1 0b100#3 rd 0b0110011#7
  | .srl rd rs1 rs2 => encodeR 0b0000000#7 rs2 rs1 0b101#3 rd 0b0110011#7
  | .sra rd rs1 rs2 => encodeR 0b0100000#7 rs2 rs1 0b101#3 rd 0b0110011#7
  | .or rd rs1 rs2 => encodeR 0b0000000#7 rs2 rs1 0b110#3 rd 0b0110011#7
  | .and rd rs1 rs2 => encodeR 0b0000000#7 rs2 rs1 0b111#3 rd 0b0110011#7
  | .mul rd rs1 rs2 => encodeR 0b0000001#7 rs2 rs1 0b000#3 rd 0b0110011#7
  | .mulh rd rs1 rs2 => encodeR 0b0000001#7 rs2 rs1 0b001#3 rd 0b0110011#7
  | .mulhsu rd rs1 rs2 => encodeR 0b0000001#7 rs2 rs1 0b010#3 rd 0b0110011#7
  | .mulhu rd rs1 rs2 => encodeR 0b0000001#7 rs2 rs1 0b011#3 rd 0b0110011#7
  | .div rd rs1 rs2 => encodeR 0b0000001#7 rs2 rs1 0b100#3 rd 0b0110011#7
  | .divu rd rs1 rs2 => encodeR 0b0000001#7 rs2 rs1 0b101#3 rd 0b0110011#7
  | .rem rd rs1 rs2 => encodeR 0b0000001#7 rs2 rs1 0b110#3 rd 0b0110011#7
  | .remu rd rs1 rs2 => encodeR 0b0000001#7 rs2 rs1 0b111#3 rd 0b0110011#7
  | .lb rd rs1 imm => encodeI imm rs1 0b000#3 rd 0b0000011#7
  | .lh rd rs1 imm => encodeI imm rs1 0b001#3 rd 0b0000011#7
  | .lw rd rs1 imm => encodeI imm rs1 0b010#3 rd 0b0000011#7
  | .lbu rd rs1 imm => encodeI imm rs1 0b100#3 rd 0b0000011#7
  | .lhu rd rs1 imm => encodeI imm rs1 0b101#3 rd 0b0000011#7
  | .sb rs1 rs2 imm => encodeS imm rs2 rs1 0b000#3
  | .sh rs1 rs2 imm => encodeS imm rs2 rs1 0b001#3
  | .sw rs1 rs2 imm => encodeS imm rs2 rs1 0b010#3
  | .jal rd offset => encodeJ offset rd
  | .jalr rd rs1 imm => encodeI imm rs1 0b000#3 rd 0b1100111#7
  | .beq rs1 rs2 offset => encodeB offset rs2 rs1 0b000#3
  | .bne rs1 rs2 offset => encodeB offset rs2 rs1 0b001#3
  | .blt rs1 rs2 offset => encodeB offset rs2 rs1 0b100#3
  | .bge rs1 rs2 offset => encodeB offset rs2 rs1 0b101#3
  | .bltu rs1 rs2 offset => encodeB offset rs2 rs1 0b110#3
  | .bgeu rs1 rs2 offset => encodeB offset rs2 rs1 0b111#3
  | .fence fm pred succ rs1 rd => encodeFence fm pred succ rs1 rd
  | .fenceI immField rs1 rd => encodeI immField rs1 0b001#3 rd 0b0001111#7
  | .miscMemRsv01x funct3 immField rs1 rd => encodeI immField rs1 funct3 rd 0b0001111#7
  | .miscMemRsv1xx funct3 immField rs1 rd => encodeI immField rs1 funct3 rd 0b0001111#7
  | .ecall => 0x00000073#32
  | .ebreak => 0x00100073#32
  | .mret => 0x30200073#32
  | .csrrw rd csr rs1 => encodeI csr rs1 0b001#3 rd 0b1110011#7
  | .csrrs rd csr rs1 => encodeI csr rs1 0b010#3 rd 0b1110011#7
  | .csrrc rd csr rs1 => encodeI csr rs1 0b011#3 rd 0b1110011#7
  | .csrrwi rd csr zimm => encodeCsrI csr zimm 0b101#3 rd
  | .csrrsi rd csr zimm => encodeCsrI csr zimm 0b110#3 rd
  | .csrrci rd csr zimm => encodeCsrI csr zimm 0b111#3 rd
  | .lrW aq rl rd rs1 rs2 => encodeAmo 0b00010#5 aq rl rd rs1 rs2
  | .scW aq rl rd rs1 rs2 => encodeAmo 0b00011#5 aq rl rd rs1 rs2
  | .amoswapW aq rl rd rs1 rs2 => encodeAmo 0b00001#5 aq rl rd rs1 rs2
  | .amoaddW aq rl rd rs1 rs2 => encodeAmo 0b00000#5 aq rl rd rs1 rs2
  | .amoxorW aq rl rd rs1 rs2 => encodeAmo 0b00100#5 aq rl rd rs1 rs2
  | .amoandW aq rl rd rs1 rs2 => encodeAmo 0b01100#5 aq rl rd rs1 rs2
  | .amoorW aq rl rd rs1 rs2 => encodeAmo 0b01000#5 aq rl rd rs1 rs2
  | .amominW aq rl rd rs1 rs2 => encodeAmo 0b10000#5 aq rl rd rs1 rs2
  | .amomaxW aq rl rd rs1 rs2 => encodeAmo 0b10100#5 aq rl rd rs1 rs2
  | .amominuW aq rl rd rs1 rs2 => encodeAmo 0b11000#5 aq rl rd rs1 rs2
  | .amomaxuW aq rl rd rs1 rs2 => encodeAmo 0b11100#5 aq rl rd rs1 rs2

/-- The bytes of a well-formed instruction, lowest address first (R66). -/
def encodeBytes (i : Instr) : List Byte := bytesOf (encode i)

end Sys2Proof
end

