-- ==== Sys2Proof/Config.lean ====
section
/-! DEFINITION. The implementation's parameters (00_scope.md R7). -/

namespace Sys2Proof.Config

/-- RAM_BASE (R7, R80). -/
def ramBase : Nat := 0x80000000

/-- RAM_SIZE, 64 MiB (R7, R80). -/
def ramSize : Nat := 0x04000000

/-- RAM_END = RAM_BASE + RAM_SIZE, exclusive (R7). -/
def ramEnd : Nat := ramBase + ramSize

/-- ENTRY, the pc at reset (R7, R25, R354). -/
def entry : Word := 0x80000000#32

/-- CONSOLE_ADDR (R7, R80). -/
def consoleAddr : Word := 0x10000000#32

/-- CONSOLE_BUF_CAP (R7, R75). -/
def consoleBufCap : Nat := 256

/-- MISA_RESET is an open parameter; the model names the value the spec suggests.
PRESUMED, unsafe: log entry 1. `State.resetWith` takes any other. -/
def misaReset : Word := 0x40001101#32

/-- MVENDORID_RESET is an open parameter; the model names 0.
DESIGN CHOICE, unsafe: log entry 2. `State.resetWith` takes any other. -/
def mvendoridReset : Word := 0#32

/-- MTVEC_RESET is an open parameter; the model names 0.
DESIGN CHOICE, unsafe: log entry 3. `State.resetWith` takes any other. -/
def mtvecReset : Word := 0#32

/-- What a RAM byte that nothing has written reads as: RAM_INIT is an open parameter (R70, R353);
the model names 0 for every offset. DESIGN CHOICE, unsafe: log entry 4. -/
def ramInit : Byte := 0#8

end Sys2Proof.Config
end

