-- ==== Sys2Proof/Machine/Sparse.lean ====
section
/-! DEFINITION. A table held as a list of (key, value) pairs in ONE canonical form: keys strictly rising, and no
entry equal to what an unlisted key reads as. RAM (20_memory.md R70) and the CSR file ("a sparse 4096-entry table",
10_state.md R28) are two of these. -/

namespace Sys2Proof.Machine.Sparse

/-- The value at key `k`: the listed one, else `d`. -/
def get {α : Type} (d : α) : List (Nat × α) → Nat → α
  | [], _ => d
  | (k', v) :: rest, k => if k = k' then v else get d rest k

/-- Drop every entry at key `k`. -/
def erase {α : Type} (k : Nat) : List (Nat × α) → List (Nat × α)
  | [] => []
  | (k', v') :: rest => if k' = k then erase k rest else (k', v') :: erase k rest

/-- Insert an entry before the first greater key. -/
def insert {α : Type} (k : Nat) (v : α) : List (Nat × α) → List (Nat × α)
  | [] => [(k, v)]
  | (k', v') :: rest => if k < k' then (k, v) :: (k', v') :: rest else (k', v') :: insert k v rest

/-- Put `v` at key `k`; writing `d` removes the entry. Reading back gives `v` at `k` and the old value elsewhere
whatever the list; a canonical list stays canonical. -/
def set {α : Type} [DecidableEq α] (d : α) (l : List (Nat × α)) (k : Nat) (v : α) : List (Nat × α) :=
  if v = d then erase k l else insert k v (erase k l)

/-- The canonical form over keys from `lo` on and below `hi`: strictly rising keys, no entry equal to `d`. -/
def wf {α : Type} [DecidableEq α] (d : α) (hi : Nat) : Nat → List (Nat × α) → Bool
  | _, [] => true
  | lo, (k, v) :: rest => decide (lo ≤ k) && decide (k < hi) && decide (v ≠ d) && wf d hi (k + 1) rest

end Sys2Proof.Machine.Sparse
end

