-- ==== Sys2Proof/Machine/State.lean ====
section
/-! DEFINITION. The machine's state as plain data: everything 10_state.md R39 lists, the pending exception of a
cycle (R37), the host's input queue (20_memory.md R76) and the record of the console's output (R78). -/

namespace Sys2Proof.Machine

/-- The exceptions the core raises (60_exceptions.md R300). -/
inductive Cause where
  | illegalInstruction   -- code 2
  | breakpoint           -- code 3
  | loadAccessFault      -- code 5, fetch faults too
  | storeAccessFault     -- code 6
  | environmentCall      -- code 10
  deriving DecidableEq, Repr

/-- Why the machine is not started. No instruction and no cycle ends in a fault: "The machine never stops"
(10_state.md R49; 60_exceptions.md R340). -/
inductive Fault where
  /-- Raised by `State.load` when the image cannot be read: the fatal startup error of 60_exceptions.md R340(a),
  70_reset_and_hazards.md R352(c). Safe: the block is never started. -/
  | imageUnreadable
  deriving DecidableEq, Repr

/-- Why something is refused. No meaning of an instruction refuses. -/
inductive Refusal where
  /-- Raised by an arm of `exec` for an instruction that has no meaning yet (no arm does). Safe. -/
  | notModelled (mnemonic : String)
  /-- Raised by `State.load` when the image is longer than RAM: "If len > RAM_SIZE the load is refused and the
  block is never started" (R352(b)). Safe. -/
  | imageTooLong
  deriving DecidableEq, Repr

/-- The load reservation (10_state.md R36). -/
structure Reservation where
  valid : Bool
  addr  : Word
  deriving DecidableEq, Repr

/-- The console device's buffers and its sticky overflow flag (20_memory.md R75). -/
structure Console where
  lineAcc  : List Byte   -- bytes of the line not yet closed, oldest first
  rxFifo   : List Byte   -- bytes of closed lines not yet read, oldest first
  overflow : Bool        -- cons_rx_overflow
  deriving DecidableEq, Repr

/-- The state of the block (10_state.md R39), with its host input queue and its output so far. -/
structure State where
  regs    : Vector Word 32         -- x0 to x31 (R20); read and written through `State.reg`, `State.setReg`
  pc      : Word                   -- R25
  csrs    : List (Nat × Word)      -- the CSR file (R28), canonical, unlisted entries 0
  resv    : Reservation            -- R36
  exc     : Option Cause           -- the pending exception (R37), none between cycles
  mem     : List Host.Cell         -- RAM (R70) by address, canonical, unlisted bytes Config.ramInit
  console : Console                -- R75
  hostIn  : List Byte              -- host_in (R76), the host's queue, next byte first
  consOut : List Byte              -- cons_out (R78): every byte emitted so far, oldest first
  deriving DecidableEq, Repr

/-- The state after reset at power-up, for any choice of the three open parameters MISA_RESET, MVENDORID_RESET
and MTVEC_RESET (70_reset_and_hazards.md R351, R353). -/
def State.resetWith (misa mvendorid mtvec : Word) : State where
  regs := Vector.replicate 32 0#32
  pc := Config.entry
  csrs := Sparse.set 0#32 (Sparse.set 0#32 (Sparse.set 0#32 [] 0x301 misa) 0xF11 mvendorid) 0x305 mtvec
  resv := ⟨false, 0#32⟩
  exc := none
  mem := []
  console := ⟨[], [], false⟩
  hostIn := []
  consOut := []

/-- The machine right after reset, with the parameter values the model names (log entries 1 to 4). -/
def State.reset : State :=
  State.resetWith Config.misaReset Config.mvendoridReset Config.mtvecReset

end Sys2Proof.Machine
end

