-- ==== Sys2Proof/Machine/Ops.lean ====
section
/-! DEFINITION. The named operations over registers, CSRs, RAM, the console and the bus; the end of the cycle
(counter update, trap dispatch); taking an exception and returning from one. Every meaning is built from these. -/

namespace Sys2Proof.Machine

/-- What an operation of a cycle answers. -/
abbrev Result := Host.Outcome State Fault Refusal

/-! ## Updates of single fields, so that no proof unfolds a record update -/

/-- The pc (10_state.md R25). -/
def State.setPc (s : State) (v : Word) : State := { s with pc := v }

/-- The pending exception (R37). -/
def State.setExc (s : State) (e : Option Cause) : State := { s with exc := e }

/-- The reservation (R36). -/
def State.setResv (s : State) (r : Reservation) : State := { s with resv := r }

/-- The console's buffers and the host's queue, which a console read changes together (20_memory.md R77). -/
def State.setConsole (s : State) (c : Console) (hostIn : List Byte) : State :=
  { s with console := c, hostIn := hostIn }

/-- One more byte on cons_out (R78). -/
def State.emit (s : State) (b : Byte) : State := { s with consOut := s.consOut ++ [b] }

/-! ## General registers (10_state.md R20 to R24) -/

/-- Read a register; x0 reads 0 (R21). -/
def State.reg (s : State) (r : Reg) : Word := if r = 0 then 0#32 else s.regs[r.val]

/-- Write a register; a write to x0 has no effect (R22). -/
def State.setReg (s : State) (r : Reg) (v : Word) : State :=
  if r = 0 then s else { s with regs := s.regs.set r.val v }

/-- Step 1 of the cycle: "Force register 0 to zero" (R41). -/
def State.zeroX0 (s : State) : State := { s with regs := s.regs.set 0 0#32 }

/-! ## The CSR file (10_state.md R28, R29): no access check, no side effect, every bit stored as written -/

/-- misa. -/
def Csr.misa : CsrIndex := 0x301#12
/-- mvendorid. -/
def Csr.mvendorid : CsrIndex := 0xF11#12
/-- mtvec. -/
def Csr.mtvec : CsrIndex := 0x305#12
/-- mepc. -/
def Csr.mepc : CsrIndex := 0x341#12
/-- mcause. -/
def Csr.mcause : CsrIndex := 0x342#12
/-- mcycle. -/
def Csr.mcycle : CsrIndex := 0xB00#12
/-- minstret. -/
def Csr.minstret : CsrIndex := 0xB02#12
/-- The counters' gate. -/
def Csr.inhibit : CsrIndex := 0x306#12

/-- Read a CSR. -/
def State.csr (s : State) (n : CsrIndex) : Word := Sparse.get 0#32 s.csrs n.toNat

/-- Write a CSR. -/
def State.setCsr (s : State) (n : CsrIndex) (v : Word) : State :=
  { s with csrs := Sparse.set 0#32 s.csrs n.toNat v }

/-- The CSR file's canonical form. -/
def CsrFile.wf (c : List (Nat × Word)) : Bool := Sparse.wf 0#32 4096 0 c

/-! ## RAM (20_memory.md R70 to R72), by address -/

/-- Is the address in [RAM_BASE, RAM_END)? An exact integer compare, no wrap (R60). -/
def inRam (a : Nat) : Bool := decide (Config.ramBase ≤ a) && decide (a < Config.ramEnd)

/-- RAM's canonical form: addresses strictly rising and inside RAM, no entry equal to what an unlisted
address reads as. -/
def Memory.wf (m : List Host.Cell) : Bool := Sparse.wf Config.ramInit Config.ramEnd Config.ramBase m

/-- RamByte by address (R71); past the end of RAM it is 0x00 (R72). -/
def State.ramByte (s : State) (a : Nat) : Byte :=
  if inRam a then Sparse.get Config.ramInit s.mem a else 0#8

/-- RamWriteByte by address (R71); past the end of RAM it does nothing (R72). -/
def State.setRamByte (s : State) (a : Nat) (b : Byte) : State :=
  if inRam a then { s with mem := Sparse.set Config.ramInit s.mem a b } else s

/-- The four bytes from `a` on, little-endian (R60, R66). -/
def State.ramWord (s : State) (a : Nat) : Word :=
  wordOfBytes (s.ramByte a) (s.ramByte (a + 1)) (s.ramByte (a + 2)) (s.ramByte (a + 3))

/-- Write the low `n` bytes of `v` from `a` on, byte 0 first (R61, R66). -/
def State.setRamBytes (s : State) (a : Nat) (v : Word) : Nat → State
  | 0 => s
  | n + 1 => (s.setRamBytes a v n).setRamByte (a + n) (byteOf v n)

/-! ## The console (20_memory.md R75 to R79) -/

/-- The newline byte, the only line terminator (R77). -/
def newline : Byte := 0x0A#8

/-- The loop of ConsoleRead (R77) over the host's bytes, `rxFifo` being empty: the byte returned, the console
after it, and the host bytes left. -/
def takeHostInput (lineAcc : List Byte) (overflow : Bool) : List Byte → Byte × Console × List Byte
  | [] => (0x00#8, ⟨lineAcc, [], overflow⟩, [])
  | b :: rest =>
    if b = newline then
      match lineAcc with
      | [] => takeHostInput [] overflow rest
      | c :: cs => (c, ⟨[], cs, overflow⟩, rest)
    else if lineAcc.length < Config.consoleBufCap then takeHostInput (lineAcc ++ [b]) overflow rest
    else takeHostInput lineAcc true rest

/-- ConsoleRead (R77): one byte, never waiting. -/
def consoleRead (s : State) : Byte × State :=
  match s.console.rxFifo with
  | b :: rest => (b, s.setConsole { s.console with rxFifo := rest } s.hostIn)
  | [] =>
    let r := takeHostInput s.console.lineAcc s.console.overflow s.hostIn
    (r.1, s.setConsole r.2.1 r.2.2)

/-- ConsoleWrite (R78): emit one byte at once. -/
def consoleWrite (b : Byte) (s : State) : State := s.emit b

/-! ## The bus (20_memory.md R60 to R65): dispatch on the start address alone -/

/-- MemRead (R60): a word and the state after the read, or `none` for a load access fault, which has no side
effect. A console byte is zero-extended. -/
def memRead (a : Word) (s : State) : Option (Word × State) :=
  if inRam a.toNat then some (s.ramWord a.toNat, s)
  else if a = Config.consoleAddr then
    let r := consoleRead s
    some (r.1.setWidth 32, r.2)
  else none

/-- MemWrite (R61) of the low `n` bytes of `v`, n in 1, 2, 4; `none` for a store access fault. At the console
the low byte is emitted, whatever `n` is. -/
def memWrite (a : Word) (n : Nat) (v : Word) (s : State) : Option State :=
  if inRam a.toNat then some (s.setRamBytes a.toNat v n)
  else if a = Config.consoleAddr then some (consoleWrite (byteOf v 0) s)
  else none

/-! ## The end of the cycle (10_state.md R44 to R47; 60_exceptions.md R300, R305, R306, R330) -/

/-- The code written to mcause (R300). -/
def Cause.code : Cause → Word
  | .illegalInstruction => 2#32
  | .breakpoint => 3#32
  | .loadAccessFault => 5#32
  | .storeAccessFault => 6#32
  | .environmentCall => 10#32

/-- The npc of a cycle that raised, from the instruction's address (R44): pc + 4 for an environment call,
pc for every other cause. -/
def Cause.npc (c : Cause) (pc : Word) : Word :=
  match c with
  | .environmentCall => pc + 4#32
  | .illegalInstruction | .breakpoint | .loadAccessFault | .storeAccessFault => pc

/-- counter_update (R330): a set bit of the gate means count; both wrap modulo 2^32. -/
def counterUpdate (s : State) : State :=
  let g := s.csr Csr.inhibit
  let s := if g.getLsbD 0 then s.setCsr Csr.mcycle (s.csr Csr.mcycle + 1#32) else s
  if g.getLsbD 2 then s.setCsr Csr.minstret (s.csr Csr.minstret + 1#32) else s

/-- trap_target (R306): direct when MODE is 00, else BASE + 4 · code, for every cause. -/
def trapTarget (mtvec : Word) (c : Cause) : Word :=
  if mtvec.extractLsb' 0 2 = 0#2 then mtvec
  else (mtvec.extractLsb' 2 30 ++ 0#2) + c.code * 4#32

/-- trap_dispatch (R305), or `pc <- npc` when nothing is pending (R46). -/
def trapDispatch (npc : Word) (s : State) : State :=
  match s.exc with
  | none => s.setPc npc
  | some c =>
    let s := s.setCsr Csr.mepc npc
    let s := s.setPc (trapTarget (s.csr Csr.mtvec) c)
    let s := s.setCsr Csr.mcause c.code
    s.setExc none

/-- Steps 5 to 7 of the cycle (R47): the outcome's exception becomes pending, the counters are updated, then
the trap is dispatched or pc moves to `npc`. -/
def cycleEnd (exc : Option Cause) (npc : Word) (s : State) : State :=
  trapDispatch npc (counterUpdate (s.setExc exc))

/-- The end of a cycle is always a next state: the machine never stops (R49). -/
def endCycle (exc : Option Cause) (npc : Word) (s : State) : Result := .next (cycleEnd exc npc s)

/-- The instruction completes: npc = pc + 4 (R44). -/
def complete (s : State) : Result := endCycle none (s.pc + 4#32) s

/-- The instruction redirects control to `target` (R44). -/
def redirect (target : Word) (s : State) : Result := endCycle none target s

/-- TAKING AN EXCEPTION (R44, R303, R305): `s` is the state with no effect of the raising instruction in it. -/
def takeException (c : Cause) (s : State) : Result := endCycle (some c) (c.npc s.pc) s

/-- RETURNING FROM ONE (45_system.md R243; 60_exceptions.md R320): pc <- mepc, nothing else. -/
def returnFromException (s : State) : Result := redirect (s.csr Csr.mepc) s

/-! ## The start of the cycle (10_state.md R41, R42, R47) -/

/-- `exc <- none` (R47) and step 1, "Force register 0 to zero" (R41). -/
def beginCycle (s : State) : State := (s.setExc none).zeroX0

/-- Step 2, fetch: one bus read at pc (R42). -/
def fetch (s : State) : Option (Word × State) := memRead s.pc s

/-- Put a word's four bytes at pc, for `State.withFetchWord`. If they do not all lie in RAM there, pc moves to
ENTRY first. -/
def placeAtPc (w : Word) (s : State) : State :=
  let s := if inRam s.pc.toNat && inRam (s.pc.toNat + 3) then s else s.setPc Config.entry
  s.setRamBytes s.pc.toNat w 4

end Sys2Proof.Machine
end

