-- ==== Sys2Proof/Machine/Flags.lean ====
section
/-! DEFINITION. The core has no flags (10_state.md R38). What stands in for them: the comparisons that SLT and its
kin write to a register (40_alu.md R144, R145, R155, R156) and that branches and the AMO minima and maxima decide on
(43_control.md R213 to R218; 46_atomic.md R269 to R272). -/

namespace Sys2Proof.Machine

/-- signed(a) < signed(b) (00_scope.md R10). -/
def ltSigned (a b : Word) : Bool := decide (a.toInt < b.toInt)

/-- unsigned(a) < unsigned(b) (R10). -/
def ltUnsigned (a b : Word) : Bool := decide (a.toNat < b.toNat)

/-- A comparison's result as a register value: exactly 0 or 1 (R144). -/
def boolWord (b : Bool) : Word := if b then 1#32 else 0#32

end Sys2Proof.Machine
end

