-- ==== Sys2Proof/Machine/Operands.lean ====
section
/-! DEFINITION. Operand forms: the immediates as 32-bit values (30_encoding.md R103 to R109), the one addressing
mode (42_load_store.md R190), shift amounts (R108; 40_alu.md R154) and the narrowings of a load (R191 to R195). -/

namespace Sys2Proof.Machine

/-- immI and immS: sext_12 (R103, R104). -/
def sext12 (imm : BitVec 12) : Word := imm.signExtend 32

/-- immB: sext_13 (R105). -/
def sext13 (offset : BitVec 13) : Word := offset.signExtend 32

/-- immJ: sext_21 (R107). -/
def sext21 (offset : BitVec 21) : Word := offset.signExtend 32

/-- immU: the 20 bits, then 12 zero bits (R106). -/
def immU (imm20 : BitVec 20) : Word := imm20 ++ 0#12

/-- zimm: zext_5 (R109). -/
def zext5 (zimm : BitVec 5) : Word := zimm.setWidth 32

/-- ea = x[rs1] + imm modulo 2^32 (R190). -/
def effectiveAddress (s : State) (rs1 : Reg) (imm : BitVec 12) : Word := s.reg rs1 + sext12 imm

/-- The shift amount of a register shift, x[rs2][4:0] (R154, R158, R159). -/
def shiftAmount (v : Word) : Nat := (v.extractLsb' 0 5).toNat

/-- sext_8 of the word's low byte (R191). -/
def narrowByteSigned (v : Word) : Word := (v.extractLsb' 0 8).signExtend 32

/-- sext_16 of the word's low halfword (R192). -/
def narrowHalfSigned (v : Word) : Word := (v.extractLsb' 0 16).signExtend 32

/-- zext_8 of the word's low byte (R194). -/
def narrowByteUnsigned (v : Word) : Word := (v.extractLsb' 0 8).setWidth 32

/-- zext_16 of the word's low halfword (R195). -/
def narrowHalfUnsigned (v : Word) : Word := (v.extractLsb' 0 16).setWidth 32

end Sys2Proof.Machine
end

