-- ==== Sys2Proof/Machine/Alu.lean ====
section
/-! DEFINITION. Integer computation: LUI, AUIPC, OP-IMM, OP (40_alu.md R140 to R161). Each writes rd only and
completes (R140). -/

namespace Sys2Proof.Machine

/-- Write rd and complete (R140). -/
def writeBack (rd : Reg) (v : Word) (s : State) : Result := complete (s.setReg rd v)

/-- LUI (R141). -/
def execLui (rd : Reg) (imm20 : BitVec 20) (s : State) : Result := writeBack rd (immU imm20) s

/-- AUIPC (R142). -/
def execAuipc (rd : Reg) (imm20 : BitVec 20) (s : State) : Result := writeBack rd (s.pc + immU imm20) s

/-- ADDI (R143). -/
def execAddi (rd rs1 : Reg) (imm : BitVec 12) (s : State) : Result :=
  writeBack rd (s.reg rs1 + sext12 imm) s

/-- SLTI (R144). -/
def execSlti (rd rs1 : Reg) (imm : BitVec 12) (s : State) : Result :=
  writeBack rd (boolWord (ltSigned (s.reg rs1) (sext12 imm))) s

/-- SLTIU (R145): the immediate is sign-extended, then compared as unsigned. -/
def execSltiu (rd rs1 : Reg) (imm : BitVec 12) (s : State) : Result :=
  writeBack rd (boolWord (ltUnsigned (s.reg rs1) (sext12 imm))) s

/-- XORI (R146). -/
def execXori (rd rs1 : Reg) (imm : BitVec 12) (s : State) : Result :=
  writeBack rd (s.reg rs1 ^^^ sext12 imm) s

/-- ORI (R147). -/
def execOri (rd rs1 : Reg) (imm : BitVec 12) (s : State) : Result :=
  writeBack rd (s.reg rs1 ||| sext12 imm) s

/-- ANDI (R148). -/
def execAndi (rd rs1 : Reg) (imm : BitVec 12) (s : State) : Result :=
  writeBack rd (s.reg rs1 &&& sext12 imm) s

/-- SLLI (R149). -/
def execSlli (rd rs1 : Reg) (shamt : BitVec 5) (s : State) : Result :=
  writeBack rd (s.reg rs1 <<< shamt.toNat) s

/-- SRLI (R150). -/
def execSrli (rd rs1 : Reg) (shamt : BitVec 5) (s : State) : Result :=
  writeBack rd (s.reg rs1 >>> shamt.toNat) s

/-- SRAI (R151). -/
def execSrai (rd rs1 : Reg) (shamt : BitVec 5) (s : State) : Result :=
  writeBack rd ((s.reg rs1).sshiftRight shamt.toNat) s

/-- ADD (R152). -/
def execAdd (rd rs1 rs2 : Reg) (s : State) : Result := writeBack rd (s.reg rs1 + s.reg rs2) s

/-- SUB (R153). -/
def execSub (rd rs1 rs2 : Reg) (s : State) : Result := writeBack rd (s.reg rs1 - s.reg rs2) s

/-- SLL (R154). -/
def execSll (rd rs1 rs2 : Reg) (s : State) : Result :=
  writeBack rd (s.reg rs1 <<< shiftAmount (s.reg rs2)) s

/-- SLT (R155). -/
def execSlt (rd rs1 rs2 : Reg) (s : State) : Result :=
  writeBack rd (boolWord (ltSigned (s.reg rs1) (s.reg rs2))) s

/-- SLTU (R156). -/
def execSltu (rd rs1 rs2 : Reg) (s : State) : Result :=
  writeBack rd (boolWord (ltUnsigned (s.reg rs1) (s.reg rs2))) s

/-- XOR (R157). -/
def execXor (rd rs1 rs2 : Reg) (s : State) : Result := writeBack rd (s.reg rs1 ^^^ s.reg rs2) s

/-- SRL (R158). -/
def execSrl (rd rs1 rs2 : Reg) (s : State) : Result :=
  writeBack rd (s.reg rs1 >>> shiftAmount (s.reg rs2)) s

/-- SRA (R159). -/
def execSra (rd rs1 rs2 : Reg) (s : State) : Result :=
  writeBack rd ((s.reg rs1).sshiftRight (shiftAmount (s.reg rs2))) s

/-- OR (R160). -/
def execOr (rd rs1 rs2 : Reg) (s : State) : Result := writeBack rd (s.reg rs1 ||| s.reg rs2) s

/-- AND (R161). -/
def execAnd (rd rs1 rs2 : Reg) (s : State) : Result := writeBack rd (s.reg rs1 &&& s.reg rs2) s

end Sys2Proof.Machine
end

