-- ==== Sys2Proof/Machine/Atomic.lean ====
section
/-! DEFINITION. Atomic instructions (46_atomic.md R260 to R272). aq and rl have no effect (20_memory.md R87), so the
meanings do not take them. -/

namespace Sys2Proof.Machine

/-- LR.W (R262): the reservation is set to exactly x[rs1] (R261). -/
def execLrW (rd rs1 : Reg) (s : State) : Result :=
  let a := s.reg rs1
  match memRead a s with
  | none => takeException .loadAccessFault s
  | some (v, s') =>
    complete ((s'.setResv { valid := true, addr := a }).setReg rd v)

/-- SC.W (R263): reads first, clears the reservation, writes only if it was valid at exactly x[rs1]. The write
cannot fault where the read did not (R260(c)); were it to, it would be a store access fault of the bus (R61). -/
def execScW (rd rs1 rs2 : Reg) (s : State) : Result :=
  let a := s.reg rs1
  let d := s.reg rs2
  match memRead a s with
  | none => takeException .loadAccessFault s
  | some (_, s') =>
    let ok := s'.resv.valid && decide (s'.resv.addr = a)
    let s' := s'.setResv { s'.resv with valid := false }
    if ok then
      match memWrite a 4 d s' with
      | none => takeException .storeAccessFault s
      | some s'' => complete (s''.setReg rd 0#32)
    else complete (s'.setReg rd 1#32)

/-- The AMO form (section 2 of 46_atomic.md): read, write `op t d` at the same address, rd gets the value read. The
write cannot fault where the read did not (R260(c)). -/
def amoUpdate (op : Word → Word → Word) (rd rs1 rs2 : Reg) (s : State) : Result :=
  let a := s.reg rs1
  let d := s.reg rs2
  match memRead a s with
  | none => takeException .loadAccessFault s
  | some (t, s') =>
    match memWrite a 4 (op t d) s' with
    | none => takeException .storeAccessFault s
    | some s'' => complete (s''.setReg rd t)

/-- AMOSWAP.W (R264). -/
def execAmoswapW (rd rs1 rs2 : Reg) (s : State) : Result := amoUpdate (fun _ d => d) rd rs1 rs2 s

/-- AMOADD.W (R265). -/
def execAmoaddW (rd rs1 rs2 : Reg) (s : State) : Result := amoUpdate (fun t d => t + d) rd rs1 rs2 s

/-- AMOXOR.W (R266). -/
def execAmoxorW (rd rs1 rs2 : Reg) (s : State) : Result := amoUpdate (fun t d => t ^^^ d) rd rs1 rs2 s

/-- AMOAND.W (R267). -/
def execAmoandW (rd rs1 rs2 : Reg) (s : State) : Result := amoUpdate (fun t d => t &&& d) rd rs1 rs2 s

/-- AMOOR.W (R268). -/
def execAmoorW (rd rs1 rs2 : Reg) (s : State) : Result := amoUpdate (fun t d => t ||| d) rd rs1 rs2 s

/-- AMOMIN.W (R269): t if signed(t) <= signed(d), else d. -/
def execAmominW (rd rs1 rs2 : Reg) (s : State) : Result :=
  amoUpdate (fun t d => if ltSigned d t then d else t) rd rs1 rs2 s

/-- AMOMAX.W (R270): t if signed(t) >= signed(d), else d. -/
def execAmomaxW (rd rs1 rs2 : Reg) (s : State) : Result :=
  amoUpdate (fun t d => if ltSigned t d then d else t) rd rs1 rs2 s

/-- AMOMINU.W (R271): t if unsigned(t) <= unsigned(d), else d. -/
def execAmominuW (rd rs1 rs2 : Reg) (s : State) : Result :=
  amoUpdate (fun t d => if ltUnsigned d t then d else t) rd rs1 rs2 s

/-- AMOMAXU.W (R272): t if unsigned(t) >= unsigned(d), else d. -/
def execAmomaxuW (rd rs1 rs2 : Reg) (s : State) : Result :=
  amoUpdate (fun t d => if ltUnsigned t d then d else t) rd rs1 rs2 s

end Sys2Proof.Machine
end

