-- ==== Sys2Proof/Machine/Control.lean ====
section
/-! DEFINITION. Control transfer (43_control.md R210 to R218). No target is checked (R210). -/

namespace Sys2Proof.Machine

/-- A jump (R210, R211): the link pc + 4 into rd, then the target, which was computed before the write (R24). -/
def jumpAndLink (rd : Reg) (target : Word) (s : State) : Result :=
  redirect target (s.setReg rd (s.pc + 4#32))

/-- A branch (R210): to pc + immB if the condition holds, else it completes. -/
def branchIf (cond : Bool) (offset : BitVec 13) (s : State) : Result :=
  if cond then redirect (s.pc + sext13 offset) s else complete s

/-- JAL (R211). -/
def execJal (rd : Reg) (offset : BitVec 21) (s : State) : Result :=
  jumpAndLink rd (s.pc + sext21 offset) s

/-- JALR (R212): only bit 0 of the target is cleared. -/
def execJalr (rd rs1 : Reg) (imm : BitVec 12) (s : State) : Result :=
  jumpAndLink rd ((s.reg rs1 + sext12 imm) &&& 0xFFFFFFFE#32) s

/-- BEQ (R213). -/
def execBeq (rs1 rs2 : Reg) (offset : BitVec 13) (s : State) : Result :=
  branchIf (decide (s.reg rs1 = s.reg rs2)) offset s

/-- BNE (R214). -/
def execBne (rs1 rs2 : Reg) (offset : BitVec 13) (s : State) : Result :=
  branchIf (decide (s.reg rs1 ≠ s.reg rs2)) offset s

/-- BLT (R215). -/
def execBlt (rs1 rs2 : Reg) (offset : BitVec 13) (s : State) : Result :=
  branchIf (ltSigned (s.reg rs1) (s.reg rs2)) offset s

/-- BGE (R216). -/
def execBge (rs1 rs2 : Reg) (offset : BitVec 13) (s : State) : Result :=
  branchIf (!ltSigned (s.reg rs1) (s.reg rs2)) offset s

/-- BLTU (R217). -/
def execBltu (rs1 rs2 : Reg) (offset : BitVec 13) (s : State) : Result :=
  branchIf (ltUnsigned (s.reg rs1) (s.reg rs2)) offset s

/-- BGEU (R218). -/
def execBgeu (rs1 rs2 : Reg) (offset : BitVec 13) (s : State) : Result :=
  branchIf (!ltUnsigned (s.reg rs1) (s.reg rs2)) offset s

end Sys2Proof.Machine
end

