-- ==== Sys2Proof/Machine/Fence.lean ====
section
/-! DEFINITION. MISC-MEM: every word of the class completes and does nothing else (44_fence.md R230 to R232;
20_memory.md R87, R90). -/

namespace Sys2Proof.Machine

/-- FENCE (R230), FENCE.TSO and PAUSE too. -/
def execFence (s : State) : Result := complete s

/-- FENCE.I (R231). -/
def execFenceI (s : State) : Result := complete s

/-- MISC-MEM with funct3 010 or 011 (R232). -/
def execMiscMemRsv01x (s : State) : Result := complete s

/-- MISC-MEM with funct3 100 to 111 (R232). -/
def execMiscMemRsv1xx (s : State) : Result := complete s

end Sys2Proof.Machine
end

