-- ==== Sys2Proof/Machine/LoadStore.lean ====
section
/-! DEFINITION. Loads and stores (42_load_store.md R190 to R198). -/

namespace Sys2Proof.Machine

/-- A load (R190): one bus read at `ea`, narrowed into rd; a fault of the read is a load access fault with no
other effect (R303). -/
def loadInto (narrow : Word → Word) (rd : Reg) (ea : Word) (s : State) : Result :=
  match memRead ea s with
  | none => takeException .loadAccessFault s
  | some (v, s') => complete (s'.setReg rd (narrow v))

/-- A store (R190): one bus write of the low `n` bytes of `v` at `ea`; a fault of the write is a store access
fault with no other effect (R303). -/
def storeFrom (n : Nat) (v ea : Word) (s : State) : Result :=
  match memWrite ea n v s with
  | none => takeException .storeAccessFault s
  | some s' => complete s'

/-- LB (R191). -/
def execLb (rd rs1 : Reg) (imm : BitVec 12) (s : State) : Result :=
  loadInto narrowByteSigned rd (effectiveAddress s rs1 imm) s

/-- LH (R192). -/
def execLh (rd rs1 : Reg) (imm : BitVec 12) (s : State) : Result :=
  loadInto narrowHalfSigned rd (effectiveAddress s rs1 imm) s

/-- LW (R193). -/
def execLw (rd rs1 : Reg) (imm : BitVec 12) (s : State) : Result :=
  loadInto id rd (effectiveAddress s rs1 imm) s

/-- LBU (R194). -/
def execLbu (rd rs1 : Reg) (imm : BitVec 12) (s : State) : Result :=
  loadInto narrowByteUnsigned rd (effectiveAddress s rs1 imm) s

/-- LHU (R195). -/
def execLhu (rd rs1 : Reg) (imm : BitVec 12) (s : State) : Result :=
  loadInto narrowHalfUnsigned rd (effectiveAddress s rs1 imm) s

/-- SB (R196). -/
def execSb (rs1 rs2 : Reg) (imm : BitVec 12) (s : State) : Result :=
  storeFrom 1 (s.reg rs2) (effectiveAddress s rs1 imm) s

/-- SH (R197). -/
def execSh (rs1 rs2 : Reg) (imm : BitVec 12) (s : State) : Result :=
  storeFrom 2 (s.reg rs2) (effectiveAddress s rs1 imm) s

/-- SW (R198). -/
def execSw (rs1 rs2 : Reg) (imm : BitVec 12) (s : State) : Result :=
  storeFrom 4 (s.reg rs2) (effectiveAddress s rs1 imm) s

end Sys2Proof.Machine
end

