-- ==== Sys2Proof/Machine/MulDiv.lean ====
section
/-! DEFINITION. Multiply and divide (41_muldiv.md R170 to R179): computed exactly on integers, then narrowed. None
raises an exception. -/

namespace Sys2Proof.Machine

/-- p[63:32] of an exact product p, as a 64-bit two's-complement number (R172 to R174). -/
def highWord (p : Int) : Word := (BitVec.ofInt 64 p).extractLsb' 32 32

/-- The quotient of DIV (R175): all ones by zero, the dividend on overflow, else rounded toward zero. -/
def divSigned (x y : Word) : Word :=
  let a := x.toInt
  let b := y.toInt
  if b = 0 then 0xFFFFFFFF#32
  else if a = -2147483648 ∧ b = -1 then 0x80000000#32
  else BitVec.ofInt 32 (a.tdiv b)

/-- The quotient of DIVU (R176). -/
def divUnsigned (x y : Word) : Word :=
  if y.toNat = 0 then 0xFFFFFFFF#32 else BitVec.ofNat 32 (x.toNat / y.toNat)

/-- The remainder of REM (R177): the dividend by zero, 0 on overflow, else with the dividend's sign. -/
def remSigned (x y : Word) : Word :=
  let a := x.toInt
  let b := y.toInt
  if b = 0 then x
  else if a = -2147483648 ∧ b = -1 then 0#32
  else BitVec.ofInt 32 (a - b * a.tdiv b)

/-- The remainder of REMU (R178). -/
def remUnsigned (x y : Word) : Word :=
  if y.toNat = 0 then x else BitVec.ofNat 32 (x.toNat % y.toNat)

/-- MUL (R171): the low 32 bits of the product. -/
def execMul (rd rs1 rs2 : Reg) (s : State) : Result :=
  writeBack rd (BitVec.ofNat 32 ((s.reg rs1).toNat * (s.reg rs2).toNat)) s

/-- MULH (R172). -/
def execMulh (rd rs1 rs2 : Reg) (s : State) : Result :=
  writeBack rd (highWord ((s.reg rs1).toInt * (s.reg rs2).toInt)) s

/-- MULHSU (R173): rs1 is the signed one. -/
def execMulhsu (rd rs1 rs2 : Reg) (s : State) : Result :=
  writeBack rd (highWord ((s.reg rs1).toInt * ((s.reg rs2).toNat : Int))) s

/-- MULHU (R174). -/
def execMulhu (rd rs1 rs2 : Reg) (s : State) : Result :=
  writeBack rd (highWord (((s.reg rs1).toNat * (s.reg rs2).toNat : Nat) : Int)) s

/-- DIV (R175). -/
def execDiv (rd rs1 rs2 : Reg) (s : State) : Result :=
  writeBack rd (divSigned (s.reg rs1) (s.reg rs2)) s

/-- DIVU (R176). -/
def execDivu (rd rs1 rs2 : Reg) (s : State) : Result :=
  writeBack rd (divUnsigned (s.reg rs1) (s.reg rs2)) s

/-- REM (R177). -/
def execRem (rd rs1 rs2 : Reg) (s : State) : Result :=
  writeBack rd (remSigned (s.reg rs1) (s.reg rs2)) s

/-- REMU (R178). -/
def execRemu (rd rs1 rs2 : Reg) (s : State) : Result :=
  writeBack rd (remUnsigned (s.reg rs1) (s.reg rs2)) s

end Sys2Proof.Machine
end

