-- ==== Sys2Proof/Machine/System.lean ====
section
/-! DEFINITION. System instructions (45_system.md R240 to R250). None checks a mode or a CSR index (R240, R325). -/

namespace Sys2Proof.Machine

/-- ECALL (R241): cause 10, mepc = pc + 4. -/
def execEcall (s : State) : Result := takeException .environmentCall s

/-- EBREAK (R242): cause 3, mepc = pc. -/
def execEbreak (s : State) : Result := takeException .breakpoint s

/-- MRET (R243). -/
def execMret (s : State) : Result := returnFromException s

/-- The common CSR rule (R244): rd gets the old value, the CSR gets `f old src`; `src` was read before any
write (R24). -/
def csrAccess (f : Word → Word → Word) (rd : Reg) (csr : CsrIndex) (src : Word) (s : State) : Result :=
  let old := s.csr csr
  complete ((s.setReg rd old).setCsr csr (f old src))

/-- CSRRW's new value (R245). -/
def csrWrite (_ src : Word) : Word := src

/-- CSRRS's new value (R246). -/
def csrSetBits (old src : Word) : Word := old ||| src

/-- CSRRC's new value (R247). -/
def csrClearBits (old src : Word) : Word := old &&& ~~~src

/-- CSRRW (R245). -/
def execCsrrw (rd : Reg) (csr : CsrIndex) (rs1 : Reg) (s : State) : Result :=
  csrAccess csrWrite rd csr (s.reg rs1) s

/-- CSRRS (R246). -/
def execCsrrs (rd : Reg) (csr : CsrIndex) (rs1 : Reg) (s : State) : Result :=
  csrAccess csrSetBits rd csr (s.reg rs1) s

/-- CSRRC (R247). -/
def execCsrrc (rd : Reg) (csr : CsrIndex) (rs1 : Reg) (s : State) : Result :=
  csrAccess csrClearBits rd csr (s.reg rs1) s

/-- CSRRWI (R248). -/
def execCsrrwi (rd : Reg) (csr : CsrIndex) (zimm : BitVec 5) (s : State) : Result :=
  csrAccess csrWrite rd csr (zext5 zimm) s

/-- CSRRSI (R249). -/
def execCsrrsi (rd : Reg) (csr : CsrIndex) (zimm : BitVec 5) (s : State) : Result :=
  csrAccess csrSetBits rd csr (zext5 zimm) s

/-- CSRRCI (R250). -/
def execCsrrci (rd : Reg) (csr : CsrIndex) (zimm : BitVec 5) (s : State) : Result :=
  csrAccess csrClearBits rd csr (zext5 zimm) s

end Sys2Proof.Machine
end

