-- ==== Sys2Proof/Machine/Step.lean ====
section
/-! DEFINITION. The step: one cycle of the core (10_state.md R40 to R47), and where a word is placed to be fetched. -/

namespace Sys2Proof.Machine

/-- One cycle (R47). The fetch's fault is taken before decode, an illegal word before execute (60_exceptions.md
R310). A fetch at the console pops its byte (R42), so what runs, runs in the state after the fetch. -/
def step (s : State) : Host.Outcome State Fault Refusal :=
  match fetch (beginCycle s) with
  | none => takeException .loadAccessFault (beginCycle s)
  | some (w, s') =>
    match decodeWord w with
    | .error _ => takeException .illegalInstruction s'
    | .ok i => exec i s'

/-- `s` with the instruction whose bits are `w` placed where `step` fetches next: at pc, if its four bytes lie in
RAM there, else at ENTRY with pc moved to it. -/
def State.withFetchWord (s : State) (nbits w : Nat) : State :=
  placeAtPc (BitVec.ofNat 32 (w % 2 ^ nbits)) s

end Sys2Proof.Machine
end

