-- ==== Sys2Proof/Machine/Interface.lean ====
section
/-! DEFINITION. What the host can do to the block between cycles (00_scope.md R6): reset, load an image, send console
input. A tick is `step`; the outputs cons_out and cons_rx_overflow are the fields consOut and console.overflow. -/

namespace Sys2Proof.Machine

/-- `reset` at any time between cycles, for any choice of the open parameters: every piece of state takes its reset
value but RAM, which reset does not change (70_reset_and_hazards.md R350, R351, R353); the host's queue and the bytes
already emitted are the host's (R351; log entry 5). -/
def State.applyReset (misa mvendorid mtvec : Word) (s : State) : State :=
  { State.resetWith misa mvendorid mtvec with mem := s.mem, hostIn := s.hostIn, consOut := s.consOut }

/-- Write a byte string into RAM from address `a` on. -/
def State.setRamImage (a : Nat) : List Byte → State → State
  | [], s => s
  | b :: rest, s => State.setRamImage (a + 1) rest (s.setRamByte a b)

/-- `load(image)` (R352): image byte k goes to RAM_BASE + k and nothing else changes; an image longer than RAM is
refused; `none` is an image that cannot be read. -/
def State.load (image : Option (List Byte)) (s : State) : Result :=
  match image with
  | none => .fault .imageUnreadable
  | some bytes =>
    if bytes.length ≤ Config.ramSize then .next (State.setRamImage Config.ramBase bytes s)
    else .refused .imageTooLong

/-- Host input arriving (20_memory.md R76): bytes appended to the host's queue. -/
def State.hostSends (bytes : List Byte) (s : State) : State := s.setConsole s.console (s.hostIn ++ bytes)

end Sys2Proof.Machine
end

