-- ==== Sys2Proof/Safety.lean ====
section
/-! DEFINITION. What the states of a run satisfy, and what counts as a program's end. -/

namespace Sys2Proof.Machine

/-- The invariant of the machine between cycles: x0's slot holds 0 (10_state.md R21, R22); the CSR file and RAM
keep their canonical forms, so that equal contents are equal data (R28; 20_memory.md R70); no exception is pending
(R37); the console's two buffers hold at most CONSOLE_BUF_CAP bytes together (20_memory.md R75) and no newline,
which is discarded when it closes a line (R77). -/
structure State.Inv (s : State) : Prop where
  x0Zero : s.regs[0] = 0#32
  csrsWf : CsrFile.wf s.csrs = true
  memWf : Memory.wf s.mem = true
  noneExc : s.exc = none
  consoleRoom : s.console.lineAcc.length + s.console.rxFifo.length ≤ Config.consoleBufCap
  noNewline : newline ∉ s.console.lineAcc ++ s.console.rxFifo

/-- The machine never stops (10_state.md R49); the usual end of a program is the self-loop `JAL x0, 0` =
0x0000_006F at pc (R49; 43_control.md R211). -/
def State.AtSelfLoop (s : State) : Prop :=
  inRam s.pc.toNat = true ∧ s.ramWord s.pc.toNat = 0x0000006F#32

/-- The step took an exception of cause `c` whose saved pc is `epc` (60_exceptions.md R302, R305). -/
def State.TookException (t : State) (c : Cause) (epc : Word) : Prop :=
  t.csr Csr.mcause = c.code ∧ t.csr Csr.mepc = epc ∧ t.pc = trapTarget (t.csr Csr.mtvec) c

end Sys2Proof.Machine
end

