-- ==== Sys2Proof/Certificates/Slice0/Obligations.lean ====
section
/-! DEFINITION. The statements, from the spec's numbered rules. Results are written in integer arithmetic and with the
spec's own numbers (addresses, CSR indices, codes, bit positions), not with the model's operations; every result
statement gives the whole next state through the model's readings of it (`Post`), so it is the frame as well. -/

namespace Sys2Proof.Claims

open Sys2Proof.Machine

/-! ## How a next state is described -/

/-- The whole of state `t`: every register, pc, every CSR, every RAM byte, the reservation, the console, the host's
queue, the bytes emitted; and no exception is pending. -/
structure Post (t : State) (reg : Reg → Word) (pc : Word) (csr : CsrIndex → Word) (ram : Nat → Byte)
    (resv : Reservation) (console : Console) (hostIn consOut : List Byte) : Prop where
  reg : ∀ r, t.reg r = reg r
  pc : t.pc = pc
  csr : ∀ n, t.csr n = csr n
  ram : ∀ a, t.ramByte a = ram a
  resv : t.resv = resv
  exc : t.exc = none
  console : t.console = console
  hostIn : t.hostIn = hostIn
  consOut : t.consOut = consOut

/-- The registers of `s` with `v` written to rd; a write to x0 is discarded (R22). -/
def wrote (s : State) (rd : Reg) (v : Word) (r : Reg) : Word := if r = rd ∧ r ≠ 0 then v else s.reg r

/-- The CSRs after a cycle's counter update, from their values `c` just before it (R330). -/
def afterCount (c : CsrIndex → Word) (n : CsrIndex) : Word :=
  if n = 0xB00#12 ∧ (c 0x306#12).getLsbD 0 = true then c n + 1#32
  else if n = 0xB02#12 ∧ (c 0x306#12).getLsbD 2 = true then c n + 1#32
  else c n

/-- The trap target of R306 in numbers. -/
def target (mtvec : Word) (code : Nat) : Word :=
  if mtvec.toNat % 4 = 0 then mtvec else BitVec.ofNat 32 (mtvec.toNat / 4 * 4 + code * 4)

/-- `t` is `s` after an exception with this code and this mepc, and after nothing else (R302, R303, R305). -/
def TrapPost (s t : State) (code : Nat) (epc : Word) : Prop :=
  Post t s.reg (target (s.csr 0x305#12) code)
    (fun n => if n = 0x341#12 then epc else if n = 0x342#12 then BitVec.ofNat 32 code
      else afterCount s.csr n)
    s.ramByte s.resv s.console s.hostIn s.consOut

/-- The instruction takes an exception with this code and this mepc. -/
def Traps (i : Instr) (s : State) (code : Nat) (epc : Word) : Prop :=
  ∃ t, exec i s = .next t ∧ TrapPost s t code epc

/-- The instruction completes having written `v` to rd and nothing else (R140, R170). -/
def RegResult (i : Instr) (s : State) (rd : Reg) (v : Word) : Prop :=
  ∃ t, exec i s = .next t ∧
    Post t (wrote s rd v) (s.pc + 4#32) (afterCount s.csr) s.ramByte s.resv s.console s.hostIn s.consOut

/-- The instruction ends at pc `pc'` having written no register and nothing else. -/
def PcResult (i : Instr) (s : State) (pc' : Word) : Prop :=
  ∃ t, exec i s = .next t ∧
    Post t s.reg pc' (afterCount s.csr) s.ramByte s.resv s.console s.hostIn s.consOut

/-- A jump: the link to rd, pc at the target, nothing else (R210). -/
def JumpResult (i : Instr) (s : State) (rd : Reg) (pc' : Word) : Prop :=
  ∃ t, exec i s = .next t ∧
    Post t (wrote s rd (s.pc + 4#32)) pc' (afterCount s.csr) s.ramByte s.resv s.console s.hostIn s.consOut

/-- A CSR access: rd gets the old value, the CSR gets `new` before the counter update (R244, R331). -/
def CsrResult (i : Instr) (s : State) (rd : Reg) (csr : CsrIndex) (new : Word) : Prop :=
  ∃ t, exec i s = .next t ∧
    Post t (wrote s rd (s.csr csr)) (s.pc + 4#32)
      (afterCount fun n => if n = csr then new else s.csr n)
      s.ramByte s.resv s.console s.hostIn s.consOut

/-! ## The bus in numbers -/

/-- The address is in RAM (R80). -/
abbrev InRange (a : Word) : Prop := 0x80000000 ≤ a.toNat ∧ a.toNat < 0x84000000

/-- The address is in RAM or is the console's (R63, R80). -/
abbrev Mapped (a : Word) : Prop := InRange a ∨ a = 0x10000000#32

/-- What a bus read at a mapped address returns: four bytes little-endian, or the console's byte (R60). -/
def busValue (s : State) (a : Word) : Word :=
  if InRange a then
    BitVec.ofNat 32 ((s.ramByte a.toNat).toNat + (s.ramByte (a.toNat + 1)).toNat * 2 ^ 8 +
      (s.ramByte (a.toNat + 2)).toNat * 2 ^ 16 + (s.ramByte (a.toNat + 3)).toNat * 2 ^ 24)
  else BitVec.ofNat 32 (consoleRead s).1.toNat

/-- The state after a bus read: a console read takes its byte (R60, R65). -/
def afterRead (s : State) (a : Word) : State := if InRange a then s else (consoleRead s).2

/-- The RAM bytes after the low `n` bytes of `v` are stored at `a`: byte k of `v` at a + k, inside RAM (R61, R72). -/
def ramWith (s : State) (a : Word) (n : Nat) (v : Word) (x : Nat) : Byte :=
  if InRange a ∧ a.toNat ≤ x ∧ x < a.toNat + n ∧ x < 0x84000000 then
    BitVec.ofNat 8 (v.toNat / 256 ^ (x - a.toNat))
  else s.ramByte x

/-- The bytes emitted after `v` is stored at `a`: its low byte if `a` is the console's (R61, R78). -/
def outWith (s : State) (a v : Word) : List Byte :=
  if a = 0x10000000#32 then s.consOut ++ [BitVec.ofNat 8 v.toNat] else s.consOut

/-- A load from `ea` with narrowing `f`: where mapped it completes, else it traps with code 5 and mepc = pc
(R190, R303). -/
def LoadResult (i : Instr) (s : State) (rd : Reg) (ea : Word) (f : Word → Word) : Prop :=
  (Mapped ea → ∃ t, exec i s = .next t ∧
    Post t (wrote s rd (f (busValue s ea))) (s.pc + 4#32) (afterCount s.csr) s.ramByte s.resv
      (afterRead s ea).console (afterRead s ea).hostIn s.consOut) ∧
  (¬ Mapped ea → Traps i s 5 s.pc)

/-- A store of the low `n` bytes of `v` at `ea`: where mapped it completes, else it traps with code 6 and mepc = pc
(R190, R303). -/
def StoreResult (i : Instr) (s : State) (ea : Word) (n : Nat) (v : Word) : Prop :=
  (Mapped ea → ∃ t, exec i s = .next t ∧
    Post t s.reg (s.pc + 4#32) (afterCount s.csr) (ramWith s ea n v) s.resv s.console s.hostIn
      (outWith s ea v)) ∧
  (¬ Mapped ea → Traps i s 6 s.pc)

/-- An AMO at `a` with operation `op` and operand `d` (R260, section 2 of 46_atomic.md). -/
def AmoResult (i : Instr) (s : State) (rd : Reg) (a d : Word) (op : Word → Word → Word) : Prop :=
  (Mapped a → ∃ t, exec i s = .next t ∧
    Post t (wrote s rd (busValue s a)) (s.pc + 4#32) (afterCount s.csr)
      (ramWith s a 4 (op (busValue s a) d)) s.resv (afterRead s a).console (afterRead s a).hostIn
      (outWith s a (op (busValue s a) d))) ∧
  (¬ Mapped a → Traps i s 5 s.pc)

/-! ## Words in numbers -/

/-- The word whose bits 31:20, 19:15, 14:12, 11:7 and 6:0 hold these numbers (R101). -/
def word (b31_20 b19_15 b14_12 b11_7 b6_0 : Nat) : Word :=
  BitVec.ofNat 32 (b31_20 * 2 ^ 20 + b19_15 * 2 ^ 15 + b14_12 * 2 ^ 12 + b11_7 * 2 ^ 7 + b6_0)

/-- R format (R102). -/
def wordR (funct7 : Nat) (rs2 rs1 : Reg) (funct3 : Nat) (rd : Reg) (opcode : Nat) : Word :=
  word (funct7 * 2 ^ 5 + rs2.val) rs1.val funct3 rd.val opcode

/-- I format (R102, R103). -/
def wordI (imm : BitVec 12) (rs1 : Reg) (funct3 : Nat) (rd : Reg) (opcode : Nat) : Word :=
  word imm.toNat rs1.val funct3 rd.val opcode

/-- S format (R102, R104). -/
def wordS (imm : BitVec 12) (rs2 rs1 : Reg) (funct3 : Nat) : Word :=
  word (imm.toNat / 2 ^ 5 * 2 ^ 5 + rs2.val) rs1.val funct3 (imm.toNat % 2 ^ 5) 0x23

/-- B format (R102, R105). -/
def wordB (offset : BitVec 13) (rs2 rs1 : Reg) (funct3 : Nat) : Word :=
  word ((offset.toNat / 2 ^ 12 * 2 ^ 6 + offset.toNat / 2 ^ 5 % 2 ^ 6) * 2 ^ 5 + rs2.val) rs1.val funct3
    (offset.toNat / 2 % 2 ^ 4 * 2 + offset.toNat / 2 ^ 11 % 2) 0x63

/-- U format (R102, R106). -/
def wordU (imm20 : BitVec 20) (rd : Reg) (opcode : Nat) : Word :=
  word (imm20.toNat / 2 ^ 8) (imm20.toNat / 2 ^ 3 % 2 ^ 5) (imm20.toNat % 2 ^ 3) rd.val opcode

/-- J format (R102, R107). -/
def wordJ (offset : BitVec 21) (rd : Reg) : Word :=
  word (offset.toNat / 2 ^ 20 * 2 ^ 11 + offset.toNat / 2 % 2 ^ 10 * 2 + offset.toNat / 2 ^ 11 % 2)
    (offset.toNat / 2 ^ 15 % 2 ^ 5) (offset.toNat / 2 ^ 12 % 2 ^ 3) rd.val 0x6F

/-- AMO form (R110). -/
def wordA (funct5 : Nat) (aq rl : Bool) (rd rs1 rs2 : Reg) : Word :=
  word ((funct5 * 4 + aq.toNat * 2 + rl.toNat) * 2 ^ 5 + rs2.val) rs1.val 2 rd.val 0x2F

/-- The word decodes to the instruction. -/
def Reads (w : Word) (i : Instr) : Prop := decodeWord w = .ok i

/-- The word is no instruction. -/
def NoInstr (w : Word) : Prop := ∃ e, decodeWord w = .error e

/-- The mask and match of the instruction's row in spec/opcode_table.json. -/
def row : Instr → Nat × Nat
  | .lui .. => (0x0000007F, 0x00000037)
  | .auipc .. => (0x0000007F, 0x00000017)
  | .addi .. => (0x0000707F, 0x00000013)
  | .slti .. => (0x0000707F, 0x00002013)
  | .sltiu .. => (0x0000707F, 0x00003013)
  | .xori .. => (0x0000707F, 0x00004013)
  | .ori .. => (0x0000707F, 0x00006013)
  | .andi .. => (0x0000707F, 0x00007013)
  | .slli .. => (0xFE00707F, 0x00001013)
  | .srli .. => (0xFE00707F, 0x00005013)
  | .srai .. => (0xFE00707F, 0x40005013)
  | .add .. => (0xFE00707F, 0x00000033)
  | .sub .. => (0xFE00707F, 0x40000033)
  | .sll .. => (0xFE00707F, 0x00001033)
  | .slt .. => (0xFE00707F, 0x00002033)
  | .sltu .. => (0xFE00707F, 0x00003033)
  | .xor .. => (0xFE00707F, 0x00004033)
  | .srl .. => (0xFE00707F, 0x00005033)
  | .sra .. => (0xFE00707F, 0x40005033)
  | .or .. => (0xFE00707F, 0x00006033)
  | .and .. => (0xFE00707F, 0x00007033)
  | .mul .. => (0xFE00707F, 0x02000033)
  | .mulh .. => (0xFE00707F, 0x02001033)
  | .mulhsu .. => (0xFE00707F, 0x02002033)
  | .mulhu .. => (0xFE00707F, 0x02003033)
  | .div .. => (0xFE00707F, 0x02004033)
  | .divu .. => (0xFE00707F, 0x02005033)
  | .rem .. => (0xFE00707F, 0x02006033)
  | .remu .. => (0xFE00707F, 0x02007033)
  | .lb .. => (0x0000707F, 0x00000003)
  | .lh .. => (0x0000707F, 0x00001003)
  | .lw .. => (0x0000707F, 0x00002003)
  | .lbu .. => (0x0000707F, 0x00004003)
  | .lhu .. => (0x0000707F, 0x00005003)
  | .sb .. => (0x0000707F, 0x00000023)
  | .sh .. => (0x0000707F, 0x00001023)
  | .sw .. => (0x0000707F, 0x00002023)
  | .jal .. => (0x0000007F, 0x0000006F)
  | .jalr .. => (0x0000707F, 0x00000067)
  | .beq .. => (0x0000707F, 0x00000063)
  | .bne .. => (0x0000707F, 0x00001063)
  | .blt .. => (0x0000707F, 0x00004063)
  | .bge .. => (0x0000707F, 0x00005063)
  | .bltu .. => (0x0000707F, 0x00006063)
  | .bgeu .. => (0x0000707F, 0x00007063)
  | .fence .. => (0x0000707F, 0x0000000F)
  | .fenceI .. => (0x0000707F, 0x0000100F)
  | .miscMemRsv01x .. => (0x0000607F, 0x0000200F)
  | .miscMemRsv1xx .. => (0x0000407F, 0x0000400F)
  | .ecall => (0xFFFFFFFF, 0x00000073)
  | .ebreak => (0xFFFFFFFF, 0x00100073)
  | .mret => (0xFFFFFFFF, 0x30200073)
  | .csrrw .. => (0x0000707F, 0x00001073)
  | .csrrs .. => (0x0000707F, 0x00002073)
  | .csrrc .. => (0x0000707F, 0x00003073)
  | .csrrwi .. => (0x0000707F, 0x00005073)
  | .csrrsi .. => (0x0000707F, 0x00006073)
  | .csrrci .. => (0x0000707F, 0x00007073)
  | .lrW .. => (0xF800707F, 0x1000202F)
  | .scW .. => (0xF800707F, 0x1800202F)
  | .amoswapW .. => (0xF800707F, 0x0800202F)
  | .amoaddW .. => (0xF800707F, 0x0000202F)
  | .amoxorW .. => (0xF800707F, 0x2000202F)
  | .amoandW .. => (0xF800707F, 0x6000202F)
  | .amoorW .. => (0xF800707F, 0x4000202F)
  | .amominW .. => (0xF800707F, 0x8000202F)
  | .amomaxW .. => (0xF800707F, 0xA000202F)
  | .amominuW .. => (0xF800707F, 0xC000202F)
  | .amomaxuW .. => (0xF800707F, 0xE000202F)

/-- The word matches the row: word & mask = match. -/
def InRow (w : Word) (i : Instr) : Prop :=
  w &&& BitVec.ofNat 32 (row i).1 = BitVec.ofNat 32 (row i).2

/-- R114's nine items, on the numbers in the word's fields. -/
def Listed (w : Word) : Prop :=
  let op := w.toNat % 2 ^ 7
  let f3 := w.toNat / 2 ^ 12 % 2 ^ 3
  let f7 := w.toNat / 2 ^ 25
  let f5 := w.toNat / 2 ^ 27
  (op ∉ [0x37, 0x17, 0x13, 0x33, 0x03, 0x23, 0x6F, 0x67, 0x63, 0x0F, 0x73, 0x2F]) ∨
  (op = 0x13 ∧ ((f3 = 1 ∧ f7 ≠ 0) ∨ (f3 = 5 ∧ f7 ≠ 0 ∧ f7 ≠ 0x20))) ∨
  (op = 0x33 ∧ ((f7 ≠ 0 ∧ f7 ≠ 0x20 ∧ f7 ≠ 1) ∨ (f7 = 0x20 ∧ f3 ≠ 0 ∧ f3 ≠ 5))) ∨
  (op = 0x03 ∧ (f3 = 3 ∨ f3 = 6 ∨ f3 = 7)) ∨
  (op = 0x23 ∧ 3 ≤ f3) ∨
  (op = 0x67 ∧ f3 ≠ 0) ∨
  (op = 0x63 ∧ (f3 = 2 ∨ f3 = 3)) ∨
  (op = 0x73 ∧ (f3 = 4 ∨ (f3 = 0 ∧ w.toNat ∉ [0x00000073, 0x00100073, 0x30200073]))) ∨
  (op = 0x2F ∧ (f3 ≠ 2 ∨ f5 ∉ [2, 3, 1, 0, 4, 12, 8, 16, 20, 24, 28]))

/-! ## What an instruction names -/

/-- The destination register field, for the instructions that write one. -/
def dest : Instr → Option Reg
  | .lui rd _ | .auipc rd _ | .addi rd _ _ | .slti rd _ _ | .sltiu rd _ _ | .xori rd _ _
  | .ori rd _ _ | .andi rd _ _ | .slli rd _ _ | .srli rd _ _ | .srai rd _ _ | .add rd _ _
  | .sub rd _ _ | .sll rd _ _ | .slt rd _ _ | .sltu rd _ _ | .xor rd _ _ | .srl rd _ _
  | .sra rd _ _ | .or rd _ _ | .and rd _ _ | .mul rd _ _ | .mulh rd _ _ | .mulhsu rd _ _
  | .mulhu rd _ _ | .div rd _ _ | .divu rd _ _ | .rem rd _ _ | .remu rd _ _ | .lb rd _ _
  | .lh rd _ _ | .lw rd _ _ | .lbu rd _ _ | .lhu rd _ _ | .jal rd _ | .jalr rd _ _
  | .csrrw rd _ _ | .csrrs rd _ _ | .csrrc rd _ _ | .csrrwi rd _ _ | .csrrsi rd _ _
  | .csrrci rd _ _ | .lrW _ _ rd _ _ | .scW _ _ rd _ _ | .amoswapW _ _ rd _ _
  | .amoaddW _ _ rd _ _ | .amoxorW _ _ rd _ _ | .amoandW _ _ rd _ _ | .amoorW _ _ rd _ _
  | .amominW _ _ rd _ _ | .amomaxW _ _ rd _ _ | .amominuW _ _ rd _ _
  | .amomaxuW _ _ rd _ _ => some rd
  | .sb .. | .sh .. | .sw .. | .beq .. | .bne .. | .blt .. | .bge .. | .bltu .. | .bgeu ..
  | .fence .. | .fenceI .. | .miscMemRsv01x .. | .miscMemRsv1xx .. | .ecall | .ebreak
  | .mret => none

/-- The address of the instruction's data access and the bytes it may store there (0 for a load), from the
registers (R190, R260). -/
def access (i : Instr) (s : State) : Option (Word × Nat) :=
  match i with
  | .lb _ rs1 imm | .lh _ rs1 imm | .lw _ rs1 imm | .lbu _ rs1 imm | .lhu _ rs1 imm =>
    some (s.reg rs1 + imm.signExtend 32, 0)
  | .sb rs1 _ imm => some (s.reg rs1 + imm.signExtend 32, 1)
  | .sh rs1 _ imm => some (s.reg rs1 + imm.signExtend 32, 2)
  | .sw rs1 _ imm => some (s.reg rs1 + imm.signExtend 32, 4)
  | .lrW _ _ _ rs1 _ => some (s.reg rs1, 0)
  | .scW _ _ _ rs1 _ | .amoswapW _ _ _ rs1 _ | .amoaddW _ _ _ rs1 _ | .amoxorW _ _ _ rs1 _
  | .amoandW _ _ _ rs1 _ | .amoorW _ _ _ rs1 _ | .amominW _ _ _ rs1 _ | .amomaxW _ _ _ rs1 _
  | .amominuW _ _ _ rs1 _ | .amomaxuW _ _ _ rs1 _ => some (s.reg rs1, 4)
  | .lui .. | .auipc .. | .addi .. | .slti .. | .sltiu .. | .xori .. | .ori .. | .andi ..
  | .slli .. | .srli .. | .srai .. | .add .. | .sub .. | .sll .. | .slt .. | .sltu .. | .xor ..
  | .srl .. | .sra .. | .or .. | .and .. | .mul .. | .mulh .. | .mulhsu .. | .mulhu .. | .div ..
  | .divu .. | .rem .. | .remu .. | .jal .. | .jalr .. | .beq .. | .bne .. | .blt .. | .bge ..
  | .bltu .. | .bgeu .. | .fence .. | .fenceI .. | .miscMemRsv01x .. | .miscMemRsv1xx .. | .ecall
  | .ebreak | .mret | .csrrw .. | .csrrs .. | .csrrc .. | .csrrwi .. | .csrrsi ..
  | .csrrci .. => none

/-- The CSR field, for the six CSR instructions. -/
def csrField : Instr → Option CsrIndex
  | .csrrw _ csr _ | .csrrs _ csr _ | .csrrc _ csr _ | .csrrwi _ csr _ | .csrrsi _ csr _
  | .csrrci _ csr _ => some csr
  | .lui .. | .auipc .. | .addi .. | .slti .. | .sltiu .. | .xori .. | .ori .. | .andi ..
  | .slli .. | .srli .. | .srai .. | .add .. | .sub .. | .sll .. | .slt .. | .sltu .. | .xor ..
  | .srl .. | .sra .. | .or .. | .and .. | .mul .. | .mulh .. | .mulhsu .. | .mulhu .. | .div ..
  | .divu .. | .rem .. | .remu .. | .lb .. | .lh .. | .lw .. | .lbu .. | .lhu .. | .sb .. | .sh ..
  | .sw .. | .jal .. | .jalr .. | .beq .. | .bne .. | .blt .. | .bge .. | .bltu .. | .bgeu ..
  | .fence .. | .fenceI .. | .miscMemRsv01x .. | .miscMemRsv1xx .. | .ecall | .ebreak | .mret
  | .lrW .. | .scW .. | .amoswapW .. | .amoaddW .. | .amoxorW .. | .amoandW .. | .amoorW ..
  | .amominW .. | .amomaxW .. | .amominuW .. | .amomaxuW .. => none

/-- Is it LR.W or SC.W? -/
def touchesReservation : Instr → Bool
  | .lrW .. | .scW .. => true
  | .lui .. | .auipc .. | .addi .. | .slti .. | .sltiu .. | .xori .. | .ori .. | .andi ..
  | .slli .. | .srli .. | .srai .. | .add .. | .sub .. | .sll .. | .slt .. | .sltu .. | .xor ..
  | .srl .. | .sra .. | .or .. | .and .. | .mul .. | .mulh .. | .mulhsu .. | .mulhu .. | .div ..
  | .divu .. | .rem .. | .remu .. | .lb .. | .lh .. | .lw .. | .lbu .. | .lhu .. | .sb .. | .sh ..
  | .sw .. | .jal .. | .jalr .. | .beq .. | .bne .. | .blt .. | .bge .. | .bltu .. | .bgeu ..
  | .fence .. | .fenceI .. | .miscMemRsv01x .. | .miscMemRsv1xx .. | .ecall | .ebreak | .mret
  | .csrrw .. | .csrrs .. | .csrrc .. | .csrrwi .. | .csrrsi .. | .csrrci .. | .amoswapW ..
  | .amoaddW .. | .amoxorW .. | .amoandW .. | .amoorW .. | .amominW .. | .amomaxW ..
  | .amominuW .. | .amomaxuW .. => false

/-- Where the instruction redirects control to, if it does: a taken branch, JAL, JALR, MRET (R26). -/
def redirects (i : Instr) (s : State) : Option Word :=
  match i with
  | .jal _ off => some (s.pc + off.signExtend 32)
  | .jalr _ rs1 imm => some (BitVec.ofNat 32 ((s.reg rs1 + imm.signExtend 32).toNat / 2 * 2))
  | .beq a b off => if s.reg a = s.reg b then some (s.pc + off.signExtend 32) else none
  | .bne a b off => if s.reg a = s.reg b then none else some (s.pc + off.signExtend 32)
  | .blt a b off => if (s.reg a).toInt < (s.reg b).toInt then some (s.pc + off.signExtend 32) else none
  | .bge a b off => if (s.reg a).toInt < (s.reg b).toInt then none else some (s.pc + off.signExtend 32)
  | .bltu a b off => if (s.reg a).toNat < (s.reg b).toNat then some (s.pc + off.signExtend 32) else none
  | .bgeu a b off => if (s.reg a).toNat < (s.reg b).toNat then none else some (s.pc + off.signExtend 32)
  | .mret => some (s.csr 0x341#12)
  | .lui .. | .auipc .. | .addi .. | .slti .. | .sltiu .. | .xori .. | .ori .. | .andi ..
  | .slli .. | .srli .. | .srai .. | .add .. | .sub .. | .sll .. | .slt .. | .sltu .. | .xor ..
  | .srl .. | .sra .. | .or .. | .and .. | .mul .. | .mulh .. | .mulhsu .. | .mulhu .. | .div ..
  | .divu .. | .rem .. | .remu .. | .lb .. | .lh .. | .lw .. | .lbu .. | .lhu .. | .sb .. | .sh ..
  | .sw .. | .fence .. | .fenceI .. | .miscMemRsv01x .. | .miscMemRsv1xx .. | .ecall | .ebreak
  | .csrrw .. | .csrrs .. | .csrrc .. | .csrrwi .. | .csrrsi .. | .csrrci .. | .lrW .. | .scW ..
  | .amoswapW .. | .amoaddW .. | .amoxorW .. | .amoandW .. | .amoorW .. | .amominW ..
  | .amomaxW .. | .amominuW .. | .amomaxuW .. => none

/-- The console and its queue seen from what a read must do (R77) when no closed line is buffered: the bytes of
the open line that are kept, of those held and those that arrive. -/
def kept (held arriving : List Byte) : List Byte := held ++ arriving.take (256 - held.length)

/-- Is a byte dropped? -/
def overflows (held arriving : List Byte) : Bool := decide (256 - held.length < arriving.length)

end Sys2Proof.Claims

open Sys2Proof Sys2Proof.Machine Sys2Proof.Claims

/-! ## Encoding -/

/-- Words written out from the formats of 30_encoding.md (and the spec's own examples) decode to the instruction they
stand for, one or more for each family. -/
def Obligations.DecodeReadsWrittenOutWords : Prop :=
  Reads 0x123450B7#32 (.lui 1 0x12345#20) ∧ Reads 0x67808113#32 (.addi 2 1 0x678#12) ∧
  Reads 0x4042D413#32 (.srai 8 5 4#5) ∧ Reads 0x40C58533#32 (.sub 10 11 12) ∧
  Reads 0x02C5A533#32 (.mulhsu 10 11 12) ∧ Reads 0xFFC3A303#32 (.lw 6 7 0xFFC#12) ∧
  Reads 0x005380A3#32 (.sb 7 5 1#12) ∧ Reads 0xFF1FF0EF#32 (.jal 1 0x1FFFF0#21) ∧
  Reads 0xFE62CCE3#32 (.blt 5 6 0x1FF8#13) ∧ Reads 0x8330000F#32 (.fence 8#4 3#4 3#4 0 0) ∧
  Reads 0x30200073#32 .mret ∧ Reads 0x3407F373#32 (.csrrci 6 0x340#12 15#5) ∧
  Reads 0x18C5A52F#32 (.scW false false 10 11 12) ∧ Reads 0x06C5A52F#32 (.amoaddW true true 10 11 12)

/-- No bit of an encoding is dropped: every well-formed instruction decodes from its own word, and from its bytes,
leaving the bytes after it (R100 to R113). -/
def Obligations.DecodeInvertsEncode : Prop :=
  ∀ (i : Instr) (rest : List Byte), i.wf = true →
    decodeWord (encode i) = .ok i ∧ decode (encodeBytes i ++ rest) = .ok (i, rest)

/-- One word for each decoded instruction: what a word decodes to is well formed and encodes to that word. The fields
and formats are those of R100 to R113; that the fields an instruction ignores (aq and rl, LR.W's rs2, every MISC-MEM
field) are operands of its constructor, so that they come back, is the model's choice (DEDUCED: log entry 15). Words
that differ only in such fields have one meaning (R110, R230, R262) and decode to different instructions here. -/
def Obligations.EncodeInvertsDecode : Prop :=
  ∀ (w : Word) (i : Instr), decodeWord w = .ok i → i.wf = true ∧ encode i = w

/-- Decoding agrees with opcode_table.json: a word decodes to an instruction exactly of the row it matches, and every
word that matches a row decodes (R113, R114). -/
def Obligations.DecodeAgreesWithTheOpcodeTable : Prop :=
  (∀ (w : Word) (i : Instr), decodeWord w = .ok i → InRow w i) ∧
  (∀ (w : Word) (j : Instr), InRow w j → ∃ i, decodeWord w = .ok i ∧ row i = row j)

/-- R114: the illegal words are exactly those listed, and a step that fetches one traps with code 2, mepc the word's
address, and changes nothing but what the trap writes (and the console byte its fetch took). -/
def Obligations.IllegalWords : Prop :=
  (∀ w : Word, NoInstr w ↔ Listed w) ∧
  (∀ s : State, Mapped s.pc → Listed (busValue s s.pc) →
    ∃ t, step s = .next t ∧ TrapPost (afterRead s s.pc) t 2 s.pc)

/-! ## The cycle -/

/-- A step runs the decoded instruction: when the four bytes at pc, or the console byte at pc, decode to `i`, the
step is `exec i` at the state the cycle begins with, after the fetch; and beginning the cycle changes no reading of
the state (R41, R42, R43, R47). -/
def Obligations.StepRunsTheDecodedInstruction : Prop :=
  (∀ (s : State) (i : Instr), InRange s.pc →
    decode [s.ramByte s.pc.toNat, s.ramByte (s.pc.toNat + 1), s.ramByte (s.pc.toNat + 2),
      s.ramByte (s.pc.toNat + 3)] = .ok (i, []) → step s = exec i (beginCycle s)) ∧
  (∀ (s : State) (i : Instr), s.pc = 0x10000000#32 →
    decodeWord (BitVec.ofNat 32 (consoleRead s).1.toNat) = .ok i →
      step s = exec i (consoleRead (beginCycle s)).2) ∧
  (∀ s : State, Post (beginCycle s) s.reg s.pc s.csr s.ramByte s.resv s.console s.hostIn s.consOut)

/-- A fetch at an address neither in RAM nor the console's traps with code 5 and mepc = pc, and nothing is decoded or
executed (R42, R44). -/
def Obligations.FetchFaultTraps : Prop :=
  ∀ s : State, ¬ Mapped s.pc → ∃ t, step s = .next t ∧ TrapPost s t 5 s.pc

/-- The machine never stops: every step, from every state, ends in a next state, and so does every instruction
(R49, R340, R371). -/
def Obligations.MachineNeverStops : Prop :=
  (∀ s : State, ∃ t, step s = .next t) ∧ (∀ (i : Instr) (s : State), ∃ t, exec i s = .next t)

/-- R26: at the end of a cycle pc is what the fetched instruction makes it (the target it redirected to, or else
pc + 4), or the target of the trap that was taken, whose code mcause then holds. -/
def Obligations.PcAfterACycle : Prop :=
  ∀ s t : State, step s = .next t →
    (∃ i, Mapped s.pc ∧ Reads (busValue s s.pc) i ∧ t.pc = (redirects i s).getD (s.pc + 4#32)) ∨
    (∃ code ∈ [2, 3, 5, 6, 10], t.pc = target (s.csr 0x305#12) code ∧
      t.csr 0x342#12 = BitVec.ofNat 32 code)

/-- The invariant holds right after reset, whatever the open parameters are (the canonical forms and x0's slot
are the model's: log entries 10, 11). -/
def Obligations.InvariantHoldsAtReset : Prop :=
  ∀ misa mvendorid mtvec : Word, (State.resetWith misa mvendorid mtvec).Inv

/-- Every step keeps the invariant: x0's slot 0, the CSR file and RAM in canonical form, no exception pending, the
console's buffers within 256 bytes and free of newlines (the canonical forms and x0's slot are the model's: log
entries 10, 11). -/
def Obligations.StepKeepsInvariant : Prop :=
  ∀ s t : State, s.Inv → step s = .next t → t.Inv

/-! ## Reset and the host -/

/-- R351: what reset leaves, for every choice of the open parameters, at power-up and from any state; reset changes
neither RAM nor the host's queue (a queue in the state is the model's: log entry 5). -/
def Obligations.ResetValues : Prop :=
  ∀ (misa mvendorid mtvec : Word) (s t : State),
    (t = State.resetWith misa mvendorid mtvec ∨ t = s.applyReset misa mvendorid mtvec) →
    (∀ r, t.reg r = 0#32) ∧ t.pc = 0x80000000#32 ∧
    (∀ n, t.csr n = if n = 0x301#12 then misa else if n = 0xF11#12 then mvendorid
      else if n = 0x305#12 then mtvec else 0#32) ∧
    t.resv = ⟨false, 0#32⟩ ∧ t.exc = none ∧ t.console = ⟨[], [], false⟩ ∧
    (t = s.applyReset misa mvendorid mtvec →
      (∀ a, t.ramByte a = s.ramByte a) ∧ t.hostIn = s.hostIn)

/-- R352: loading an image of at most RAM_SIZE bytes puts byte k at RAM_BASE + k and changes nothing else; a longer
image is refused; one that cannot be read is a fatal startup error. That a load may be made in any state is the
model's (log entry 13). -/
def Obligations.ImageLoad : Prop :=
  (∀ (image : List Byte) (s : State), image.length ≤ 0x04000000 →
    ∃ t, State.load (some image) s = .next t ∧
      (∀ k, (h : k < image.length) → t.ramByte (0x80000000 + k) = image[k]) ∧
      (∀ a, (a < 0x80000000 ∨ 0x80000000 + image.length ≤ a) → t.ramByte a = s.ramByte a) ∧
      (∀ r, t.reg r = s.reg r) ∧ t.pc = s.pc ∧ (∀ n, t.csr n = s.csr n) ∧ t.resv = s.resv ∧
      t.exc = s.exc ∧ t.console = s.console ∧ t.hostIn = s.hostIn ∧ t.consOut = s.consOut) ∧
  (∀ (image : List Byte) (s : State), 0x04000000 < image.length →
    State.load (some image) s = .refused .imageTooLong) ∧
  (∀ s : State, State.load none s = .fault .imageUnreadable)

/-- Host input is seen only by console reads: an instruction that does not access the console does the same whatever
has arrived, and what has arrived waits (R76; that it arrives between cycles is the model's: log entry 14). -/
def Obligations.HostInputWaits : Prop :=
  ∀ (i : Instr) (s t : State) (bytes : List Byte),
    (∀ n, access i s ≠ some (0x10000000#32, n)) → exec i s = .next t →
      exec i (s.hostSends bytes) = .next (t.hostSends bytes)

/-! ## The pieces of state -/

/-- R21, R22: every register reads back what was written to it, x0 reads 0 and a write to it has no effect; a
register write changes no other register. -/
def Obligations.RegisterFile : Prop :=
  ∀ (s : State) (r j : Reg) (v : Word),
    s.reg 0 = 0#32 ∧ s.setReg 0 v = s ∧
    (r ≠ 0 → (s.setReg r v).reg r = v) ∧ (j ≠ r → (s.setReg r v).reg j = s.reg j)

/-- The CSR file: each of the 4096 entries reads back every 32-bit value written to it, and a write to one changes no
other (R28). -/
def Obligations.CsrFileStoresEveryValue : Prop :=
  ∀ (s : State) (n m : CsrIndex) (v : Word),
    (s.setCsr n v).csr n = v ∧ (m ≠ n → (s.setCsr n v).csr m = s.csr m)

/-- R71, R72: a RAM byte reads back what was written; past the end of RAM a byte reads 0x00 and a write does
nothing. -/
def Obligations.RamBytes : Prop :=
  ∀ (s : State) (a x : Nat) (b : Byte),
    (0x80000000 ≤ a → a < 0x84000000 → (s.setRamByte a b).ramByte a = b) ∧
    (x ≠ a → (s.setRamByte a b).ramByte x = s.ramByte x) ∧
    (0x84000000 ≤ a → s.ramByte a = 0x00#8 ∧ s.setRamByte a b = s)

/-- R60: a bus read in RAM returns four bytes little-endian and changes nothing; at the console's address it returns
a console read's byte, zero-extended; anywhere else it faults. -/
def Obligations.BusReads : Prop :=
  ∀ (s : State) (a : Word),
    (InRange a → memRead a s = some (BitVec.ofNat 32 ((s.ramByte a.toNat).toNat +
      (s.ramByte (a.toNat + 1)).toNat * 2 ^ 8 + (s.ramByte (a.toNat + 2)).toNat * 2 ^ 16 +
      (s.ramByte (a.toNat + 3)).toNat * 2 ^ 24), s)) ∧
    (a = 0x10000000#32 →
      memRead a s = some (BitVec.ofNat 32 (consoleRead s).1.toNat, (consoleRead s).2)) ∧
    (¬ Mapped a → memRead a s = none)

/-- R61: a bus write of n bytes in RAM stores byte k of the value at a + k, inside RAM, and nothing else; at the
console's address it emits the low byte, whatever n is; anywhere else it faults. -/
def Obligations.BusWrites : Prop :=
  ∀ (s : State) (a v : Word) (n : Nat), n ∈ [1, 2, 4] →
    (Mapped a → ∃ t, memWrite a n v s = some t ∧ (∀ r, t.reg r = s.reg r) ∧ t.pc = s.pc ∧
      (∀ m, t.csr m = s.csr m) ∧ (∀ x, t.ramByte x = ramWith s a n v x) ∧ t.resv = s.resv ∧
      t.exc = s.exc ∧ t.console = s.console ∧ t.hostIn = s.hostIn ∧ t.consOut = outWith s a v) ∧
    (¬ Mapped a → memWrite a n v s = none)

/-- R77: a console read pops a buffered byte; else it takes host bytes up to the first newline: if the line then
holds a byte, the line is closed and its first byte returned; if it is empty, reading goes on after the newline;
with no newline the bytes join the open line and 0 is returned. Bytes past 256 are dropped and set the overflow
flag. -/
def Obligations.ConsoleReads : Prop :=
  (∀ (s : State) (b : Byte) (rest : List Byte), s.console.rxFifo = b :: rest →
    consoleRead s = (b, s.setConsole { s.console with rxFifo := rest } s.hostIn)) ∧
  (∀ (s : State) (line rest : List Byte) (b : Byte) (bs : List Byte), s.console.rxFifo = [] →
    s.hostIn = line ++ 0x0A#8 :: rest → 0x0A#8 ∉ line → kept s.console.lineAcc line = b :: bs →
    consoleRead s = (b, s.setConsole
      ⟨[], bs, s.console.overflow || overflows s.console.lineAcc line⟩ rest)) ∧
  (∀ (s : State) (rest : List Byte), s.console.rxFifo = [] → s.console.lineAcc = [] →
    s.hostIn = 0x0A#8 :: rest → consoleRead s = consoleRead (s.setConsole s.console rest)) ∧
  (∀ s : State, s.console.rxFifo = [] → 0x0A#8 ∉ s.hostIn →
    consoleRead s = (0x00#8, s.setConsole ⟨kept s.console.lineAcc s.hostIn, [],
      s.console.overflow || overflows s.console.lineAcc s.hostIn⟩ []))

/-- R330: the counter update adds 1 to mcycle when bit 0 of CSR 0x306 is set and to minstret when bit 2 is, modulo
2^32, and changes nothing else. -/
def Obligations.CounterUpdates : Prop :=
  ∀ s : State, (∀ n, (counterUpdate s).csr n = afterCount s.csr n) ∧
    (∀ r, (counterUpdate s).reg r = s.reg r) ∧ (counterUpdate s).pc = s.pc ∧
    (∀ a, (counterUpdate s).ramByte a = s.ramByte a) ∧ (counterUpdate s).resv = s.resv ∧
    (counterUpdate s).exc = s.exc ∧ (counterUpdate s).console = s.console ∧
    (counterUpdate s).hostIn = s.hostIn ∧ (counterUpdate s).consOut = s.consOut

/-- R306: direct mode goes to mtvec itself, for every cause; in vectored mode (MODE 1, 2 or 3) with base address B
the five causes go to B + 8, B + 12, B + 20, B + 24 and B + 40, modulo 2^32. -/
def Obligations.TrapTargets : Prop :=
  (∀ (mtvec : Word) (c : Cause), mtvec.toNat % 4 = 0 → trapTarget mtvec c = mtvec) ∧
  (∀ (mtvec base : Word), mtvec.toNat % 4 ≠ 0 → base.toNat = mtvec.toNat / 4 * 4 →
    trapTarget mtvec .illegalInstruction = base + 8#32 ∧ trapTarget mtvec .breakpoint = base + 12#32 ∧
    trapTarget mtvec .loadAccessFault = base + 20#32 ∧ trapTarget mtvec .storeAccessFault = base + 24#32 ∧
    trapTarget mtvec .environmentCall = base + 40#32)

/-! ## Integer computation -/

/-- R141, R142. -/
def Obligations.UpperImmediates : Prop :=
  ∀ (s : State) (rd : Reg) (imm20 : BitVec 20),
    (Reads (wordU imm20 rd 0x37) (.lui rd imm20) ∧
      RegResult (.lui rd imm20) s rd (BitVec.ofNat 32 (imm20.toNat * 2 ^ 12))) ∧
    (Reads (wordU imm20 rd 0x17) (.auipc rd imm20) ∧
      RegResult (.auipc rd imm20) s rd (BitVec.ofNat 32 (s.pc.toNat + imm20.toNat * 2 ^ 12)))

/-- R143 to R148. -/
def Obligations.RegisterImmediates : Prop :=
  ∀ (s : State) (rd rs1 : Reg) (imm : BitVec 12),
    (Reads (wordI imm rs1 0 rd 0x13) (.addi rd rs1 imm) ∧
      RegResult (.addi rd rs1 imm) s rd (BitVec.ofInt 32 ((s.reg rs1).toNat + imm.toInt))) ∧
    (Reads (wordI imm rs1 2 rd 0x13) (.slti rd rs1 imm) ∧
      RegResult (.slti rd rs1 imm) s rd (if (s.reg rs1).toInt < imm.toInt then 1#32 else 0#32)) ∧
    (Reads (wordI imm rs1 3 rd 0x13) (.sltiu rd rs1 imm) ∧
      RegResult (.sltiu rd rs1 imm) s rd
        (if ((s.reg rs1).toNat : Int) < imm.toInt % 2 ^ 32 then 1#32 else 0#32)) ∧
    (Reads (wordI imm rs1 4 rd 0x13) (.xori rd rs1 imm) ∧
      RegResult (.xori rd rs1 imm) s rd (s.reg rs1 ^^^ BitVec.ofInt 32 imm.toInt)) ∧
    (Reads (wordI imm rs1 6 rd 0x13) (.ori rd rs1 imm) ∧
      RegResult (.ori rd rs1 imm) s rd (s.reg rs1 ||| BitVec.ofInt 32 imm.toInt)) ∧
    (Reads (wordI imm rs1 7 rd 0x13) (.andi rd rs1 imm) ∧
      RegResult (.andi rd rs1 imm) s rd (s.reg rs1 &&& BitVec.ofInt 32 imm.toInt))

/-- R149 to R151; a shift-immediate word with another inst[31:25] is no instruction. -/
def Obligations.ShiftImmediates : Prop :=
  (∀ (s : State) (rd rs1 : Reg) (shamt : BitVec 5),
    (Reads (word shamt.toNat rs1.val 1 rd.val 0x13) (.slli rd rs1 shamt) ∧
      RegResult (.slli rd rs1 shamt) s rd (BitVec.ofNat 32 ((s.reg rs1).toNat * 2 ^ shamt.toNat))) ∧
    (Reads (word shamt.toNat rs1.val 5 rd.val 0x13) (.srli rd rs1 shamt) ∧
      RegResult (.srli rd rs1 shamt) s rd (BitVec.ofNat 32 ((s.reg rs1).toNat / 2 ^ shamt.toNat))) ∧
    (Reads (word (0x20 * 2 ^ 5 + shamt.toNat) rs1.val 5 rd.val 0x13) (.srai rd rs1 shamt) ∧
      RegResult (.srai rd rs1 shamt) s rd (BitVec.ofInt 32 ((s.reg rs1).toInt / 2 ^ shamt.toNat)))) ∧
  (∀ (funct7 : BitVec 7) (shamt rs1 rd : BitVec 5),
    (funct7 ≠ 0 → NoInstr (word (funct7.toNat * 2 ^ 5 + shamt.toNat) rs1.toNat 1 rd.toNat 0x13)) ∧
    (funct7 ≠ 0 → funct7 ≠ 0x20 →
      NoInstr (word (funct7.toNat * 2 ^ 5 + shamt.toNat) rs1.toNat 5 rd.toNat 0x13)))

/-- R152, R153, R155, R156, R157, R160, R161. -/
def Obligations.RegisterArithmetic : Prop :=
  ∀ (s : State) (rd rs1 rs2 : Reg),
    (Reads (wordR 0 rs2 rs1 0 rd 0x33) (.add rd rs1 rs2) ∧
      RegResult (.add rd rs1 rs2) s rd (BitVec.ofNat 32 ((s.reg rs1).toNat + (s.reg rs2).toNat))) ∧
    (Reads (wordR 0x20 rs2 rs1 0 rd 0x33) (.sub rd rs1 rs2) ∧
      RegResult (.sub rd rs1 rs2) s rd
        (BitVec.ofInt 32 (((s.reg rs1).toNat : Int) - ((s.reg rs2).toNat : Int)))) ∧
    (Reads (wordR 0 rs2 rs1 2 rd 0x33) (.slt rd rs1 rs2) ∧
      RegResult (.slt rd rs1 rs2) s rd
        (if (s.reg rs1).toInt < (s.reg rs2).toInt then 1#32 else 0#32)) ∧
    (Reads (wordR 0 rs2 rs1 3 rd 0x33) (.sltu rd rs1 rs2) ∧
      RegResult (.sltu rd rs1 rs2) s rd
        (if (s.reg rs1).toNat < (s.reg rs2).toNat then 1#32 else 0#32)) ∧
    (Reads (wordR 0 rs2 rs1 4 rd 0x33) (.xor rd rs1 rs2) ∧
      RegResult (.xor rd rs1 rs2) s rd (s.reg rs1 ^^^ s.reg rs2)) ∧
    (Reads (wordR 0 rs2 rs1 6 rd 0x33) (.or rd rs1 rs2) ∧
      RegResult (.or rd rs1 rs2) s rd (s.reg rs1 ||| s.reg rs2)) ∧
    (Reads (wordR 0 rs2 rs1 7 rd 0x33) (.and rd rs1 rs2) ∧
      RegResult (.and rd rs1 rs2) s rd (s.reg rs1 &&& s.reg rs2))

/-- R154, R158, R159: only the low five bits of rs2 count. -/
def Obligations.RegisterShifts : Prop :=
  ∀ (s : State) (rd rs1 rs2 : Reg),
    (Reads (wordR 0 rs2 rs1 1 rd 0x33) (.sll rd rs1 rs2) ∧
      RegResult (.sll rd rs1 rs2) s rd
        (BitVec.ofNat 32 ((s.reg rs1).toNat * 2 ^ ((s.reg rs2).toNat % 32)))) ∧
    (Reads (wordR 0 rs2 rs1 5 rd 0x33) (.srl rd rs1 rs2) ∧
      RegResult (.srl rd rs1 rs2) s rd
        (BitVec.ofNat 32 ((s.reg rs1).toNat / 2 ^ ((s.reg rs2).toNat % 32)))) ∧
    (Reads (wordR 0x20 rs2 rs1 5 rd 0x33) (.sra rd rs1 rs2) ∧
      RegResult (.sra rd rs1 rs2) s rd
        (BitVec.ofInt 32 ((s.reg rs1).toInt / 2 ^ ((s.reg rs2).toNat % 32))))

/-! ## Multiply and divide -/

/-- R171 to R174. -/
def Obligations.Multiplies : Prop :=
  ∀ (s : State) (rd rs1 rs2 : Reg),
    (Reads (wordR 1 rs2 rs1 0 rd 0x33) (.mul rd rs1 rs2) ∧
      RegResult (.mul rd rs1 rs2) s rd (BitVec.ofNat 32 ((s.reg rs1).toNat * (s.reg rs2).toNat))) ∧
    (Reads (wordR 1 rs2 rs1 1 rd 0x33) (.mulh rd rs1 rs2) ∧
      RegResult (.mulh rd rs1 rs2) s rd
        (BitVec.ofInt 32 ((s.reg rs1).toInt * (s.reg rs2).toInt / 2 ^ 32))) ∧
    (Reads (wordR 1 rs2 rs1 2 rd 0x33) (.mulhsu rd rs1 rs2) ∧
      RegResult (.mulhsu rd rs1 rs2) s rd
        (BitVec.ofInt 32 ((s.reg rs1).toInt * ((s.reg rs2).toNat : Int) / 2 ^ 32))) ∧
    (Reads (wordR 1 rs2 rs1 3 rd 0x33) (.mulhu rd rs1 rs2) ∧
      RegResult (.mulhu rd rs1 rs2) s rd
        (BitVec.ofNat 32 ((s.reg rs1).toNat * (s.reg rs2).toNat / 2 ^ 32)))

/-- R175 to R178: the quotient and remainder as exact integers, with the stated values by zero and on overflow. -/
def Obligations.Divides : Prop :=
  ∀ (s : State) (rd rs1 rs2 : Reg),
    let a := s.reg rs1
    let b := s.reg rs2
    (Reads (wordR 1 rs2 rs1 4 rd 0x33) (.div rd rs1 rs2) ∧
      ∃ q : Word, RegResult (.div rd rs1 rs2) s rd q ∧ (b.toInt = 0 → q = 0xFFFFFFFF#32) ∧
        (a.toInt = -2 ^ 31 → b.toInt = -1 → q = 0x80000000#32) ∧
        (b.toInt ≠ 0 → ¬ (a.toInt = -2 ^ 31 ∧ b.toInt = -1) → q.toInt = a.toInt.tdiv b.toInt)) ∧
    (Reads (wordR 1 rs2 rs1 5 rd 0x33) (.divu rd rs1 rs2) ∧
      ∃ q : Word, RegResult (.divu rd rs1 rs2) s rd q ∧ (b.toNat = 0 → q = 0xFFFFFFFF#32) ∧
        (b.toNat ≠ 0 → q.toNat = a.toNat / b.toNat)) ∧
    (Reads (wordR 1 rs2 rs1 6 rd 0x33) (.rem rd rs1 rs2) ∧
      ∃ q : Word, RegResult (.rem rd rs1 rs2) s rd q ∧ (b.toInt = 0 → q = a) ∧
        (a.toInt = -2 ^ 31 → b.toInt = -1 → q = 0#32) ∧
        (b.toInt ≠ 0 → ¬ (a.toInt = -2 ^ 31 ∧ b.toInt = -1) →
          q.toInt = a.toInt - b.toInt * a.toInt.tdiv b.toInt)) ∧
    (Reads (wordR 1 rs2 rs1 7 rd 0x33) (.remu rd rs1 rs2) ∧
      ∃ q : Word, RegResult (.remu rd rs1 rs2) s rd q ∧ (b.toNat = 0 → q = a) ∧
        (b.toNat ≠ 0 → q.toNat = a.toNat % b.toNat))

/-- The division law of R179: quotient times divisor plus remainder is the dividend modulo 2^32, for every pair of
operands, by zero and on overflow too, signed and unsigned. -/
def Obligations.DivisionIdentity : Prop :=
  ∀ (s : State) (rd rs1 rs2 : Reg) (q r : State), rd ≠ 0 →
    (exec (.div rd rs1 rs2) s = .next q → exec (.rem rd rs1 rs2) s = .next r →
      q.reg rd * s.reg rs2 + r.reg rd = s.reg rs1) ∧
    (exec (.divu rd rs1 rs2) s = .next q → exec (.remu rd rs1 rs2) s = .next r →
      q.reg rd * s.reg rs2 + r.reg rd = s.reg rs1)

/-! ## Loads and stores -/

/-- R191 to R195. -/
def Obligations.Loads : Prop :=
  ∀ (s : State) (rd rs1 : Reg) (imm : BitVec 12),
    let ea := BitVec.ofInt 32 ((s.reg rs1).toNat + imm.toInt)
    (Reads (wordI imm rs1 0 rd 0x03) (.lb rd rs1 imm) ∧
      LoadResult (.lb rd rs1 imm) s rd ea fun v => (BitVec.ofNat 8 v.toNat).signExtend 32) ∧
    (Reads (wordI imm rs1 1 rd 0x03) (.lh rd rs1 imm) ∧
      LoadResult (.lh rd rs1 imm) s rd ea fun v => (BitVec.ofNat 16 v.toNat).signExtend 32) ∧
    (Reads (wordI imm rs1 2 rd 0x03) (.lw rd rs1 imm) ∧
      LoadResult (.lw rd rs1 imm) s rd ea fun v => v) ∧
    (Reads (wordI imm rs1 4 rd 0x03) (.lbu rd rs1 imm) ∧
      LoadResult (.lbu rd rs1 imm) s rd ea fun v => BitVec.ofNat 32 (v.toNat % 2 ^ 8)) ∧
    (Reads (wordI imm rs1 5 rd 0x03) (.lhu rd rs1 imm) ∧
      LoadResult (.lhu rd rs1 imm) s rd ea fun v => BitVec.ofNat 32 (v.toNat % 2 ^ 16))

/-- R196 to R198. -/
def Obligations.Stores : Prop :=
  ∀ (s : State) (rs1 rs2 : Reg) (imm : BitVec 12),
    let ea := BitVec.ofInt 32 ((s.reg rs1).toNat + imm.toInt)
    (Reads (wordS imm rs2 rs1 0) (.sb rs1 rs2 imm) ∧
      StoreResult (.sb rs1 rs2 imm) s ea 1 (s.reg rs2)) ∧
    (Reads (wordS imm rs2 rs1 1) (.sh rs1 rs2 imm) ∧
      StoreResult (.sh rs1 rs2 imm) s ea 2 (s.reg rs2)) ∧
    (Reads (wordS imm rs2 rs1 2) (.sw rs1 rs2 imm) ∧
      StoreResult (.sw rs1 rs2 imm) s ea 4 (s.reg rs2))

/-- R199: in RAM, a store of width n at an address followed by the load of that width there returns the stored bits,
narrowed and extended as the load does, when a + n ≤ RAM_END. -/
def Obligations.StoreThenLoad : Prop :=
  ∀ (s t u : State) (rs1 rs2 rb rd : Reg) (imm imm' : BitVec 12), rd ≠ 0 →
    let a := s.reg rs1 + imm.signExtend 32
    InRange a → t.reg rb + imm'.signExtend 32 = a →
    (a.toNat + 1 ≤ 0x84000000 → exec (.sb rs1 rs2 imm) s = .next t →
      (exec (.lb rd rb imm') t = .next u → u.reg rd = (BitVec.ofNat 8 (s.reg rs2).toNat).signExtend 32) ∧
      (exec (.lbu rd rb imm') t = .next u → u.reg rd = BitVec.ofNat 32 ((s.reg rs2).toNat % 2 ^ 8))) ∧
    (a.toNat + 2 ≤ 0x84000000 → exec (.sh rs1 rs2 imm) s = .next t →
      (exec (.lh rd rb imm') t = .next u → u.reg rd = (BitVec.ofNat 16 (s.reg rs2).toNat).signExtend 32) ∧
      (exec (.lhu rd rb imm') t = .next u → u.reg rd = BitVec.ofNat 32 ((s.reg rs2).toNat % 2 ^ 16))) ∧
    (a.toNat + 4 ≤ 0x84000000 → exec (.sw rs1 rs2 imm) s = .next t →
      exec (.lw rd rb imm') t = .next u → u.reg rd = s.reg rs2)

/-- A store is seen by the very next fetch, with no fence: if SW stores an instruction's word where the next cycle
fetches, the next step runs that instruction (R89, R366). -/
def Obligations.StoreIsSeenByTheNextFetch : Prop :=
  ∀ (s t : State) (rs1 rs2 : Reg) (imm : BitVec 12) (i : Instr),
    exec (.sw rs1 rs2 imm) s = .next t → s.reg rs1 + imm.signExtend 32 = s.pc + 4#32 →
    0x80000000 ≤ (s.pc + 4#32).toNat → (s.pc + 4#32).toNat + 4 ≤ 0x84000000 →
    decodeWord (s.reg rs2) = .ok i → step t = exec i (beginCycle t)

/-! ## Control transfer -/

/-- R211, R212; a JALR word with another funct3 is no instruction. -/
def Obligations.Jumps : Prop :=
  (∀ (rd : Reg) (offset : BitVec 21), offset.toNat % 2 = 0 → Reads (wordJ offset rd) (.jal rd offset)) ∧
  (∀ (s : State) (rd : Reg) (offset : BitVec 21),
    JumpResult (.jal rd offset) s rd (BitVec.ofInt 32 (s.pc.toNat + offset.toInt))) ∧
  (∀ (s : State) (rd rs1 : Reg) (imm : BitVec 12),
    Reads (wordI imm rs1 0 rd 0x67) (.jalr rd rs1 imm) ∧
    JumpResult (.jalr rd rs1 imm) s rd
      (BitVec.ofInt 32 (((s.reg rs1).toNat + imm.toInt) / 2 * 2))) ∧
  (∀ (rd rs1 : Reg) (imm : BitVec 12) (funct3 : BitVec 3), funct3 ≠ 0 →
    NoInstr (wordI imm rs1 funct3.toNat rd 0x67))

/-- R213 to R218: taken to pc + offset when the condition holds, else pc + 4; no register is written. -/
def Obligations.Branches : Prop :=
  (∀ (rs1 rs2 : Reg) (offset : BitVec 13), offset.toNat % 2 = 0 →
    Reads (wordB offset rs2 rs1 0) (.beq rs1 rs2 offset) ∧
    Reads (wordB offset rs2 rs1 1) (.bne rs1 rs2 offset) ∧
    Reads (wordB offset rs2 rs1 4) (.blt rs1 rs2 offset) ∧
    Reads (wordB offset rs2 rs1 5) (.bge rs1 rs2 offset) ∧
    Reads (wordB offset rs2 rs1 6) (.bltu rs1 rs2 offset) ∧
    Reads (wordB offset rs2 rs1 7) (.bgeu rs1 rs2 offset)) ∧
  (∀ (s : State) (rs1 rs2 : Reg) (offset : BitVec 13),
    let a := s.reg rs1
    let b := s.reg rs2
    let taken := BitVec.ofInt 32 (s.pc.toNat + offset.toInt)
    let next := s.pc + 4#32
    PcResult (.beq rs1 rs2 offset) s (if a.toNat = b.toNat then taken else next) ∧
    PcResult (.bne rs1 rs2 offset) s (if a.toNat ≠ b.toNat then taken else next) ∧
    PcResult (.blt rs1 rs2 offset) s (if a.toInt < b.toInt then taken else next) ∧
    PcResult (.bge rs1 rs2 offset) s (if a.toInt ≥ b.toInt then taken else next) ∧
    PcResult (.bltu rs1 rs2 offset) s (if a.toNat < b.toNat then taken else next) ∧
    PcResult (.bgeu rs1 rs2 offset) s (if a.toNat ≥ b.toNat then taken else next))

/-- `JAL x0, 0` = 0x0000_006F at pc is a self-loop: the step leaves pc, every register, every RAM byte, the
reservation and the devices as they are; only the counters run (R49, R211). -/
def Obligations.SelfLoopStays : Prop :=
  ∀ s : State, s.AtSelfLoop → ∃ t, step s = .next t ∧
    Post t s.reg s.pc (afterCount s.csr) s.ramByte s.resv s.console s.hostIn s.consOut

/-! ## MISC-MEM -/

/-- R230 to R232: every MISC-MEM word, whatever its fields, only moves pc on. -/
def Obligations.MiscMemDoesNothing : Prop :=
  (∀ (s : State) (fm pred succ : BitVec 4) (rs1 rd : Reg),
    Reads (word (fm.toNat * 2 ^ 8 + pred.toNat * 2 ^ 4 + succ.toNat) rs1.val 0 rd.val 0x0F)
      (.fence fm pred succ rs1 rd) ∧
    PcResult (.fence fm pred succ rs1 rd) s (s.pc + 4#32)) ∧
  (∀ (s : State) (f : BitVec 12) (rs1 rd : Reg),
    Reads (wordI f rs1 1 rd 0x0F) (.fenceI f rs1 rd) ∧ PcResult (.fenceI f rs1 rd) s (s.pc + 4#32)) ∧
  (∀ (s : State) (funct3 : BitVec 3) (f : BitVec 12) (rs1 rd : Reg),
    (funct3 = 2#3 ∨ funct3 = 3#3 →
      Reads (wordI f rs1 funct3.toNat rd 0x0F) (.miscMemRsv01x funct3 f rs1 rd)) ∧
    (4 ≤ funct3.toNat →
      Reads (wordI f rs1 funct3.toNat rd 0x0F) (.miscMemRsv1xx funct3 f rs1 rd)) ∧
    PcResult (.miscMemRsv01x funct3 f rs1 rd) s (s.pc + 4#32) ∧
    PcResult (.miscMemRsv1xx funct3 f rs1 rd) s (s.pc + 4#32))

/-! ## System -/

/-- R241: exactly the word 0x0000_0073; cause 10, mepc = pc + 4. -/
def Obligations.EcallTraps : Prop :=
  (∀ w : Word, Reads w .ecall ↔ w = 0x00000073#32) ∧ (∀ s : State, Traps .ecall s 10 (s.pc + 4#32))

/-- R242: exactly the word 0x0010_0073; cause 3, mepc = pc. -/
def Obligations.EbreakTraps : Prop :=
  (∀ w : Word, Reads w .ebreak ↔ w = 0x00100073#32) ∧ (∀ s : State, Traps .ebreak s 3 s.pc)

/-- R243: exactly the word 0x3020_0073; pc from mepc, whatever it holds, and nothing else. -/
def Obligations.MretReturns : Prop :=
  (∀ w : Word, Reads w .mret ↔ w = 0x30200073#32) ∧
  (∀ s : State, PcResult .mret s (s.csr 0x341#12))

/-- R245 to R247, at every CSR index and every register. -/
def Obligations.CsrRegisterForms : Prop :=
  ∀ (s : State) (rd rs1 : Reg) (csr : CsrIndex),
    (Reads (wordI csr rs1 1 rd 0x73) (.csrrw rd csr rs1) ∧
      CsrResult (.csrrw rd csr rs1) s rd csr (s.reg rs1)) ∧
    (Reads (wordI csr rs1 2 rd 0x73) (.csrrs rd csr rs1) ∧
      CsrResult (.csrrs rd csr rs1) s rd csr (s.csr csr ||| s.reg rs1)) ∧
    (Reads (wordI csr rs1 3 rd 0x73) (.csrrc rd csr rs1) ∧
      CsrResult (.csrrc rd csr rs1) s rd csr (s.csr csr &&& ~~~ s.reg rs1))

/-- R248 to R250, at every CSR index and every zimm. -/
def Obligations.CsrImmediateForms : Prop :=
  ∀ (s : State) (rd : Reg) (csr : CsrIndex) (zimm : BitVec 5),
    (Reads (word csr.toNat zimm.toNat 5 rd.val 0x73) (.csrrwi rd csr zimm) ∧
      CsrResult (.csrrwi rd csr zimm) s rd csr (BitVec.ofNat 32 zimm.toNat)) ∧
    (Reads (word csr.toNat zimm.toNat 6 rd.val 0x73) (.csrrsi rd csr zimm) ∧
      CsrResult (.csrrsi rd csr zimm) s rd csr (s.csr csr ||| BitVec.ofNat 32 zimm.toNat)) ∧
    (Reads (word csr.toNat zimm.toNat 7 rd.val 0x73) (.csrrci rd csr zimm) ∧
      CsrResult (.csrrci rd csr zimm) s rd csr (s.csr csr &&& ~~~ BitVec.ofNat 32 zimm.toNat))

/-- In direct mode with mtvec at an unmapped address, a machine at that address faults there for ever: after any
number of steps pc is still there, with mcause 5 and mepc that address once a step is made (R308). -/
def Obligations.UnmappedHandlerLoops : Prop :=
  ∀ (s : State) (k : Nat), ¬ Mapped s.pc → s.csr 0x305#12 = s.pc → s.pc.toNat % 4 = 0 →
    ∃ t : State, Sys2Proof.core.run k s = .next t ∧ t.pc = s.pc ∧
      (0 < k → t.csr 0x342#12 = 5#32 ∧ t.csr 0x341#12 = s.pc)

/-! ## Atomics -/

/-- R262: the value read to rd, the reservation set to exactly x[rs1]; a faulting read traps with code 5 and leaves
everything, the reservation too. -/
def Obligations.LoadReserved : Prop :=
  ∀ (s : State) (aq rl : Bool) (rd rs1 rs2 : Reg),
    let a := s.reg rs1
    Reads (wordA 2 aq rl rd rs1 rs2) (.lrW aq rl rd rs1 rs2) ∧
    (Mapped a → ∃ t, exec (.lrW aq rl rd rs1 rs2) s = .next t ∧
      Post t (wrote s rd (busValue s a)) (s.pc + 4#32) (afterCount s.csr) s.ramByte ⟨true, a⟩
        (afterRead s a).console (afterRead s a).hostIn s.consOut) ∧
    (¬ Mapped a → Traps (.lrW aq rl rd rs1 rs2) s 5 s.pc)

/-- R263: with the reservation valid at exactly x[rs1] the store is made and rd gets 0; else nothing is stored and rd
gets 1; the reservation is cleared either way; a faulting read traps with code 5 and clears nothing. -/
def Obligations.StoreConditional : Prop :=
  ∀ (s : State) (aq rl : Bool) (rd rs1 rs2 : Reg),
    let a := s.reg rs1
    let d := s.reg rs2
    let i := Instr.scW aq rl rd rs1 rs2
    Reads (wordA 3 aq rl rd rs1 rs2) i ∧
    (Mapped a → s.resv.valid = true ∧ s.resv.addr = a → ∃ t, exec i s = .next t ∧
      Post t (wrote s rd 0#32) (s.pc + 4#32) (afterCount s.csr) (ramWith s a 4 d) ⟨false, s.resv.addr⟩
        (afterRead s a).console (afterRead s a).hostIn (outWith s a d)) ∧
    (Mapped a → ¬ (s.resv.valid = true ∧ s.resv.addr = a) → ∃ t, exec i s = .next t ∧
      Post t (wrote s rd 1#32) (s.pc + 4#32) (afterCount s.csr) s.ramByte ⟨false, s.resv.addr⟩
        (afterRead s a).console (afterRead s a).hostIn s.consOut) ∧
    (¬ Mapped a → Traps i s 5 s.pc)

/-- R264 to R268. -/
def Obligations.AtomicSwapAddAndLogic : Prop :=
  ∀ (s : State) (aq rl : Bool) (rd rs1 rs2 : Reg),
    let a := s.reg rs1
    let d := s.reg rs2
    (Reads (wordA 1 aq rl rd rs1 rs2) (.amoswapW aq rl rd rs1 rs2) ∧
      AmoResult (.amoswapW aq rl rd rs1 rs2) s rd a d fun _ x => x) ∧
    (Reads (wordA 0 aq rl rd rs1 rs2) (.amoaddW aq rl rd rs1 rs2) ∧
      AmoResult (.amoaddW aq rl rd rs1 rs2) s rd a d fun v x => BitVec.ofNat 32 (v.toNat + x.toNat)) ∧
    (Reads (wordA 4 aq rl rd rs1 rs2) (.amoxorW aq rl rd rs1 rs2) ∧
      AmoResult (.amoxorW aq rl rd rs1 rs2) s rd a d fun v x => v ^^^ x) ∧
    (Reads (wordA 12 aq rl rd rs1 rs2) (.amoandW aq rl rd rs1 rs2) ∧
      AmoResult (.amoandW aq rl rd rs1 rs2) s rd a d fun v x => v &&& x) ∧
    (Reads (wordA 8 aq rl rd rs1 rs2) (.amoorW aq rl rd rs1 rs2) ∧
      AmoResult (.amoorW aq rl rd rs1 rs2) s rd a d fun v x => v ||| x)

/-- R269 to R272. -/
def Obligations.AtomicMinimumAndMaximum : Prop :=
  ∀ (s : State) (aq rl : Bool) (rd rs1 rs2 : Reg),
    let a := s.reg rs1
    let d := s.reg rs2
    (Reads (wordA 16 aq rl rd rs1 rs2) (.amominW aq rl rd rs1 rs2) ∧
      AmoResult (.amominW aq rl rd rs1 rs2) s rd a d fun v x => if v.toInt ≤ x.toInt then v else x) ∧
    (Reads (wordA 20 aq rl rd rs1 rs2) (.amomaxW aq rl rd rs1 rs2) ∧
      AmoResult (.amomaxW aq rl rd rs1 rs2) s rd a d fun v x => if v.toInt ≥ x.toInt then v else x) ∧
    (Reads (wordA 24 aq rl rd rs1 rs2) (.amominuW aq rl rd rs1 rs2) ∧
      AmoResult (.amominuW aq rl rd rs1 rs2) s rd a d fun v x => if v.toNat ≤ x.toNat then v else x) ∧
    (Reads (wordA 28 aq rl rd rs1 rs2) (.amomaxuW aq rl rd rs1 rs2) ∧
      AmoResult (.amomaxuW aq rl rd rs1 rs2) s rd a d fun v x => if v.toNat ≥ x.toNat then v else x)

/-- The reservation's rules over all instructions (R36, R88): only LR.W and SC.W touch it; so an SC.W to the address
of an LR.W succeeds whatever one other instruction runs between them that keeps that address register. -/
def Obligations.OnlyLrAndScTouchTheReservation : Prop :=
  (∀ (i : Instr) (s t : State), touchesReservation i = false → exec i s = .next t → t.resv = s.resv) ∧
  (∀ (s t u v : State) (aq rl aq' rl' : Bool) (rd rs1 rs2 rd' rs2' : Reg) (i : Instr), rd' ≠ 0 →
    exec (.lrW aq rl rd rs1 rs2) s = .next t → Mapped (s.reg rs1) →
    touchesReservation i = false → exec i t = .next u → u.reg rs1 = s.reg rs1 →
    exec (.scW aq' rl' rd' rs1 rs2') u = .next v → v.reg rd' = 0#32)

/-! ## Whole-machine frames -/

/-- An instruction changes no register but its rd, and none when it has no rd (R43). -/
def Obligations.RegistersChangeOnlyAtTheDestination : Prop :=
  ∀ (i : Instr) (s t : State) (r : Reg), exec i s = .next t → dest i ≠ some r → t.reg r = s.reg r

/-- An instruction changes no byte of RAM but those from its access address on, as many as it may store: none for an
instruction that stores nothing (R43, R68, R70). -/
def Obligations.RamChangesOnlyWhereStored : Prop :=
  ∀ (i : Instr) (s t : State) (x : Nat), exec i s = .next t →
    (∀ a n, access i s = some (a, n) → ¬ (a.toNat ≤ x ∧ x < a.toNat + n)) → t.ramByte x = s.ramByte x

/-- An instruction changes no CSR but the one its CSR field names, the counters 0xB00 and 0xB02, and on a trap mepc
and mcause (R28, R305, R330). -/
def Obligations.CsrsChangeOnlyWhereWritten : Prop :=
  ∀ (i : Instr) (s t : State) (n : CsrIndex), exec i s = .next t → csrField i ≠ some n →
    n ∉ [0x341#12, 0x342#12, 0xB00#12, 0xB02#12] → t.csr n = s.csr n

/-- The console, the host's queue and the output change only by an access at the console's address (R63, R79). -/
def Obligations.ConsoleChangesOnlyByItsAccesses : Prop :=
  ∀ (i : Instr) (s t : State), exec i s = .next t → (∀ n, access i s ≠ some (0x10000000#32, n)) →
    t.console = s.console ∧ t.hostIn = s.hostIn ∧ t.consOut = s.consOut
end

