-- ==== Sys2Proof/Laws/Decode.lean ====
section
/-! SUPPORT. Every field of every format reads back what the encoder put there (30_encoding.md R101 to R111). -/

namespace Sys2Proof

/-- A 5-bit field that holds a register number's bits reads as that register. -/
theorem toFin_eq_of_eq_regBits {x : BitVec 5} {r : Reg} (h : x = regBits r) : (x.toFin : Reg) = r := by
  subst h; rfl

/-! ## encodeR -/

@[simp] theorem opcodeOf_encodeR (f7 : BitVec 7) (rs2 rs1 : Reg) (f3 : BitVec 3) (rd : Reg) (op : BitVec 7) :
    opcodeOf (encodeR f7 rs2 rs1 f3 rd op) = op := by
  apply BitVec.eq_of_getLsbD_eq; intro i hi
  simp only [opcodeOf, encodeR, BitVec.getLsbD_append, BitVec.getLsbD_extractLsb']
  interval_cases i <;> simp
@[simp] theorem rdOf_encodeR (f7 : BitVec 7) (rs2 rs1 : Reg) (f3 : BitVec 3) (rd : Reg) (op : BitVec 7) :
    rdOf (encodeR f7 rs2 rs1 f3 rd op) = rd := by
  apply toFin_eq_of_eq_regBits; apply BitVec.eq_of_getLsbD_eq; intro i hi
  simp only [encodeR, BitVec.getLsbD_append, BitVec.getLsbD_extractLsb']
  interval_cases i <;> simp
@[simp] theorem funct3Of_encodeR (f7 : BitVec 7) (rs2 rs1 : Reg) (f3 : BitVec 3) (rd : Reg) (op : BitVec 7) :
    funct3Of (encodeR f7 rs2 rs1 f3 rd op) = f3 := by
  apply BitVec.eq_of_getLsbD_eq; intro i hi
  simp only [funct3Of, encodeR, BitVec.getLsbD_append, BitVec.getLsbD_extractLsb']
  interval_cases i <;> simp
@[simp] theorem rs1Of_encodeR (f7 : BitVec 7) (rs2 rs1 : Reg) (f3 : BitVec 3) (rd : Reg) (op : BitVec 7) :
    rs1Of (encodeR f7 rs2 rs1 f3 rd op) = rs1 := by
  apply toFin_eq_of_eq_regBits; apply BitVec.eq_of_getLsbD_eq; intro i hi
  simp only [encodeR, BitVec.getLsbD_append, BitVec.getLsbD_extractLsb']
  interval_cases i <;> simp
@[simp] theorem rs2Of_encodeR (f7 : BitVec 7) (rs2 rs1 : Reg) (f3 : BitVec 3) (rd : Reg) (op : BitVec 7) :
    rs2Of (encodeR f7 rs2 rs1 f3 rd op) = rs2 := by
  apply toFin_eq_of_eq_regBits; apply BitVec.eq_of_getLsbD_eq; intro i hi
  simp only [encodeR, BitVec.getLsbD_append, BitVec.getLsbD_extractLsb']
  interval_cases i <;> simp
@[simp] theorem funct7Of_encodeR (f7 : BitVec 7) (rs2 rs1 : Reg) (f3 : BitVec 3) (rd : Reg) (op : BitVec 7) :
    funct7Of (encodeR f7 rs2 rs1 f3 rd op) = f7 := by
  apply BitVec.eq_of_getLsbD_eq; intro i hi
  simp only [funct7Of, encodeR, BitVec.getLsbD_append, BitVec.getLsbD_extractLsb']
  interval_cases i <;> simp

/-! ## encodeI -/

@[simp] theorem opcodeOf_encodeI (imm : BitVec 12) (rs1 : Reg) (f3 : BitVec 3) (rd : Reg) (op : BitVec 7) :
    opcodeOf (encodeI imm rs1 f3 rd op) = op := by
  apply BitVec.eq_of_getLsbD_eq; intro i hi
  simp only [opcodeOf, encodeI, BitVec.getLsbD_append, BitVec.getLsbD_extractLsb']
  interval_cases i <;> simp
@[simp] theorem rdOf_encodeI (imm : BitVec 12) (rs1 : Reg) (f3 : BitVec 3) (rd : Reg) (op : BitVec 7) :
    rdOf (encodeI imm rs1 f3 rd op) = rd := by
  apply toFin_eq_of_eq_regBits; apply BitVec.eq_of_getLsbD_eq; intro i hi
  simp only [encodeI, BitVec.getLsbD_append, BitVec.getLsbD_extractLsb']
  interval_cases i <;> simp
@[simp] theorem funct3Of_encodeI (imm : BitVec 12) (rs1 : Reg) (f3 : BitVec 3) (rd : Reg) (op : BitVec 7) :
    funct3Of (encodeI imm rs1 f3 rd op) = f3 := by
  apply BitVec.eq_of_getLsbD_eq; intro i hi
  simp only [funct3Of, encodeI, BitVec.getLsbD_append, BitVec.getLsbD_extractLsb']
  interval_cases i <;> simp
@[simp] theorem rs1Of_encodeI (imm : BitVec 12) (rs1 : Reg) (f3 : BitVec 3) (rd : Reg) (op : BitVec 7) :
    rs1Of (encodeI imm rs1 f3 rd op) = rs1 := by
  apply toFin_eq_of_eq_regBits; apply BitVec.eq_of_getLsbD_eq; intro i hi
  simp only [encodeI, BitVec.getLsbD_append, BitVec.getLsbD_extractLsb']
  interval_cases i <;> simp
@[simp] theorem immIOf_encodeI (imm : BitVec 12) (rs1 : Reg) (f3 : BitVec 3) (rd : Reg) (op : BitVec 7) :
    immIOf (encodeI imm rs1 f3 rd op) = imm := by
  apply BitVec.eq_of_getLsbD_eq; intro i hi
  simp only [immIOf, encodeI, BitVec.getLsbD_append, BitVec.getLsbD_extractLsb']
  interval_cases i <;> simp
@[simp] theorem csrOf_encodeI (imm : BitVec 12) (rs1 : Reg) (f3 : BitVec 3) (rd : Reg) (op : BitVec 7) :
    csrOf (encodeI imm rs1 f3 rd op) = imm := by
  apply BitVec.eq_of_getLsbD_eq; intro i hi
  simp only [csrOf, encodeI, BitVec.getLsbD_append, BitVec.getLsbD_extractLsb']
  interval_cases i <;> simp

/-! ## encodeShift -/

@[simp] theorem opcodeOf_encodeShift (f7 : BitVec 7) (sh : BitVec 5) (rs1 : Reg) (f3 : BitVec 3) (rd : Reg) :
    opcodeOf (encodeShift f7 sh rs1 f3 rd) = 0b0010011#7 := by
  apply BitVec.eq_of_getLsbD_eq; intro i hi
  simp only [opcodeOf, encodeShift, BitVec.getLsbD_append, BitVec.getLsbD_extractLsb']
  interval_cases i <;> simp
@[simp] theorem rdOf_encodeShift (f7 : BitVec 7) (sh : BitVec 5) (rs1 : Reg) (f3 : BitVec 3) (rd : Reg) :
    rdOf (encodeShift f7 sh rs1 f3 rd) = rd := by
  apply toFin_eq_of_eq_regBits; apply BitVec.eq_of_getLsbD_eq; intro i hi
  simp only [encodeShift, BitVec.getLsbD_append, BitVec.getLsbD_extractLsb']
  interval_cases i <;> simp
@[simp] theorem funct3Of_encodeShift (f7 : BitVec 7) (sh : BitVec 5) (rs1 : Reg) (f3 : BitVec 3) (rd : Reg) :
    funct3Of (encodeShift f7 sh rs1 f3 rd) = f3 := by
  apply BitVec.eq_of_getLsbD_eq; intro i hi
  simp only [funct3Of, encodeShift, BitVec.getLsbD_append, BitVec.getLsbD_extractLsb']
  interval_cases i <;> simp
@[simp] theorem rs1Of_encodeShift (f7 : BitVec 7) (sh : BitVec 5) (rs1 : Reg) (f3 : BitVec 3) (rd : Reg) :
    rs1Of (encodeShift f7 sh rs1 f3 rd) = rs1 := by
  apply toFin_eq_of_eq_regBits; apply BitVec.eq_of_getLsbD_eq; intro i hi
  simp only [encodeShift, BitVec.getLsbD_append, BitVec.getLsbD_extractLsb']
  interval_cases i <;> simp
@[simp] theorem shamtOf_encodeShift (f7 : BitVec 7) (sh : BitVec 5) (rs1 : Reg) (f3 : BitVec 3) (rd : Reg) :
    shamtOf (encodeShift f7 sh rs1 f3 rd) = sh := by
  apply BitVec.eq_of_getLsbD_eq; intro i hi
  simp only [shamtOf, encodeShift, BitVec.getLsbD_append, BitVec.getLsbD_extractLsb']
  interval_cases i <;> simp
@[simp] theorem funct7Of_encodeShift (f7 : BitVec 7) (sh : BitVec 5) (rs1 : Reg) (f3 : BitVec 3) (rd : Reg) :
    funct7Of (encodeShift f7 sh rs1 f3 rd) = f7 := by
  apply BitVec.eq_of_getLsbD_eq; intro i hi
  simp only [funct7Of, encodeShift, BitVec.getLsbD_append, BitVec.getLsbD_extractLsb']
  interval_cases i <;> simp

/-! ## encodeCsrI -/

@[simp] theorem opcodeOf_encodeCsrI (csr : CsrIndex) (z : BitVec 5) (f3 : BitVec 3) (rd : Reg) :
    opcodeOf (encodeCsrI csr z f3 rd) = 0b1110011#7 := by
  apply BitVec.eq_of_getLsbD_eq; intro i hi
  simp only [opcodeOf, encodeCsrI, BitVec.getLsbD_append, BitVec.getLsbD_extractLsb']
  interval_cases i <;> simp
@[simp] theorem rdOf_encodeCsrI (csr : CsrIndex) (z : BitVec 5) (f3 : BitVec 3) (rd : Reg) :
    rdOf (encodeCsrI csr z f3 rd) = rd := by
  apply toFin_eq_of_eq_regBits; apply BitVec.eq_of_getLsbD_eq; intro i hi
  simp only [encodeCsrI, BitVec.getLsbD_append, BitVec.getLsbD_extractLsb']
  interval_cases i <;> simp
@[simp] theorem funct3Of_encodeCsrI (csr : CsrIndex) (z : BitVec 5) (f3 : BitVec 3) (rd : Reg) :
    funct3Of (encodeCsrI csr z f3 rd) = f3 := by
  apply BitVec.eq_of_getLsbD_eq; intro i hi
  simp only [funct3Of, encodeCsrI, BitVec.getLsbD_append, BitVec.getLsbD_extractLsb']
  interval_cases i <;> simp
@[simp] theorem zimmOf_encodeCsrI (csr : CsrIndex) (z : BitVec 5) (f3 : BitVec 3) (rd : Reg) :
    zimmOf (encodeCsrI csr z f3 rd) = z := by
  apply BitVec.eq_of_getLsbD_eq; intro i hi
  simp only [zimmOf, encodeCsrI, BitVec.getLsbD_append, BitVec.getLsbD_extractLsb']
  interval_cases i <;> simp
@[simp] theorem csrOf_encodeCsrI (csr : CsrIndex) (z : BitVec 5) (f3 : BitVec 3) (rd : Reg) :
    csrOf (encodeCsrI csr z f3 rd) = csr := by
  apply BitVec.eq_of_getLsbD_eq; intro i hi
  simp only [csrOf, encodeCsrI, BitVec.getLsbD_append, BitVec.getLsbD_extractLsb']
  interval_cases i <;> simp

/-! ## encodeS -/

@[simp] theorem opcodeOf_encodeS (imm : BitVec 12) (rs2 rs1 : Reg) (f3 : BitVec 3) :
    opcodeOf (encodeS imm rs2 rs1 f3) = 0b0100011#7 := by
  apply BitVec.eq_of_getLsbD_eq; intro i hi
  simp only [opcodeOf, encodeS, BitVec.getLsbD_append, BitVec.getLsbD_extractLsb']
  interval_cases i <;> simp
@[simp] theorem funct3Of_encodeS (imm : BitVec 12) (rs2 rs1 : Reg) (f3 : BitVec 3) :
    funct3Of (encodeS imm rs2 rs1 f3) = f3 := by
  apply BitVec.eq_of_getLsbD_eq; intro i hi
  simp only [funct3Of, encodeS, BitVec.getLsbD_append, BitVec.getLsbD_extractLsb']
  interval_cases i <;> simp
@[simp] theorem rs1Of_encodeS (imm : BitVec 12) (rs2 rs1 : Reg) (f3 : BitVec 3) :
    rs1Of (encodeS imm rs2 rs1 f3) = rs1 := by
  apply toFin_eq_of_eq_regBits; apply BitVec.eq_of_getLsbD_eq; intro i hi
  simp only [encodeS, BitVec.getLsbD_append, BitVec.getLsbD_extractLsb']
  interval_cases i <;> simp
@[simp] theorem rs2Of_encodeS (imm : BitVec 12) (rs2 rs1 : Reg) (f3 : BitVec 3) :
    rs2Of (encodeS imm rs2 rs1 f3) = rs2 := by
  apply toFin_eq_of_eq_regBits; apply BitVec.eq_of_getLsbD_eq; intro i hi
  simp only [encodeS, BitVec.getLsbD_append, BitVec.getLsbD_extractLsb']
  interval_cases i <;> simp
@[simp] theorem immSOf_encodeS (imm : BitVec 12) (rs2 rs1 : Reg) (f3 : BitVec 3) :
    immSOf (encodeS imm rs2 rs1 f3) = imm := by
  apply BitVec.eq_of_getLsbD_eq; intro i hi
  simp only [immSOf, encodeS, BitVec.getLsbD_append, BitVec.getLsbD_extractLsb']
  interval_cases i <;> simp

/-! ## encodeB -/

@[simp] theorem opcodeOf_encodeB (off : BitVec 13) (rs2 rs1 : Reg) (f3 : BitVec 3) :
    opcodeOf (encodeB off rs2 rs1 f3) = 0b1100011#7 := by
  apply BitVec.eq_of_getLsbD_eq; intro i hi
  simp only [opcodeOf, encodeB, BitVec.getLsbD_append, BitVec.getLsbD_extractLsb']
  interval_cases i <;> simp
@[simp] theorem funct3Of_encodeB (off : BitVec 13) (rs2 rs1 : Reg) (f3 : BitVec 3) :
    funct3Of (encodeB off rs2 rs1 f3) = f3 := by
  apply BitVec.eq_of_getLsbD_eq; intro i hi
  simp only [funct3Of, encodeB, BitVec.getLsbD_append, BitVec.getLsbD_extractLsb']
  interval_cases i <;> simp
@[simp] theorem rs1Of_encodeB (off : BitVec 13) (rs2 rs1 : Reg) (f3 : BitVec 3) :
    rs1Of (encodeB off rs2 rs1 f3) = rs1 := by
  apply toFin_eq_of_eq_regBits; apply BitVec.eq_of_getLsbD_eq; intro i hi
  simp only [encodeB, BitVec.getLsbD_append, BitVec.getLsbD_extractLsb']
  interval_cases i <;> simp
@[simp] theorem rs2Of_encodeB (off : BitVec 13) (rs2 rs1 : Reg) (f3 : BitVec 3) :
    rs2Of (encodeB off rs2 rs1 f3) = rs2 := by
  apply toFin_eq_of_eq_regBits; apply BitVec.eq_of_getLsbD_eq; intro i hi
  simp only [encodeB, BitVec.getLsbD_append, BitVec.getLsbD_extractLsb']
  interval_cases i <;> simp

/-! ## encodeU -/

@[simp] theorem opcodeOf_encodeU (imm : BitVec 20) (rd : Reg) (op : BitVec 7) :
    opcodeOf (encodeU imm rd op) = op := by
  apply BitVec.eq_of_getLsbD_eq; intro i hi
  simp only [opcodeOf, encodeU, BitVec.getLsbD_append, BitVec.getLsbD_extractLsb']
  interval_cases i <;> simp
@[simp] theorem rdOf_encodeU (imm : BitVec 20) (rd : Reg) (op : BitVec 7) :
    rdOf (encodeU imm rd op) = rd := by
  apply toFin_eq_of_eq_regBits; apply BitVec.eq_of_getLsbD_eq; intro i hi
  simp only [encodeU, BitVec.getLsbD_append, BitVec.getLsbD_extractLsb']
  interval_cases i <;> simp
@[simp] theorem imm20Of_encodeU (imm : BitVec 20) (rd : Reg) (op : BitVec 7) :
    imm20Of (encodeU imm rd op) = imm := by
  apply BitVec.eq_of_getLsbD_eq; intro i hi
  simp only [imm20Of, encodeU, BitVec.getLsbD_append, BitVec.getLsbD_extractLsb']
  interval_cases i <;> simp

/-! ## encodeJ -/

@[simp] theorem opcodeOf_encodeJ (off : BitVec 21) (rd : Reg) :
    opcodeOf (encodeJ off rd) = 0b1101111#7 := by
  apply BitVec.eq_of_getLsbD_eq; intro i hi
  simp only [opcodeOf, encodeJ, BitVec.getLsbD_append, BitVec.getLsbD_extractLsb']
  interval_cases i <;> simp
@[simp] theorem rdOf_encodeJ (off : BitVec 21) (rd : Reg) :
    rdOf (encodeJ off rd) = rd := by
  apply toFin_eq_of_eq_regBits; apply BitVec.eq_of_getLsbD_eq; intro i hi
  simp only [encodeJ, BitVec.getLsbD_append, BitVec.getLsbD_extractLsb']
  interval_cases i <;> simp

/-! ## encodeAmo -/

@[simp] theorem opcodeOf_encodeAmo (f5 : BitVec 5) (aq rl : Bool) (rd rs1 rs2 : Reg) :
    opcodeOf (encodeAmo f5 aq rl rd rs1 rs2) = 0b0101111#7 := by
  apply BitVec.eq_of_getLsbD_eq; intro i hi
  simp only [opcodeOf, encodeAmo, BitVec.getLsbD_append, BitVec.getLsbD_extractLsb']
  interval_cases i <;> simp
@[simp] theorem funct3Of_encodeAmo (f5 : BitVec 5) (aq rl : Bool) (rd rs1 rs2 : Reg) :
    funct3Of (encodeAmo f5 aq rl rd rs1 rs2) = 0b010#3 := by
  apply BitVec.eq_of_getLsbD_eq; intro i hi
  simp only [funct3Of, encodeAmo, BitVec.getLsbD_append, BitVec.getLsbD_extractLsb']
  interval_cases i <;> simp
@[simp] theorem rdOf_encodeAmo (f5 : BitVec 5) (aq rl : Bool) (rd rs1 rs2 : Reg) :
    rdOf (encodeAmo f5 aq rl rd rs1 rs2) = rd := by
  apply toFin_eq_of_eq_regBits; apply BitVec.eq_of_getLsbD_eq; intro i hi
  simp only [encodeAmo, BitVec.getLsbD_append, BitVec.getLsbD_extractLsb']
  interval_cases i <;> simp
@[simp] theorem rs1Of_encodeAmo (f5 : BitVec 5) (aq rl : Bool) (rd rs1 rs2 : Reg) :
    rs1Of (encodeAmo f5 aq rl rd rs1 rs2) = rs1 := by
  apply toFin_eq_of_eq_regBits; apply BitVec.eq_of_getLsbD_eq; intro i hi
  simp only [encodeAmo, BitVec.getLsbD_append, BitVec.getLsbD_extractLsb']
  interval_cases i <;> simp
@[simp] theorem rs2Of_encodeAmo (f5 : BitVec 5) (aq rl : Bool) (rd rs1 rs2 : Reg) :
    rs2Of (encodeAmo f5 aq rl rd rs1 rs2) = rs2 := by
  apply toFin_eq_of_eq_regBits; apply BitVec.eq_of_getLsbD_eq; intro i hi
  simp only [encodeAmo, BitVec.getLsbD_append, BitVec.getLsbD_extractLsb']
  interval_cases i <;> simp
@[simp] theorem funct5Of_encodeAmo (f5 : BitVec 5) (aq rl : Bool) (rd rs1 rs2 : Reg) :
    funct5Of (encodeAmo f5 aq rl rd rs1 rs2) = f5 := by
  apply BitVec.eq_of_getLsbD_eq; intro i hi
  simp only [funct5Of, encodeAmo, BitVec.getLsbD_append, BitVec.getLsbD_extractLsb']
  interval_cases i <;> simp
@[simp] theorem aqOf_encodeAmo (f5 : BitVec 5) (aq rl : Bool) (rd rs1 rs2 : Reg) : aqOf (encodeAmo f5 aq rl rd rs1 rs2) = aq := by
  simp only [aqOf, encodeAmo, BitVec.getLsbD_append]; simp
@[simp] theorem rlOf_encodeAmo (f5 : BitVec 5) (aq rl : Bool) (rd rs1 rs2 : Reg) : rlOf (encodeAmo f5 aq rl rd rs1 rs2) = rl := by
  simp only [rlOf, encodeAmo, BitVec.getLsbD_append]; simp

/-! ## encodeFence -/

@[simp] theorem opcodeOf_encodeFence (fm pred succ : BitVec 4) (rs1 rd : Reg) :
    opcodeOf (encodeFence fm pred succ rs1 rd) = 0b0001111#7 := by
  apply BitVec.eq_of_getLsbD_eq; intro i hi
  simp only [opcodeOf, encodeFence, BitVec.getLsbD_append, BitVec.getLsbD_extractLsb']
  interval_cases i <;> simp
@[simp] theorem funct3Of_encodeFence (fm pred succ : BitVec 4) (rs1 rd : Reg) :
    funct3Of (encodeFence fm pred succ rs1 rd) = 0b000#3 := by
  apply BitVec.eq_of_getLsbD_eq; intro i hi
  simp only [funct3Of, encodeFence, BitVec.getLsbD_append, BitVec.getLsbD_extractLsb']
  interval_cases i <;> simp
@[simp] theorem rdOf_encodeFence (fm pred succ : BitVec 4) (rs1 rd : Reg) :
    rdOf (encodeFence fm pred succ rs1 rd) = rd := by
  apply toFin_eq_of_eq_regBits; apply BitVec.eq_of_getLsbD_eq; intro i hi
  simp only [encodeFence, BitVec.getLsbD_append, BitVec.getLsbD_extractLsb']
  interval_cases i <;> simp
@[simp] theorem rs1Of_encodeFence (fm pred succ : BitVec 4) (rs1 rd : Reg) :
    rs1Of (encodeFence fm pred succ rs1 rd) = rs1 := by
  apply toFin_eq_of_eq_regBits; apply BitVec.eq_of_getLsbD_eq; intro i hi
  simp only [encodeFence, BitVec.getLsbD_append, BitVec.getLsbD_extractLsb']
  interval_cases i <;> simp
@[simp] theorem fmOf_encodeFence (fm pred succ : BitVec 4) (rs1 rd : Reg) :
    fmOf (encodeFence fm pred succ rs1 rd) = fm := by
  apply BitVec.eq_of_getLsbD_eq; intro i hi
  simp only [fmOf, encodeFence, BitVec.getLsbD_append, BitVec.getLsbD_extractLsb']
  interval_cases i <;> simp
@[simp] theorem predOf_encodeFence (fm pred succ : BitVec 4) (rs1 rd : Reg) :
    predOf (encodeFence fm pred succ rs1 rd) = pred := by
  apply BitVec.eq_of_getLsbD_eq; intro i hi
  simp only [predOf, encodeFence, BitVec.getLsbD_append, BitVec.getLsbD_extractLsb']
  interval_cases i <;> simp
@[simp] theorem succOf_encodeFence (fm pred succ : BitVec 4) (rs1 rd : Reg) :
    succOf (encodeFence fm pred succ rs1 rd) = succ := by
  apply BitVec.eq_of_getLsbD_eq; intro i hi
  simp only [succOf, encodeFence, BitVec.getLsbD_append, BitVec.getLsbD_extractLsb']
  interval_cases i <;> simp

/-- An even branch offset survives the scatter of R105. -/
theorem immBOf_encodeB (off : BitVec 13) (rs2 rs1 : Reg) (f3 : BitVec 3) (h : off.getLsbD 0 = false) :
    immBOf (encodeB off rs2 rs1 f3) = off := by
  apply BitVec.eq_of_getLsbD_eq; intro i hi
  simp only [immBOf, encodeB, BitVec.getLsbD_append, BitVec.getLsbD_extractLsb']
  interval_cases i <;> simp_all

/-- An even JAL offset survives the scatter of R107. -/
theorem immJOf_encodeJ (off : BitVec 21) (rd : Reg) (h : off.getLsbD 0 = false) :
    immJOf (encodeJ off rd) = off := by
  apply BitVec.eq_of_getLsbD_eq; intro i hi
  simp only [immJOf, encodeJ, BitVec.getLsbD_append, BitVec.getLsbD_extractLsb']
  interval_cases i <;> simp_all

/-- A decoded branch offset is even (R105). -/
@[simp] theorem immBOf_even (w : Word) : (immBOf w).getLsbD 0 = false := by
  simp only [immBOf, BitVec.getLsbD_append]; simp

/-- A decoded JAL offset is even (R107). -/
@[simp] theorem immJOf_even (w : Word) : (immJOf w).getLsbD 0 = false := by
  simp only [immJOf, BitVec.getLsbD_append]; simp

/-- The bytes of a word, decoded from the front of a byte string, are the word (R66, R100). -/
theorem wordOfBytes_bytesOf (w : Word) :
    wordOfBytes (byteOf w 0) (byteOf w 1) (byteOf w 2) (byteOf w 3) = w := by
  apply BitVec.eq_of_getLsbD_eq
  intro i hi
  simp only [wordOfBytes, byteOf, BitVec.getLsbD_append, BitVec.getLsbD_extractLsb']
  interval_cases i <;> simp

/-- Decoding bytes is decoding their word. -/
theorem decode_bytesOf (w : Word) (rest : List Byte) :
    decode (bytesOf w ++ rest) = match decodeWord w with
      | .ok i => .ok (i, rest)
      | .error e => .error e := by
  cases h : decodeWord w <;>
    simp only [bytesOf, List.cons_append, List.nil_append, decode, wordOfBytes_bytesOf, h]

/-! ## The decoder, class by class (R112) -/

theorem decodeWord_lui {w : Word} (h : opcodeOf w = 0b0110111#7) :
    decodeWord w = .ok (.lui (rdOf w) (imm20Of w)) := by
  simp [decodeWord, h]

theorem decodeWord_auipc {w : Word} (h : opcodeOf w = 0b0010111#7) :
    decodeWord w = .ok (.auipc (rdOf w) (imm20Of w)) := by
  simp [decodeWord, h]

theorem decodeWord_opImm {w : Word} (h : opcodeOf w = 0b0010011#7) :
    decodeWord w = decodeOpImm w := by
  simp [decodeWord, h]

theorem decodeWord_op {w : Word} (h : opcodeOf w = 0b0110011#7) :
    decodeWord w = decodeOp w := by
  simp [decodeWord, h]

theorem decodeWord_load {w : Word} (h : opcodeOf w = 0b0000011#7) :
    decodeWord w = decodeLoad w := by
  simp [decodeWord, h]

theorem decodeWord_store {w : Word} (h : opcodeOf w = 0b0100011#7) :
    decodeWord w = decodeStore w := by
  simp [decodeWord, h]

theorem decodeWord_jal {w : Word} (h : opcodeOf w = 0b1101111#7) :
    decodeWord w = .ok (.jal (rdOf w) (immJOf w)) := by
  simp [decodeWord, h]

theorem decodeWord_jalr {w : Word} (h : opcodeOf w = 0b1100111#7) :
    decodeWord w = if funct3Of w = 0b000#3 then .ok (.jalr (rdOf w) (rs1Of w) (immIOf w)) else .error .jalr := by
  simp [decodeWord, h]

theorem decodeWord_branch {w : Word} (h : opcodeOf w = 0b1100011#7) :
    decodeWord w = decodeBranch w := by
  simp [decodeWord, h]

theorem decodeWord_miscMem {w : Word} (h : opcodeOf w = 0b0001111#7) :
    decodeWord w = .ok (decodeMiscMem w) := by
  simp [decodeWord, h]

theorem decodeWord_system {w : Word} (h : opcodeOf w = 0b1110011#7) :
    decodeWord w = decodeSystem w := by
  simp [decodeWord, h]

theorem decodeWord_amo {w : Word} (h : opcodeOf w = 0b0101111#7) :
    decodeWord w = decodeAmo w := by
  simp [decodeWord, h]

/-- A SYSTEM word with a nonzero funct3 is a CSR access or illegal (R113). -/
theorem decodeSystem_csr {w : Word} (h : funct3Of w ≠ 0b000#3) :
    w ≠ 0x00000073#32 ∧ w ≠ 0x00100073#32 ∧ w ≠ 0x30200073#32 := by
  refine ⟨?_, ?_, ?_⟩ <;> rintro rfl <;> exact h (by decide)

/-- The decoder is one decoder per class (R112), and a word of no class is illegal. -/
theorem decodeWord_cases (w : Word) :
    (opcodeOf w = 0b0110111#7 ∧ decodeWord w = .ok (.lui (rdOf w) (imm20Of w))) ∨
    (opcodeOf w = 0b0010111#7 ∧ decodeWord w = .ok (.auipc (rdOf w) (imm20Of w))) ∨
    (opcodeOf w = 0b0010011#7 ∧ decodeWord w = decodeOpImm w) ∨
    (opcodeOf w = 0b0110011#7 ∧ decodeWord w = decodeOp w) ∨
    (opcodeOf w = 0b0000011#7 ∧ decodeWord w = decodeLoad w) ∨
    (opcodeOf w = 0b0100011#7 ∧ decodeWord w = decodeStore w) ∨
    (opcodeOf w = 0b1101111#7 ∧ decodeWord w = .ok (.jal (rdOf w) (immJOf w))) ∨
    (opcodeOf w = 0b1100111#7 ∧ decodeWord w =
      if funct3Of w = 0b000#3 then .ok (.jalr (rdOf w) (rs1Of w) (immIOf w)) else .error .jalr) ∨
    (opcodeOf w = 0b1100011#7 ∧ decodeWord w = decodeBranch w) ∨
    (opcodeOf w = 0b0001111#7 ∧ decodeWord w = .ok (decodeMiscMem w)) ∨
    (opcodeOf w = 0b1110011#7 ∧ decodeWord w = decodeSystem w) ∨
    (opcodeOf w = 0b0101111#7 ∧ decodeWord w = decodeAmo w) ∨
    (opcodeOf w ∉ [0b0110111#7, 0b0010111#7, 0b0010011#7, 0b0110011#7, 0b0000011#7, 0b0100011#7,
      0b1101111#7, 0b1100111#7, 0b1100011#7, 0b0001111#7, 0b1110011#7, 0b0101111#7] ∧
      decodeWord w = .error .opcode) := by
  by_cases h1 : opcodeOf w = 0b0110111#7
  · exact .inl ⟨h1, decodeWord_lui h1⟩
  refine .inr ?_
  by_cases h2 : opcodeOf w = 0b0010111#7
  · exact .inl ⟨h2, decodeWord_auipc h2⟩
  refine .inr ?_
  by_cases h3 : opcodeOf w = 0b0010011#7
  · exact .inl ⟨h3, decodeWord_opImm h3⟩
  refine .inr ?_
  by_cases h4 : opcodeOf w = 0b0110011#7
  · exact .inl ⟨h4, decodeWord_op h4⟩
  refine .inr ?_
  by_cases h5 : opcodeOf w = 0b0000011#7
  · exact .inl ⟨h5, decodeWord_load h5⟩
  refine .inr ?_
  by_cases h6 : opcodeOf w = 0b0100011#7
  · exact .inl ⟨h6, decodeWord_store h6⟩
  refine .inr ?_
  by_cases h7 : opcodeOf w = 0b1101111#7
  · exact .inl ⟨h7, decodeWord_jal h7⟩
  refine .inr ?_
  by_cases h8 : opcodeOf w = 0b1100111#7
  · exact .inl ⟨h8, decodeWord_jalr h8⟩
  refine .inr ?_
  by_cases h9 : opcodeOf w = 0b1100011#7
  · exact .inl ⟨h9, decodeWord_branch h9⟩
  refine .inr ?_
  by_cases h10 : opcodeOf w = 0b0001111#7
  · exact .inl ⟨h10, decodeWord_miscMem h10⟩
  refine .inr ?_
  by_cases h11 : opcodeOf w = 0b1110011#7
  · exact .inl ⟨h11, decodeWord_system h11⟩
  refine .inr ?_
  by_cases h12 : opcodeOf w = 0b0101111#7
  · exact .inl ⟨h12, decodeWord_amo h12⟩
  exact .inr ⟨by simp [h1, h2, h3, h4, h5, h6, h7, h8, h9, h10, h11, h12],
    by simp only [decodeWord, h1, h2, h3, h4, h5, h6, h7, h8, h9, h10, h11, h12, if_false]⟩

/-! ## Each format puts a word together again from its own fields (R102) -/

/-- A register field's bits. -/
theorem regBits_ofFields (x : BitVec 5) : regBits x.toFin = x := rfl

theorem encodeI_fields (w : Word) :
    encodeI (immIOf w) (rs1Of w) (funct3Of w) (rdOf w) (opcodeOf w) = w := by
  unfold encodeI immIOf rs1Of funct3Of rdOf opcodeOf
  apply BitVec.eq_of_getLsbD_eq; intro i hi
  simp only [regBits_ofFields, BitVec.getLsbD_append, BitVec.getLsbD_extractLsb']
  interval_cases i <;> simp
theorem encodeShift_fields {w : Word} (h : opcodeOf w = 0b0010011#7) :
    encodeShift (funct7Of w) (shamtOf w) (rs1Of w) (funct3Of w) (rdOf w) = w := by
  unfold encodeShift; rw [← h]; unfold funct7Of shamtOf rs1Of funct3Of rdOf opcodeOf
  apply BitVec.eq_of_getLsbD_eq; intro i hi
  simp only [regBits_ofFields, BitVec.getLsbD_append, BitVec.getLsbD_extractLsb']
  interval_cases i <;> simp
theorem encodeCsrI_fields {w : Word} (h : opcodeOf w = 0b1110011#7) :
    encodeCsrI (csrOf w) (zimmOf w) (funct3Of w) (rdOf w) = w := by
  unfold encodeCsrI; rw [← h]; unfold csrOf zimmOf funct3Of rdOf opcodeOf
  apply BitVec.eq_of_getLsbD_eq; intro i hi
  simp only [regBits_ofFields, BitVec.getLsbD_append, BitVec.getLsbD_extractLsb']
  interval_cases i <;> simp
theorem encodeR_fields (w : Word) :
    encodeR (funct7Of w) (rs2Of w) (rs1Of w) (funct3Of w) (rdOf w) (opcodeOf w) = w := by
  unfold encodeR funct7Of rs2Of rs1Of funct3Of rdOf opcodeOf
  apply BitVec.eq_of_getLsbD_eq; intro i hi
  simp only [regBits_ofFields, BitVec.getLsbD_append, BitVec.getLsbD_extractLsb']
  interval_cases i <;> simp
theorem encodeS_fields {w : Word} (h : opcodeOf w = 0b0100011#7) :
    encodeS (immSOf w) (rs2Of w) (rs1Of w) (funct3Of w) = w := by
  unfold encodeS; rw [← h]; unfold immSOf rs2Of rs1Of funct3Of opcodeOf
  apply BitVec.eq_of_getLsbD_eq; intro i hi
  simp only [regBits_ofFields, BitVec.getLsbD_append, BitVec.getLsbD_extractLsb']
  interval_cases i <;> simp
theorem encodeB_fields {w : Word} (h : opcodeOf w = 0b1100011#7) :
    encodeB (immBOf w) (rs2Of w) (rs1Of w) (funct3Of w) = w := by
  unfold encodeB; rw [← h]; unfold immBOf rs2Of rs1Of funct3Of opcodeOf
  apply BitVec.eq_of_getLsbD_eq; intro i hi
  simp only [regBits_ofFields, BitVec.getLsbD_append, BitVec.getLsbD_extractLsb']
  interval_cases i <;> simp
theorem encodeU_fields (w : Word) :
    encodeU (imm20Of w) (rdOf w) (opcodeOf w) = w := by
  unfold encodeU imm20Of rdOf opcodeOf
  apply BitVec.eq_of_getLsbD_eq; intro i hi
  simp only [regBits_ofFields, BitVec.getLsbD_append, BitVec.getLsbD_extractLsb']
  interval_cases i <;> simp
theorem encodeJ_fields {w : Word} (h : opcodeOf w = 0b1101111#7) :
    encodeJ (immJOf w) (rdOf w) = w := by
  unfold encodeJ; rw [← h]; unfold immJOf rdOf opcodeOf
  apply BitVec.eq_of_getLsbD_eq; intro i hi
  simp only [regBits_ofFields, BitVec.getLsbD_append, BitVec.getLsbD_extractLsb']
  interval_cases i <;> simp
theorem encodeFence_fields {w : Word} (h : opcodeOf w = 0b0001111#7) (h3 : funct3Of w = 0b000#3) :
    encodeFence (fmOf w) (predOf w) (succOf w) (rs1Of w) (rdOf w) = w := by
  unfold encodeFence; rw [← h, ← h3]; unfold fmOf predOf succOf rs1Of rdOf funct3Of opcodeOf
  apply BitVec.eq_of_getLsbD_eq; intro i hi
  simp only [regBits_ofFields, BitVec.getLsbD_append, BitVec.getLsbD_extractLsb']
  interval_cases i <;> simp
theorem encodeAmo_fields {w : Word} (h : opcodeOf w = 0b0101111#7) (h3 : funct3Of w = 0b010#3) :
    encodeAmo (funct5Of w) (aqOf w) (rlOf w) (rdOf w) (rs1Of w) (rs2Of w) = w := by
  unfold encodeAmo; rw [← h, ← h3]; unfold funct5Of aqOf rlOf rs1Of rs2Of rdOf funct3Of opcodeOf
  apply BitVec.eq_of_getLsbD_eq; intro i hi
  simp only [regBits_ofFields, BitVec.getLsbD_append, BitVec.getLsbD_extractLsb', BitVec.getLsbD_ofBool]
  interval_cases i <;> simp

end Sys2Proof
end

