-- ==== Sys2Proof/Laws/Sparse.lean ====
section
/-! SUPPORT. The laws of a sparse table: read after write, the canonical form is kept, and canonical tables that
read alike are equal. -/

namespace Sys2Proof.Machine.Sparse

variable {α : Type} {d : α}

@[simp] theorem get_nil (k : Nat) : get d [] k = d := rfl

theorem get_cons (k' : Nat) (v : α) (l : List (Nat × α)) (k : Nat) :
    get d ((k', v) :: l) k = if k = k' then v else get d l k := rfl

theorem get_erase (l : List (Nat × α)) (k j : Nat) :
    get d (erase k l) j = if j = k then d else get d l j := by
  induction l with
  | nil => simp [erase]
  | cons p l ih =>
    obtain ⟨k', v'⟩ := p
    by_cases hk : k' = k
    · simp only [erase, hk, if_true, ih, get_cons]
      by_cases hj : j = k <;> simp [hj]
    · simp only [erase, hk, if_false, get_cons, ih]
      by_cases hj : j = k'
      · subst hj; simp [hk]
      · simp [hj]

theorem get_insert (l : List (Nat × α)) (k j : Nat) (v : α) (h : get d l k = d)
    (hn : ∀ p ∈ l, p.1 ≠ k) : get d (insert k v l) j = if j = k then v else get d l j := by
  induction l with
  | nil => simp [insert, get_cons]
  | cons p l ih =>
    obtain ⟨k', v'⟩ := p
    have hk : k ≠ k' := fun e => hn (k', v') (by simp) e.symm
    have ht : get d l k = d := by simpa [get_cons, hk] using h
    simp only [insert]
    split
    · simp [get_cons]
    · simp only [get_cons, ih ht fun p hp => hn p (List.mem_cons_of_mem _ hp)]
      by_cases hj : j = k'
      · simp [hj, hk.symm]
      · simp [hj]

theorem not_mem_erase (l : List (Nat × α)) (k : Nat) : ∀ p ∈ erase k l, p.1 ≠ k := by
  induction l with
  | nil => simp [erase]
  | cons p l ih =>
    obtain ⟨k', v'⟩ := p
    simp only [erase]
    split
    · exact ih
    · intro p hp
      rcases List.mem_cons.1 hp with rfl | hp
      · assumption
      · exact ih p hp

variable [DecidableEq α]

/-- Read after write, at every key and on every list. -/
theorem get_set (l : List (Nat × α)) (k j : Nat) (v : α) :
    get d (set d l k v) j = if j = k then v else get d l j := by
  unfold set
  split
  · rename_i h; simp [get_erase, h]
  · rw [get_insert _ _ _ _ (by simp [get_erase]) (not_mem_erase l k), get_erase]
    by_cases hj : j = k <;> simp [hj]

theorem wf_cons {hi lo k : Nat} {v : α} {l : List (Nat × α)} :
    wf d hi lo ((k, v) :: l) = true ↔ lo ≤ k ∧ k < hi ∧ v ≠ d ∧ wf d hi (k + 1) l = true := by
  simp [wf, and_assoc]

theorem wf_weaken {hi lo lo' : Nat} {l : List (Nat × α)} (h : wf d hi lo l = true) (hl : lo' ≤ lo) :
    wf d hi lo' l = true := by
  cases l with
  | nil => rfl
  | cons p l =>
    obtain ⟨k, v⟩ := p
    rw [wf_cons] at h ⊢
    exact ⟨le_trans hl h.1, h.2⟩

theorem wf_erase {hi lo : Nat} {l : List (Nat × α)} (k : Nat) (h : wf d hi lo l = true) :
    wf d hi lo (erase k l) = true := by
  induction l generalizing lo with
  | nil => rfl
  | cons p l ih =>
    obtain ⟨k', v'⟩ := p
    rw [wf_cons] at h
    simp only [erase]
    split
    · exact wf_weaken (ih h.2.2.2) (by omega)
    · exact wf_cons.2 ⟨h.1, h.2.1, h.2.2.1, ih h.2.2.2⟩

theorem wf_insert {hi lo k : Nat} {v : α} {l : List (Nat × α)} (h : wf d hi lo l = true)
    (hlo : lo ≤ k) (hhi : k < hi) (hv : v ≠ d) (hn : ∀ p ∈ l, p.1 ≠ k) :
    wf d hi lo (insert k v l) = true := by
  induction l generalizing lo with
  | nil => exact wf_cons.2 ⟨hlo, hhi, hv, rfl⟩
  | cons p l ih =>
    obtain ⟨k', v'⟩ := p
    have hk : k' ≠ k := hn (k', v') (by simp)
    rw [wf_cons] at h
    simp only [insert]
    split
    · exact wf_cons.2 ⟨hlo, hhi, hv, wf_cons.2 ⟨by omega, h.2⟩⟩
    · exact wf_cons.2 ⟨h.1, h.2.1, h.2.2.1,
        ih h.2.2.2 (by omega) fun p hp => hn p (List.mem_cons_of_mem _ hp)⟩

/-- A write keeps the canonical form. -/
theorem wf_set {hi lo k : Nat} {v : α} {l : List (Nat × α)} (h : wf d hi lo l = true)
    (hlo : lo ≤ k) (hhi : k < hi) : wf d hi lo (set d l k v) = true := by
  unfold set
  split
  · exact wf_erase k h
  · exact wf_insert (wf_erase k h) hlo hhi ‹_› (not_mem_erase l k)

theorem get_lt {hi lo k : Nat} {l : List (Nat × α)} (h : wf d hi lo l = true) (hk : k < lo) :
    get d l k = d := by
  induction l generalizing lo with
  | nil => rfl
  | cons p l ih =>
    obtain ⟨k', v'⟩ := p
    rw [wf_cons] at h
    rw [get_cons, if_neg (by omega), ih h.2.2.2 (by omega)]

/-- Equal contents are equal data: two canonical tables that read alike are the same list. -/
theorem ext {hi lo : Nat} {l m : List (Nat × α)} (hl : wf d hi lo l = true) (hm : wf d hi lo m = true)
    (h : ∀ k, get d l k = get d m k) : l = m := by
  induction l generalizing lo m with
  | nil =>
    cases m with
    | nil => rfl
    | cons p m =>
      obtain ⟨k, v⟩ := p
      rw [wf_cons] at hm
      exact absurd (by simpa [get_cons] using (h k).symm) hm.2.2.1
  | cons p l ih =>
    obtain ⟨k, v⟩ := p
    rw [wf_cons] at hl
    cases m with
    | nil => exact absurd (by simpa [get_cons] using h k) hl.2.2.1
    | cons q m =>
      obtain ⟨k', v'⟩ := q
      rw [wf_cons] at hm
      have hkk : k = k' := by
        rcases Nat.lt_trichotomy k k' with hlt | he | hgt
        · refine absurd ?_ hl.2.2.1
          simpa [get_cons, Nat.ne_of_lt hlt, get_lt hm.2.2.2 (show k < k' + 1 by omega)] using h k
        · exact he
        · refine absurd ?_ hm.2.2.1
          simpa [get_cons, Nat.ne_of_lt hgt, get_lt hl.2.2.2 (show k' < k + 1 by omega)] using
            (h k').symm
      subst hkk
      have hv : v = v' := by simpa [get_cons] using h k
      subst hv
      congr 1
      refine ih hl.2.2.2 hm.2.2.2 fun j => ?_
      by_cases hj : j = k
      · rw [hj, get_lt hl.2.2.2 (by omega), get_lt hm.2.2.2 (by omega)]
      · simpa [get_cons, hj] using h j

end Sys2Proof.Machine.Sparse
end

