-- ==== Sys2Proof/Laws/State.lean ====
section
/-! SUPPORT. For every update of the state, what every reading of it gives afterwards. -/

namespace Sys2Proof.Machine

variable (s : State)

/-! ## setPc -/

@[simp] theorem State.setPc_regs (v : Word) : (s.setPc v).regs = s.regs := rfl
@[simp] theorem State.setPc_pc (v : Word) : (s.setPc v).pc = v := rfl
@[simp] theorem State.setPc_csrs (v : Word) : (s.setPc v).csrs = s.csrs := rfl
@[simp] theorem State.setPc_resv (v : Word) : (s.setPc v).resv = s.resv := rfl
@[simp] theorem State.setPc_exc (v : Word) : (s.setPc v).exc = s.exc := rfl
@[simp] theorem State.setPc_mem (v : Word) : (s.setPc v).mem = s.mem := rfl
@[simp] theorem State.setPc_console (v : Word) : (s.setPc v).console = s.console := rfl
@[simp] theorem State.setPc_hostIn (v : Word) : (s.setPc v).hostIn = s.hostIn := rfl
@[simp] theorem State.setPc_consOut (v : Word) : (s.setPc v).consOut = s.consOut := rfl
@[simp] theorem State.setPc_reg (v : Word) (j : Reg) : (s.setPc v).reg j = s.reg j := rfl
@[simp] theorem State.setPc_csr (v : Word) (m : CsrIndex) : (s.setPc v).csr m = s.csr m := rfl
@[simp] theorem State.setPc_ramByte (v : Word) (x : Nat) : (s.setPc v).ramByte x = s.ramByte x := rfl

/-! ## setExc -/

@[simp] theorem State.setExc_regs (e : Option Cause) : (s.setExc e).regs = s.regs := rfl
@[simp] theorem State.setExc_pc (e : Option Cause) : (s.setExc e).pc = s.pc := rfl
@[simp] theorem State.setExc_csrs (e : Option Cause) : (s.setExc e).csrs = s.csrs := rfl
@[simp] theorem State.setExc_resv (e : Option Cause) : (s.setExc e).resv = s.resv := rfl
@[simp] theorem State.setExc_exc (e : Option Cause) : (s.setExc e).exc = e := rfl
@[simp] theorem State.setExc_mem (e : Option Cause) : (s.setExc e).mem = s.mem := rfl
@[simp] theorem State.setExc_console (e : Option Cause) : (s.setExc e).console = s.console := rfl
@[simp] theorem State.setExc_hostIn (e : Option Cause) : (s.setExc e).hostIn = s.hostIn := rfl
@[simp] theorem State.setExc_consOut (e : Option Cause) : (s.setExc e).consOut = s.consOut := rfl
@[simp] theorem State.setExc_reg (e : Option Cause) (j : Reg) : (s.setExc e).reg j = s.reg j := rfl
@[simp] theorem State.setExc_csr (e : Option Cause) (m : CsrIndex) : (s.setExc e).csr m = s.csr m := rfl
@[simp] theorem State.setExc_ramByte (e : Option Cause) (x : Nat) : (s.setExc e).ramByte x = s.ramByte x := rfl

/-! ## setResv -/

@[simp] theorem State.setResv_regs (w : Reservation) : (s.setResv w).regs = s.regs := rfl
@[simp] theorem State.setResv_pc (w : Reservation) : (s.setResv w).pc = s.pc := rfl
@[simp] theorem State.setResv_csrs (w : Reservation) : (s.setResv w).csrs = s.csrs := rfl
@[simp] theorem State.setResv_resv (w : Reservation) : (s.setResv w).resv = w := rfl
@[simp] theorem State.setResv_exc (w : Reservation) : (s.setResv w).exc = s.exc := rfl
@[simp] theorem State.setResv_mem (w : Reservation) : (s.setResv w).mem = s.mem := rfl
@[simp] theorem State.setResv_console (w : Reservation) : (s.setResv w).console = s.console := rfl
@[simp] theorem State.setResv_hostIn (w : Reservation) : (s.setResv w).hostIn = s.hostIn := rfl
@[simp] theorem State.setResv_consOut (w : Reservation) : (s.setResv w).consOut = s.consOut := rfl
@[simp] theorem State.setResv_reg (w : Reservation) (j : Reg) : (s.setResv w).reg j = s.reg j := rfl
@[simp] theorem State.setResv_csr (w : Reservation) (m : CsrIndex) : (s.setResv w).csr m = s.csr m := rfl
@[simp] theorem State.setResv_ramByte (w : Reservation) (x : Nat) : (s.setResv w).ramByte x = s.ramByte x := rfl

/-! ## setConsole -/

@[simp] theorem State.setConsole_regs (c : Console) (h : List Byte) : (s.setConsole c h).regs = s.regs := rfl
@[simp] theorem State.setConsole_pc (c : Console) (h : List Byte) : (s.setConsole c h).pc = s.pc := rfl
@[simp] theorem State.setConsole_csrs (c : Console) (h : List Byte) : (s.setConsole c h).csrs = s.csrs := rfl
@[simp] theorem State.setConsole_resv (c : Console) (h : List Byte) : (s.setConsole c h).resv = s.resv := rfl
@[simp] theorem State.setConsole_exc (c : Console) (h : List Byte) : (s.setConsole c h).exc = s.exc := rfl
@[simp] theorem State.setConsole_mem (c : Console) (h : List Byte) : (s.setConsole c h).mem = s.mem := rfl
@[simp] theorem State.setConsole_console (c : Console) (h : List Byte) : (s.setConsole c h).console = c := rfl
@[simp] theorem State.setConsole_hostIn (c : Console) (h : List Byte) : (s.setConsole c h).hostIn = h := rfl
@[simp] theorem State.setConsole_consOut (c : Console) (h : List Byte) : (s.setConsole c h).consOut = s.consOut := rfl
@[simp] theorem State.setConsole_reg (c : Console) (h : List Byte) (j : Reg) : (s.setConsole c h).reg j = s.reg j := rfl
@[simp] theorem State.setConsole_csr (c : Console) (h : List Byte) (m : CsrIndex) : (s.setConsole c h).csr m = s.csr m := rfl
@[simp] theorem State.setConsole_ramByte (c : Console) (h : List Byte) (x : Nat) : (s.setConsole c h).ramByte x = s.ramByte x := rfl

/-! ## emit -/

@[simp] theorem State.emit_regs (b : Byte) : (s.emit b).regs = s.regs := rfl
@[simp] theorem State.emit_pc (b : Byte) : (s.emit b).pc = s.pc := rfl
@[simp] theorem State.emit_csrs (b : Byte) : (s.emit b).csrs = s.csrs := rfl
@[simp] theorem State.emit_resv (b : Byte) : (s.emit b).resv = s.resv := rfl
@[simp] theorem State.emit_exc (b : Byte) : (s.emit b).exc = s.exc := rfl
@[simp] theorem State.emit_mem (b : Byte) : (s.emit b).mem = s.mem := rfl
@[simp] theorem State.emit_console (b : Byte) : (s.emit b).console = s.console := rfl
@[simp] theorem State.emit_hostIn (b : Byte) : (s.emit b).hostIn = s.hostIn := rfl
@[simp] theorem State.emit_consOut (b : Byte) : (s.emit b).consOut = s.consOut ++ [b] := rfl
@[simp] theorem State.emit_reg (b : Byte) (j : Reg) : (s.emit b).reg j = s.reg j := rfl
@[simp] theorem State.emit_csr (b : Byte) (m : CsrIndex) : (s.emit b).csr m = s.csr m := rfl
@[simp] theorem State.emit_ramByte (b : Byte) (x : Nat) : (s.emit b).ramByte x = s.ramByte x := rfl

/-! ## setReg -/

@[simp] theorem State.setReg_pc (r : Reg) (v : Word) : (s.setReg r v).pc = s.pc := by
  unfold State.setReg; split <;> rfl
@[simp] theorem State.setReg_csrs (r : Reg) (v : Word) : (s.setReg r v).csrs = s.csrs := by
  unfold State.setReg; split <;> rfl
@[simp] theorem State.setReg_resv (r : Reg) (v : Word) : (s.setReg r v).resv = s.resv := by
  unfold State.setReg; split <;> rfl
@[simp] theorem State.setReg_exc (r : Reg) (v : Word) : (s.setReg r v).exc = s.exc := by
  unfold State.setReg; split <;> rfl
@[simp] theorem State.setReg_mem (r : Reg) (v : Word) : (s.setReg r v).mem = s.mem := by
  unfold State.setReg; split <;> rfl
@[simp] theorem State.setReg_console (r : Reg) (v : Word) : (s.setReg r v).console = s.console := by
  unfold State.setReg; split <;> rfl
@[simp] theorem State.setReg_hostIn (r : Reg) (v : Word) : (s.setReg r v).hostIn = s.hostIn := by
  unfold State.setReg; split <;> rfl
@[simp] theorem State.setReg_consOut (r : Reg) (v : Word) : (s.setReg r v).consOut = s.consOut := by
  unfold State.setReg; split <;> rfl
@[simp] theorem State.setReg_csr (r : Reg) (v : Word) (m : CsrIndex) : (s.setReg r v).csr m = s.csr m := by
  simp [State.csr]
@[simp] theorem State.setReg_ramByte (r : Reg) (v : Word) (x : Nat) : (s.setReg r v).ramByte x = s.ramByte x := by
  simp [State.ramByte]

/-! ## zeroX0 -/

@[simp] theorem State.zeroX0_pc : (s.zeroX0).pc = s.pc := rfl
@[simp] theorem State.zeroX0_csrs : (s.zeroX0).csrs = s.csrs := rfl
@[simp] theorem State.zeroX0_resv : (s.zeroX0).resv = s.resv := rfl
@[simp] theorem State.zeroX0_exc : (s.zeroX0).exc = s.exc := rfl
@[simp] theorem State.zeroX0_mem : (s.zeroX0).mem = s.mem := rfl
@[simp] theorem State.zeroX0_console : (s.zeroX0).console = s.console := rfl
@[simp] theorem State.zeroX0_hostIn : (s.zeroX0).hostIn = s.hostIn := rfl
@[simp] theorem State.zeroX0_consOut : (s.zeroX0).consOut = s.consOut := rfl
@[simp] theorem State.zeroX0_csr (m : CsrIndex) : (s.zeroX0).csr m = s.csr m := rfl
@[simp] theorem State.zeroX0_ramByte (x : Nat) : (s.zeroX0).ramByte x = s.ramByte x := rfl

/-! ## setCsr -/

@[simp] theorem State.setCsr_regs (n : CsrIndex) (v : Word) : (s.setCsr n v).regs = s.regs := rfl
@[simp] theorem State.setCsr_pc (n : CsrIndex) (v : Word) : (s.setCsr n v).pc = s.pc := rfl
@[simp] theorem State.setCsr_resv (n : CsrIndex) (v : Word) : (s.setCsr n v).resv = s.resv := rfl
@[simp] theorem State.setCsr_exc (n : CsrIndex) (v : Word) : (s.setCsr n v).exc = s.exc := rfl
@[simp] theorem State.setCsr_mem (n : CsrIndex) (v : Word) : (s.setCsr n v).mem = s.mem := rfl
@[simp] theorem State.setCsr_console (n : CsrIndex) (v : Word) : (s.setCsr n v).console = s.console := rfl
@[simp] theorem State.setCsr_hostIn (n : CsrIndex) (v : Word) : (s.setCsr n v).hostIn = s.hostIn := rfl
@[simp] theorem State.setCsr_consOut (n : CsrIndex) (v : Word) : (s.setCsr n v).consOut = s.consOut := rfl
@[simp] theorem State.setCsr_reg (n : CsrIndex) (v : Word) (j : Reg) : (s.setCsr n v).reg j = s.reg j := rfl
@[simp] theorem State.setCsr_ramByte (n : CsrIndex) (v : Word) (x : Nat) : (s.setCsr n v).ramByte x = s.ramByte x := rfl

/-! ## setRamByte -/

@[simp] theorem State.setRamByte_regs (a : Nat) (b : Byte) : (s.setRamByte a b).regs = s.regs := by
  unfold State.setRamByte; split <;> rfl
@[simp] theorem State.setRamByte_pc (a : Nat) (b : Byte) : (s.setRamByte a b).pc = s.pc := by
  unfold State.setRamByte; split <;> rfl
@[simp] theorem State.setRamByte_csrs (a : Nat) (b : Byte) : (s.setRamByte a b).csrs = s.csrs := by
  unfold State.setRamByte; split <;> rfl
@[simp] theorem State.setRamByte_resv (a : Nat) (b : Byte) : (s.setRamByte a b).resv = s.resv := by
  unfold State.setRamByte; split <;> rfl
@[simp] theorem State.setRamByte_exc (a : Nat) (b : Byte) : (s.setRamByte a b).exc = s.exc := by
  unfold State.setRamByte; split <;> rfl
@[simp] theorem State.setRamByte_console (a : Nat) (b : Byte) : (s.setRamByte a b).console = s.console := by
  unfold State.setRamByte; split <;> rfl
@[simp] theorem State.setRamByte_hostIn (a : Nat) (b : Byte) : (s.setRamByte a b).hostIn = s.hostIn := by
  unfold State.setRamByte; split <;> rfl
@[simp] theorem State.setRamByte_consOut (a : Nat) (b : Byte) : (s.setRamByte a b).consOut = s.consOut := by
  unfold State.setRamByte; split <;> rfl
@[simp] theorem State.setRamByte_reg (a : Nat) (b : Byte) (j : Reg) : (s.setRamByte a b).reg j = s.reg j := by
  simp [State.reg]
@[simp] theorem State.setRamByte_csr (a : Nat) (b : Byte) (m : CsrIndex) : (s.setRamByte a b).csr m = s.csr m := by
  simp [State.csr]

/-! ## What each accessor reads after its own write -/

@[simp] theorem State.reg_zero : s.reg 0 = 0#32 := rfl

/-- A register after a register write: the value, but for x0, which stays 0 (R21, R22). -/
theorem State.reg_setReg (r j : Reg) (v : Word) :
    (s.setReg r v).reg j = if j = r ∧ j ≠ 0 then v else s.reg j := by
  unfold State.setReg State.reg
  by_cases hr : r = 0
  · subst hr; by_cases hj : j = 0 <;> simp [hj]
  · by_cases hj : j = 0
    · simp [hj]
    · by_cases he : j = r
      · subst he; simp [hr]
      · have hv : r.val ≠ j.val := fun h => he (Fin.ext h.symm)
        simp [hr, hj, he, Vector.getElem_set_ne _ _ hv]

/-- x0's slot is never written by a register write. -/
@[simp] theorem State.setReg_slot0 (r : Reg) (v : Word) : (s.setReg r v).regs[0] = s.regs[0] := by
  unfold State.setReg
  split
  · rfl
  · have h : r.val ≠ 0 := fun h => ‹¬ r = 0› (Fin.ext h)
    simp [Vector.getElem_set_ne _ _ h]

@[simp] theorem State.zeroX0_slot0 : s.zeroX0.regs[0] = 0#32 := by
  simp [State.zeroX0]

/-- Forcing x0 to zero is not observable (R22, R41). -/
@[simp] theorem State.zeroX0_reg (j : Reg) : s.zeroX0.reg j = s.reg j := by
  unfold State.zeroX0 State.reg
  by_cases hj : j = 0
  · simp [hj]
  · have hv : (0 : Nat) ≠ j.val := fun h => hj (Fin.ext h.symm)
    simp [hj, Vector.getElem_set_ne _ _ hv]

/-- A CSR after a CSR write (R28). -/
theorem State.csr_setCsr (n m : CsrIndex) (v : Word) :
    (s.setCsr n v).csr m = if m = n then v else s.csr m := by
  simp only [State.csr, State.setCsr, Sparse.get_set, BitVec.toNat_inj]

theorem State.csr_setCsr_same (n : CsrIndex) (v : Word) : (s.setCsr n v).csr n = v := by
  simp [State.csr_setCsr]

/-- A RAM byte after a byte write; past the end of RAM nothing is written (R71, R72). -/
theorem State.ramByte_setRamByte (a x : Nat) (b : Byte) :
    (s.setRamByte a b).ramByte x = if x = a ∧ inRam x = true then b else s.ramByte x := by
  unfold State.setRamByte State.ramByte
  by_cases hx : inRam x = true
  · by_cases he : x = a
    · subst he; simp [hx, Sparse.get_set]
    · by_cases ha : inRam a = true <;> simp [hx, he, ha, Sparse.get_set]
  · simp [hx]

@[simp] theorem State.ramByte_outside {x : Nat} (h : inRam x = false) : s.ramByte x = 0#8 := by
  simp [State.ramByte, h]

/-! ## Canonical forms -/

theorem csrsWf_setCsr (n : CsrIndex) (v : Word) (h : CsrFile.wf s.csrs = true) :
    CsrFile.wf (s.setCsr n v).csrs = true :=
  Sparse.wf_set h (Nat.zero_le _) n.isLt

theorem memWf_setRamByte (a : Nat) (b : Byte) (h : Memory.wf s.mem = true) :
    Memory.wf (s.setRamByte a b).mem = true := by
  unfold State.setRamByte
  split
  · rename_i ha
    simp only [inRam, Bool.and_eq_true, decide_eq_true_eq] at ha
    exact Sparse.wf_set h ha.1 ha.2
  · exact h

/-! ## setRamBytes: byte k of the value at a + k, for k below n, inside RAM -/

variable (a : Nat) (v : Word) (n : Nat)

@[simp] theorem State.setRamBytes_regs : (s.setRamBytes a v n).regs = s.regs := by
  induction n <;> simp_all [State.setRamBytes]
@[simp] theorem State.setRamBytes_pc : (s.setRamBytes a v n).pc = s.pc := by
  induction n <;> simp_all [State.setRamBytes]
@[simp] theorem State.setRamBytes_csrs : (s.setRamBytes a v n).csrs = s.csrs := by
  induction n <;> simp_all [State.setRamBytes]
@[simp] theorem State.setRamBytes_resv : (s.setRamBytes a v n).resv = s.resv := by
  induction n <;> simp_all [State.setRamBytes]
@[simp] theorem State.setRamBytes_exc : (s.setRamBytes a v n).exc = s.exc := by
  induction n <;> simp_all [State.setRamBytes]
@[simp] theorem State.setRamBytes_console : (s.setRamBytes a v n).console = s.console := by
  induction n <;> simp_all [State.setRamBytes]
@[simp] theorem State.setRamBytes_hostIn : (s.setRamBytes a v n).hostIn = s.hostIn := by
  induction n <;> simp_all [State.setRamBytes]
@[simp] theorem State.setRamBytes_consOut : (s.setRamBytes a v n).consOut = s.consOut := by
  induction n <;> simp_all [State.setRamBytes]
@[simp] theorem State.setRamBytes_reg (j : Reg) : (s.setRamBytes a v n).reg j = s.reg j := by
  induction n <;> simp_all [State.setRamBytes]
@[simp] theorem State.setRamBytes_csr (m : CsrIndex) : (s.setRamBytes a v n).csr m = s.csr m := by
  induction n <;> simp_all [State.setRamBytes]

/-- A RAM byte after a write of n bytes (R61, R72). -/
theorem State.ramByte_setRamBytes (x : Nat) :
    (s.setRamBytes a v n).ramByte x =
      if a ≤ x ∧ x < a + n ∧ inRam x = true then byteOf v (x - a) else s.ramByte x := by
  induction n with
  | zero => simp [State.setRamBytes]; omega
  | succ n ih =>
    rw [State.setRamBytes, State.ramByte_setRamByte, ih]
    by_cases hx : inRam x = true
    · by_cases he : x = a + n
      · subst he; simp [hx]
      · by_cases hr : a ≤ x ∧ x < a + n
        · rw [if_neg (by tauto), if_pos ⟨hr.1, hr.2, hx⟩, if_pos ⟨hr.1, by omega, hx⟩]
        · rw [if_neg (by tauto), if_neg (by tauto), if_neg (by omega)]
    · simp [hx]

theorem memWf_setRamBytes (h : Memory.wf s.mem = true) :
    Memory.wf (s.setRamBytes a v n).mem = true := by
  induction n with
  | zero => exact h
  | succ n ih => exact memWf_setRamByte _ _ _ ih

/-! ## Reset -/

theorem csrsWf_resetWith (misa mvendorid mtvec : Word) :
    CsrFile.wf (State.resetWith misa mvendorid mtvec).csrs = true := by
  have h0 : Sparse.wf 0#32 4096 0 ([] : List (Nat × Word)) = true := rfl
  exact Sparse.wf_set (Sparse.wf_set (Sparse.wf_set h0 (by decide) (by decide)) (by decide) (by decide))
    (by decide) (by decide)

theorem memWf_resetWith (misa mvendorid mtvec : Word) :
    Memory.wf (State.resetWith misa mvendorid mtvec).mem = true := rfl

theorem State.resetWith_reg (misa mvendorid mtvec : Word) (r : Reg) :
    (State.resetWith misa mvendorid mtvec).reg r = 0#32 := by
  simp [State.reg, State.resetWith]

/-- The CSR file at reset: 0 but for misa, mvendorid and mtvec (R28, R351). -/
theorem State.resetWith_csr (misa mvendorid mtvec : Word) (n : CsrIndex) :
    (State.resetWith misa mvendorid mtvec).csr n =
      if n = Csr.mtvec then mtvec else if n = Csr.mvendorid then mvendorid
      else if n = Csr.misa then misa else 0#32 := by
  have h : ∀ k : CsrIndex, (n.toNat = k.toNat) = (n = k) := fun k => by simp [BitVec.toNat_inj]
  have h1 := h Csr.mtvec
  have h2 := h Csr.mvendorid
  have h3 := h Csr.misa
  simp only [Csr.mtvec, Csr.mvendorid, Csr.misa, BitVec.toNat_ofNat] at h1 h2 h3
  norm_num at h1 h2 h3
  simp only [State.csr, State.resetWith, Sparse.get_set, h1, h2, h3, Sparse.get_nil]
  rfl

/-- The three open parameters' constraint of R8 holds of the map's values (R7). -/
theorem map_constraints : Config.ramEnd ≤ 2 ^ 32 ∧ inRam Config.consoleAddr.toNat = false ∧
    inRam Config.entry.toNat = true := by decide

end Sys2Proof.Machine
end

