-- ==== Sys2Proof/Laws/Ops.lean ====
section
/-! SUPPORT. What each shared operation does, once: the end of the cycle, the console, the bus. -/

namespace Sys2Proof.Machine

/-! ## The counter update (R330) -/

/-- A CSR's value after the counter update. -/
def counted (s : State) (n : CsrIndex) : Word :=
  if n = Csr.mcycle ∧ (s.csr Csr.inhibit).getLsbD 0 = true then s.csr n + 1#32
  else if n = Csr.minstret ∧ (s.csr Csr.inhibit).getLsbD 2 = true then s.csr n + 1#32
  else s.csr n

theorem counterUpdate_csr (s : State) (n : CsrIndex) : (counterUpdate s).csr n = counted s n := by
  have h1 : Csr.minstret ≠ Csr.mcycle := by decide
  unfold counterUpdate counted
  by_cases c : (s.csr Csr.inhibit).getLsbD 0 = true <;>
    by_cases i : (s.csr Csr.inhibit).getLsbD 2 = true <;>
    simp only [c, i, and_true, and_false, if_true, if_false, State.csr_setCsr, h1, Bool.false_eq_true]
  · by_cases hc : n = Csr.mcycle
    · subst hc; simp [h1.symm]
    · by_cases hi : n = Csr.minstret
      · subst hi; simp [h1]
      · simp [hc, hi]
  · by_cases hc : n = Csr.mcycle
    · subst hc; simp
    · simp [hc]
  · by_cases hi : n = Csr.minstret
    · subst hi; simp
    · simp [hi]

/-! The counter update changes CSRs only. -/

@[simp] theorem counterUpdate_regs (s : State) : (counterUpdate s).regs = s.regs := by
  unfold counterUpdate; dsimp only; split_ifs <;> rfl
@[simp] theorem counterUpdate_pc (s : State) : (counterUpdate s).pc = s.pc := by
  unfold counterUpdate; dsimp only; split_ifs <;> rfl
@[simp] theorem counterUpdate_resv (s : State) : (counterUpdate s).resv = s.resv := by
  unfold counterUpdate; dsimp only; split_ifs <;> rfl
@[simp] theorem counterUpdate_exc (s : State) : (counterUpdate s).exc = s.exc := by
  unfold counterUpdate; dsimp only; split_ifs <;> rfl
@[simp] theorem counterUpdate_mem (s : State) : (counterUpdate s).mem = s.mem := by
  unfold counterUpdate; dsimp only; split_ifs <;> rfl
@[simp] theorem counterUpdate_console (s : State) : (counterUpdate s).console = s.console := by
  unfold counterUpdate; dsimp only; split_ifs <;> rfl
@[simp] theorem counterUpdate_hostIn (s : State) : (counterUpdate s).hostIn = s.hostIn := by
  unfold counterUpdate; dsimp only; split_ifs <;> rfl
@[simp] theorem counterUpdate_consOut (s : State) : (counterUpdate s).consOut = s.consOut := by
  unfold counterUpdate; dsimp only; split_ifs <;> rfl

theorem csrsWf_counterUpdate {s : State} (h : CsrFile.wf s.csrs = true) :
    CsrFile.wf (counterUpdate s).csrs = true := by
  unfold counterUpdate
  by_cases c : (s.csr Csr.inhibit).getLsbD 0 = true <;>
    by_cases i : (s.csr Csr.inhibit).getLsbD 2 = true <;> simp only [c, i, if_true] <;>
    first
    | exact csrsWf_setCsr _ _ _ (csrsWf_setCsr _ _ _ h)
    | exact csrsWf_setCsr _ _ _ h
    | exact h

/-! ## The end of the cycle (R44 to R47, R305) -/

/-- pc after a cycle: npc, or the trap target. -/
def pcAfter (exc : Option Cause) (npc : Word) (s : State) : Word :=
  match exc with
  | none => npc
  | some c => trapTarget (s.csr Csr.mtvec) c

/-- A CSR after a cycle: counted, and on a trap mepc and mcause written. -/
def csrAfter (exc : Option Cause) (npc : Word) (s : State) (n : CsrIndex) : Word :=
  match exc with
  | none => counted s n
  | some c => if n = Csr.mepc then npc else if n = Csr.mcause then c.code else counted s n

theorem counted_other (s : State) {n : CsrIndex} (h1 : n ≠ Csr.mcycle) (h2 : n ≠ Csr.minstret) :
    counted s n = s.csr n := by simp [counted, h1, h2]

@[simp] theorem counted_setExc (s : State) (e : Option Cause) (n : CsrIndex) :
    counted (s.setExc e) n = counted s n := rfl

variable (e : Option Cause) (npc : Word) (s : State)

@[simp] theorem cycleEnd_pc : (cycleEnd e npc s).pc = pcAfter e npc s := by
  have hn : Csr.mtvec ≠ Csr.mepc := by decide
  have hm : counted s Csr.mtvec = s.csr Csr.mtvec := counted_other _ (by decide) (by decide)
  cases e <;> simp [cycleEnd, trapDispatch, pcAfter, State.csr_setCsr, counterUpdate_csr, hn, hm]

theorem cycleEnd_csr (n : CsrIndex) : (cycleEnd e npc s).csr n = csrAfter e npc s n := by
  have hne : Csr.mepc ≠ Csr.mcause := by decide
  cases e with
  | none => simp [cycleEnd, trapDispatch, csrAfter, counterUpdate_csr]
  | some c =>
    simp only [cycleEnd, trapDispatch, counterUpdate_exc, csrAfter, State.setExc_exc,
      State.setExc_csr, State.csr_setCsr, State.setPc_csr, counterUpdate_csr, counted_setExc]
    by_cases h1 : n = Csr.mepc
    · subst h1; simp [hne]
    · simp [h1]

theorem csrsWf_cycleEnd (h : CsrFile.wf s.csrs = true) : CsrFile.wf (cycleEnd e npc s).csrs = true := by
  have hc : CsrFile.wf (counterUpdate (s.setExc e)).csrs = true := csrsWf_counterUpdate (s := s.setExc e) h
  unfold cycleEnd trapDispatch
  split
  · exact hc
  · exact csrsWf_setCsr _ _ _ (csrsWf_setCsr _ _ _ hc)

/-! The end of a cycle changes pc, CSRs and the pending exception only. -/

@[simp] theorem cycleEnd_regs : (cycleEnd e npc s).regs = s.regs := by
  cases e <;> simp [cycleEnd, trapDispatch]
@[simp] theorem cycleEnd_resv : (cycleEnd e npc s).resv = s.resv := by
  cases e <;> simp [cycleEnd, trapDispatch]
@[simp] theorem cycleEnd_exc : (cycleEnd e npc s).exc = none := by
  cases e <;> simp [cycleEnd, trapDispatch]
@[simp] theorem cycleEnd_mem : (cycleEnd e npc s).mem = s.mem := by
  cases e <;> simp [cycleEnd, trapDispatch]
@[simp] theorem cycleEnd_console : (cycleEnd e npc s).console = s.console := by
  cases e <;> simp [cycleEnd, trapDispatch]
@[simp] theorem cycleEnd_hostIn : (cycleEnd e npc s).hostIn = s.hostIn := by
  cases e <;> simp [cycleEnd, trapDispatch]
@[simp] theorem cycleEnd_consOut : (cycleEnd e npc s).consOut = s.consOut := by
  cases e <;> simp [cycleEnd, trapDispatch]
@[simp] theorem cycleEnd_reg (r : Reg) : (cycleEnd e npc s).reg r = s.reg r := by
  simp [State.reg]
@[simp] theorem cycleEnd_ramByte (a : Nat) : (cycleEnd e npc s).ramByte a = s.ramByte a := by
  simp [State.ramByte]

/-! ## The console (R77) -/

variable {s}

/-- A console read changes the console and the host's queue only. -/
theorem consoleRead_frame (s : State) :
    (consoleRead s).2 = s.setConsole (consoleRead s).2.console (consoleRead s).2.hostIn := by
  unfold consoleRead; split <;> rfl

/-- A host byte that is no newline joins the open line, or is dropped with the overflow flag set (R77). -/
theorem takeHostInput_byte {b : Byte} (hb : b ≠ newline) (l : List Byte) (o : Bool) (rest : List Byte) :
    takeHostInput l o (b :: rest) =
      if l.length < Config.consoleBufCap then takeHostInput (l ++ [b]) o rest
      else takeHostInput l true rest := by
  rw [takeHostInput.eq_def]; dsimp only; rw [if_neg hb]

/-- A newline closes a line that holds a byte, and its first byte is returned (R77). -/
theorem takeHostInput_line (c : Byte) (cs : List Byte) (o : Bool) (rest : List Byte) :
    takeHostInput (c :: cs) o (newline :: rest) = (c, ⟨[], cs, o⟩, rest) := rfl

/-- A newline that closes an empty line is passed over (R77). -/
theorem takeHostInput_emptyLine (o : Bool) (rest : List Byte) :
    takeHostInput [] o (newline :: rest) = takeHostInput [] o rest := rfl

/-- The room and the newlines of the console's buffers after the host's bytes are taken (R75, R77). -/
theorem takeHostInput_inv (l : List Byte) (o : Bool) (h : List Byte)
    (hl : l.length ≤ Config.consoleBufCap) (hn : newline ∉ l) :
    (takeHostInput l o h).2.1.lineAcc.length + (takeHostInput l o h).2.1.rxFifo.length
        ≤ Config.consoleBufCap ∧
      newline ∉ (takeHostInput l o h).2.1.lineAcc ++ (takeHostInput l o h).2.1.rxFifo := by
  induction h generalizing l o with
  | nil => simpa [takeHostInput] using ⟨hl, hn⟩
  | cons b rest ih =>
    unfold takeHostInput
    split
    · cases l with
      | nil => exact ih [] o hl hn
      | cons c cs => exact ⟨by simp at hl ⊢; omega, by simp at hn ⊢; exact hn.2⟩
    · split
      · exact ih _ _ (by simp; omega) (by simp_all [eq_comm])
      · exact ih _ _ hl hn

/-! ## The bus (R60 to R65) -/

theorem memRead_ram {a : Word} (h : inRam a.toNat = true) : memRead a s = some (s.ramWord a.toNat, s) := by
  simp [memRead, h]

theorem memRead_console :
    memRead Config.consoleAddr s = some ((consoleRead s).1.setWidth 32, (consoleRead s).2) := by
  have h : inRam Config.consoleAddr.toNat = false := by decide
  simp [memRead, h]

theorem memRead_unmapped {a : Word} (h : inRam a.toNat = false) (hc : a ≠ Config.consoleAddr) :
    memRead a s = none := by
  simp [memRead, h, hc]

/-- A bus read changes the console and the host's queue only. -/
theorem memRead_frame {a v : Word} {s' : State} (h : memRead a s = some (v, s')) :
    s' = s.setConsole s'.console s'.hostIn := by
  unfold memRead at h
  split at h
  · simp only [Option.some.injEq, Prod.mk.injEq] at h; rw [← h.2]; rfl
  · split at h
    · simp only [Option.some.injEq, Prod.mk.injEq] at h; rw [← h.2]; exact consoleRead_frame s
    · simp at h

theorem memWrite_ram {a : Word} {n : Nat} {v : Word} (h : inRam a.toNat = true) :
    memWrite a n v s = some (s.setRamBytes a.toNat v n) := by
  simp [memWrite, h]

theorem memWrite_console {n : Nat} {v : Word} :
    memWrite Config.consoleAddr n v s = some (s.emit (byteOf v 0)) := by
  have h : inRam Config.consoleAddr.toNat = false := by decide
  simp [memWrite, h, consoleWrite]

theorem memWrite_unmapped {a : Word} {n : Nat} {v : Word} (h : inRam a.toNat = false)
    (hc : a ≠ Config.consoleAddr) : memWrite a n v s = none := by
  simp [memWrite, h, hc]

/-- What a bus write does when it does not fault. -/
theorem memWrite_cases {a : Word} {n : Nat} {v : Word} {s' : State} (h : memWrite a n v s = some s') :
    (inRam a.toNat = true ∧ s' = s.setRamBytes a.toNat v n) ∨
      (inRam a.toNat = false ∧ a = Config.consoleAddr ∧ s' = s.emit (byteOf v 0)) := by
  unfold memWrite at h
  split at h
  · simp only [Option.some.injEq] at h; exact .inl ⟨‹_›, h.symm⟩
  · split at h
    · simp only [Option.some.injEq] at h; exact .inr ⟨by simp_all, ‹_›, h.symm⟩
    · simp at h

/-- A write where a read succeeded cannot fault (46_atomic.md R260(c)). -/
theorem memWrite_of_memRead {a v : Word} {s s' t : State} (n : Nat) (w : Word)
    (h : memRead a s = some (v, s')) : ∃ u, memWrite a n w t = some u := by
  unfold memRead at h
  unfold memWrite
  split at h
  · exact ⟨_, by rw [if_pos ‹_›]⟩
  · split at h
    · exact ⟨_, by rw [if_neg ‹_›, if_pos ‹_›]⟩
    · simp at h

theorem memWf_memWrite {a : Word} {n : Nat} {v : Word} {s' : State} (h : memWrite a n v s = some s')
    (hw : Memory.wf s.mem = true) : Memory.wf s'.mem = true := by
  rcases memWrite_cases h with ⟨_, rfl⟩ | ⟨_, _, rfl⟩
  · exact memWf_setRamBytes _ _ _ _ hw
  · exact hw

/-! ## The start of the cycle -/

@[simp] theorem beginCycle_reg (r : Reg) : (beginCycle s).reg r = s.reg r := by simp [beginCycle]
@[simp] theorem beginCycle_pc : (beginCycle s).pc = s.pc := rfl
@[simp] theorem beginCycle_csrs : (beginCycle s).csrs = s.csrs := rfl
@[simp] theorem beginCycle_csr (n : CsrIndex) : (beginCycle s).csr n = s.csr n := rfl
@[simp] theorem beginCycle_mem : (beginCycle s).mem = s.mem := rfl
@[simp] theorem beginCycle_ramByte (a : Nat) : (beginCycle s).ramByte a = s.ramByte a := rfl
@[simp] theorem beginCycle_resv : (beginCycle s).resv = s.resv := rfl
@[simp] theorem beginCycle_exc : (beginCycle s).exc = none := rfl
@[simp] theorem beginCycle_console : (beginCycle s).console = s.console := rfl
@[simp] theorem beginCycle_hostIn : (beginCycle s).hostIn = s.hostIn := rfl
@[simp] theorem beginCycle_consOut : (beginCycle s).consOut = s.consOut := rfl
@[simp] theorem beginCycle_slot0 : (beginCycle s).regs[0] = 0#32 := by simp [beginCycle]

end Sys2Proof.Machine
end

