-- ==== Sys2Proof/Laws/Exec.lean ====
section
/-! SUPPORT. What each shared operation of the meanings can answer, once (guards included), and running `core`. -/

namespace Sys2Proof.Machine

variable {s t : State}

theorem endCycle_next {e : Option Cause} {npc : Word} (h : endCycle e npc s = .next t) :
    t = cycleEnd e npc s := by
  cases h; rfl

/-- Taking an exception: mepc, pc, mcause and the counters, and nothing else (60_exceptions.md R302 to R305). -/
theorem takeException_next {c : Cause} (h : takeException c s = .next t) :
    (∀ r, t.reg r = s.reg r) ∧ t.pc = trapTarget (s.csr Csr.mtvec) c ∧
      (∀ n, t.csr n = if n = Csr.mepc then c.npc s.pc else if n = Csr.mcause then c.code else counted s n) ∧
      t.mem = s.mem ∧ t.resv = s.resv ∧ t.exc = none ∧ t.console = s.console ∧ t.hostIn = s.hostIn ∧
      t.consOut = s.consOut := by
  rw [endCycle_next h]
  exact ⟨fun _ => by simp, by simp [pcAfter], fun n => cycleEnd_csr _ _ _ n, by simp, by simp, by simp, by simp,
    by simp, by simp⟩

/-- Returning from one: pc, and nothing else but the counters (R320). -/
theorem returnFromException_next (h : returnFromException s = .next t) :
    (∀ r, t.reg r = s.reg r) ∧ t.pc = s.csr Csr.mepc ∧ (∀ n, t.csr n = counted s n) ∧
      t.mem = s.mem ∧ t.resv = s.resv ∧ t.exc = none ∧ t.console = s.console ∧ t.hostIn = s.hostIn ∧
      t.consOut = s.consOut := by
  rw [endCycle_next h]
  exact ⟨fun _ => by simp, by simp [pcAfter], fun n => cycleEnd_csr _ _ _ n, by simp, by simp, by simp, by simp,
    by simp, by simp⟩

theorem writeBack_eq (rd : Reg) (v : Word) (s : State) :
    writeBack rd v s = .next (cycleEnd none (s.pc + 4#32) (s.setReg rd v)) := by
  simp [writeBack, complete, endCycle]

theorem jumpAndLink_eq (rd : Reg) (v : Word) (s : State) :
    jumpAndLink rd v s = .next (cycleEnd none v (s.setReg rd (s.pc + 4#32))) := rfl

theorem branchIf_eq (c : Bool) (off : BitVec 13) (s : State) :
    branchIf c off s = .next (cycleEnd none (if c then s.pc + sext13 off else s.pc + 4#32) s) := by
  cases c <;> rfl

theorem csrAccess_eq (f : Word → Word → Word) (rd : Reg) (n : CsrIndex) (v : Word) (s : State) :
    csrAccess f rd n v s =
      .next (cycleEnd none (s.pc + 4#32) ((s.setReg rd (s.csr n)).setCsr n (f (s.csr n) v))) := by
  simp [csrAccess, complete, endCycle]

/-- A load answers what its bus read answers. -/
theorem loadInto_next {f : Word → Word} {rd : Reg} {ea : Word} (h : loadInto f rd ea s = .next t) :
    (memRead ea s = none ∧ t = cycleEnd (some .loadAccessFault) s.pc s) ∨
      ∃ v s', memRead ea s = some (v, s') ∧ t = cycleEnd none (s'.pc + 4#32) (s'.setReg rd (f v)) := by
  unfold loadInto at h
  cases hm : memRead ea s with
  | none => rw [hm] at h; exact .inl ⟨rfl, endCycle_next h⟩
  | some p =>
    rw [hm] at h
    exact .inr ⟨p.1, p.2, rfl, by simpa [complete] using endCycle_next h⟩

/-- A store answers what its bus write answers. -/
theorem storeFrom_next {n : Nat} {v ea : Word} (h : storeFrom n v ea s = .next t) :
    (memWrite ea n v s = none ∧ t = cycleEnd (some .storeAccessFault) s.pc s) ∨
      ∃ s', memWrite ea n v s = some s' ∧ t = cycleEnd none (s'.pc + 4#32) s' := by
  unfold storeFrom at h
  cases hm : memWrite ea n v s with
  | none => rw [hm] at h; exact .inl ⟨rfl, endCycle_next h⟩
  | some p => rw [hm] at h; exact .inr ⟨p, rfl, endCycle_next h⟩

/-- An AMO answers what its bus read answers: its write never faults (46_atomic.md R260(c)). -/
theorem amoUpdate_next {op : Word → Word → Word} {rd rs1 rs2 : Reg}
    (h : amoUpdate op rd rs1 rs2 s = .next t) :
    (memRead (s.reg rs1) s = none ∧ t = cycleEnd (some .loadAccessFault) s.pc s) ∨
      ∃ v s' s'', memRead (s.reg rs1) s = some (v, s') ∧
        memWrite (s.reg rs1) 4 (op v (s.reg rs2)) s' = some s'' ∧
        t = cycleEnd none (s''.pc + 4#32) (s''.setReg rd v) := by
  unfold amoUpdate at h
  cases hm : memRead (s.reg rs1) s with
  | none => simp only [hm] at h; exact .inl ⟨rfl, endCycle_next h⟩
  | some p =>
    obtain ⟨u, hu⟩ := memWrite_of_memRead (t := p.2) 4 (op p.1 (s.reg rs2)) hm
    simp only [hm, hu] at h
    exact .inr ⟨p.1, p.2, u, rfl, hu, by simpa [complete] using endCycle_next h⟩

/-- One more step of a run of `core`. -/
theorem core_run_succ (k : Nat) (h : step s = .next t) :
    Sys2Proof.core.run (k + 1) s = Sys2Proof.core.run k t := by
  have run_succ : ∀ (M : Host.Core) (k : Nat) (s t : M.State), M.step s = .next t →
      M.run (k + 1) s = M.run k t := fun M k s t h => by rw [Host.Core.run, h]
  exact run_succ Sys2Proof.core k s t h

end Sys2Proof.Machine
end

