-- ==== Sys2Proof/Laws/Numbers.lean ====
section
/-! SUPPORT. The model's bit operations in numbers: joins, slices, sign extension, the bytes of a word. -/

namespace Sys2Proof

/-- A join in numbers. -/
theorem toNat_append {m n : Nat} (x : BitVec m) (y : BitVec n) :
    (x ++ y).toNat = x.toNat * 2 ^ n + y.toNat := by
  simp only [BitVec.toNat_append]
  rw [Nat.shiftLeft_eq, mul_comm, Nat.two_pow_add_eq_or_of_lt y.isLt]

/-- A slice in numbers. -/
theorem toNat_slice {w : Nat} (x : BitVec w) (a n : Nat) :
    (x.extractLsb' a n).toNat = x.toNat / 2 ^ a % 2 ^ n := by
  rw [BitVec.extractLsb'_toNat, Nat.shiftRight_eq_div_pow]

@[simp] theorem regBits_toNat (r : Reg) : (regBits r).toNat = r.val := rfl

/-- Bit 0 of a bit vector. -/
theorem getLsbD_zero_iff {n : Nat} (x : BitVec n) : x.getLsbD 0 = false ↔ x.toNat % 2 = 0 := by
  rw [BitVec.getLsbD, Nat.testBit_zero]; simp

/-- Sign extension to a word is the same integer. -/
theorem signExtend_eq_ofInt {n : Nat} (h : n ≤ 32) (x : BitVec n) :
    x.signExtend 32 = BitVec.ofInt 32 x.toInt := by
  apply BitVec.eq_of_toInt_eq
  rw [BitVec.toInt_signExtend_of_le h, BitVec.toInt_ofInt]
  have h1 := BitVec.le_toInt (x := x)
  have h2 := BitVec.toInt_lt (x := x)
  have h3 : (2 : Int) ^ (n - 1) ≤ 2 ^ 31 := by
    exact_mod_cast Nat.pow_le_pow_right (by decide) (by omega : n - 1 ≤ 31)
  rw [Int.bmod_eq_of_le] <;> push_cast <;> omega

/-- A word plus a sign-extended immediate is the sum of the integers modulo 2^32 (42_load_store.md R190). -/
theorem add_signExtend {n : Nat} (h : n ≤ 32) (x : Word) (imm : BitVec n) :
    x + imm.signExtend 32 = BitVec.ofInt 32 (x.toNat + imm.toInt) := by
  rw [signExtend_eq_ofInt h, BitVec.ofInt_add]; congr 1; simp

namespace Machine

/-- RAM's range (20_memory.md R80). -/
theorem inRam_iff (a : Nat) : inRam a = true ↔ 0x80000000 ≤ a ∧ a < 0x84000000 := by
  unfold inRam; rw [Bool.and_eq_true, decide_eq_true_eq, decide_eq_true_eq]; rfl

/-- Byte k of a word in numbers (R66). -/
theorem byteOf_eq (v : Word) (k : Nat) : byteOf v k = BitVec.ofNat 8 (v.toNat / 256 ^ k) := by
  apply BitVec.eq_of_toNat_eq
  rw [byteOf, toNat_slice, BitVec.toNat_ofNat, Nat.pow_mul]

/-- The four bytes of a bus read in numbers (R60). -/
theorem ramWord_eq (s : State) (a : Nat) :
    s.ramWord a = BitVec.ofNat 32 ((s.ramByte a).toNat + (s.ramByte (a + 1)).toNat * 2 ^ 8 +
      (s.ramByte (a + 2)).toNat * 2 ^ 16 + (s.ramByte (a + 3)).toNat * 2 ^ 24) := by
  apply BitVec.eq_of_toNat_eq
  have h0 := (s.ramByte a).isLt
  have h1 := (s.ramByte (a + 1)).isLt
  have h2 := (s.ramByte (a + 2)).isLt
  have h3 := (s.ramByte (a + 3)).isLt
  unfold State.ramWord wordOfBytes
  repeat rw [toNat_append]
  simp; omega

/-- A console byte on the bus, zero-extended (R60). -/
theorem setWidth_byte (b : Byte) : b.setWidth 32 = BitVec.ofNat 32 b.toNat := by
  apply BitVec.eq_of_toNat_eq; simp

/-- The trap target in numbers (60_exceptions.md R306). -/
theorem trapTarget_eq (m : Word) (c : Cause) :
    trapTarget m c = if m.toNat % 4 = 0 then m
      else BitVec.ofNat 32 (m.toNat / 4 * 4 + c.code.toNat * 4) := by
  have h : m.extractLsb' 0 2 = 0#2 ↔ m.toNat % 4 = 0 := by
    rw [← BitVec.toNat_inj, toNat_slice]; simp
  unfold trapTarget
  simp only [h]
  split
  · rfl
  · apply BitVec.eq_of_toNat_eq
    have := m.isLt
    rw [BitVec.toNat_add, toNat_append, toNat_slice]
    cases c <;> simp [Cause.code] <;> omega

/-- An arithmetic right shift is a division that rounds down (40_alu.md R151). -/
theorem sshiftRight_eq (x : Word) (n : Nat) : x.sshiftRight n = BitVec.ofInt 32 (x.toInt / 2 ^ n) := by
  apply BitVec.eq_of_toInt_eq
  rw [BitVec.toInt_sshiftRight, BitVec.toInt_ofInt, Int.shiftRight_eq_div_pow]
  have h1 := BitVec.le_toInt (x := x)
  have h2 := BitVec.toInt_lt (x := x)
  have hp : (0 : Int) < 2 ^ n := by positivity
  norm_num at h1 h2
  have h3 : -2147483648 ≤ x.toInt / 2 ^ n := by rw [Int.le_ediv_iff_mul_le hp]; nlinarith
  have h4 : x.toInt / 2 ^ n < 2147483648 := by rw [Int.ediv_lt_iff_lt_mul hp]; nlinarith
  symm
  apply Int.bmod_eq_of_le <;> norm_num <;> assumption

end Machine

end Sys2Proof
end

