-- ==== Sys2Proof/Laws/PerInstr.lean ====
section
/-! SUPPORT. Per instruction: the encoder puts the opcode of the instruction's class in bits 6:0 (30_encoding.md
R101, R112), so that a word of one class never falls to another. -/

namespace Sys2Proof.Laws.EncodeOpcode

/-- The opcode of the instruction's class (R112). -/
def classOpcode : Instr → BitVec 7
  | .lui .. => 0b0110111#7
  | .auipc .. => 0b0010111#7
  | .addi .. | .slti .. | .sltiu .. | .xori .. | .ori .. | .andi .. | .slli .. | .srli ..
  | .srai .. => 0b0010011#7
  | .add .. | .sub .. | .sll .. | .slt .. | .sltu .. | .xor .. | .srl .. | .sra .. | .or ..
  | .and .. | .mul .. | .mulh .. | .mulhsu .. | .mulhu .. | .div .. | .divu .. | .rem ..
  | .remu .. => 0b0110011#7
  | .lb .. | .lh .. | .lw .. | .lbu .. | .lhu .. => 0b0000011#7
  | .sb .. | .sh .. | .sw .. => 0b0100011#7
  | .jal .. => 0b1101111#7
  | .jalr .. => 0b1100111#7
  | .beq .. | .bne .. | .blt .. | .bge .. | .bltu .. | .bgeu .. => 0b1100011#7
  | .fence .. | .fenceI .. | .miscMemRsv01x .. | .miscMemRsv1xx .. => 0b0001111#7
  | .ecall | .ebreak | .mret | .csrrw .. | .csrrs .. | .csrrc .. | .csrrwi .. | .csrrsi ..
  | .csrrci .. => 0b1110011#7
  | .lrW .. | .scW .. | .amoswapW .. | .amoaddW .. | .amoxorW .. | .amoandW .. | .amoorW ..
  | .amominW .. | .amomaxW .. | .amominuW .. | .amomaxuW .. => 0b0101111#7

/-- Bits 6:0 of the instruction's word are its class's opcode. -/
def Statement (i : Instr) : Prop := opcodeOf (encode i) = classOpcode i

theorem lui (rd : Reg) (imm20 : BitVec 20) : Statement (.lui rd imm20) := opcodeOf_encodeU _ _ _
theorem auipc (rd : Reg) (imm20 : BitVec 20) : Statement (.auipc rd imm20) := opcodeOf_encodeU _ _ _
theorem addi (rd rs1 : Reg) (imm : BitVec 12) : Statement (.addi rd rs1 imm) := opcodeOf_encodeI _ _ _ _ _
theorem slti (rd rs1 : Reg) (imm : BitVec 12) : Statement (.slti rd rs1 imm) := opcodeOf_encodeI _ _ _ _ _
theorem sltiu (rd rs1 : Reg) (imm : BitVec 12) : Statement (.sltiu rd rs1 imm) := opcodeOf_encodeI _ _ _ _ _
theorem xori (rd rs1 : Reg) (imm : BitVec 12) : Statement (.xori rd rs1 imm) := opcodeOf_encodeI _ _ _ _ _
theorem ori (rd rs1 : Reg) (imm : BitVec 12) : Statement (.ori rd rs1 imm) := opcodeOf_encodeI _ _ _ _ _
theorem andi (rd rs1 : Reg) (imm : BitVec 12) : Statement (.andi rd rs1 imm) := opcodeOf_encodeI _ _ _ _ _
theorem slli (rd rs1 : Reg) (shamt : BitVec 5) : Statement (.slli rd rs1 shamt) :=
  opcodeOf_encodeShift _ _ _ _ _
theorem srli (rd rs1 : Reg) (shamt : BitVec 5) : Statement (.srli rd rs1 shamt) :=
  opcodeOf_encodeShift _ _ _ _ _
theorem srai (rd rs1 : Reg) (shamt : BitVec 5) : Statement (.srai rd rs1 shamt) :=
  opcodeOf_encodeShift _ _ _ _ _
theorem add (rd rs1 rs2 : Reg) : Statement (.add rd rs1 rs2) := opcodeOf_encodeR _ _ _ _ _ _
theorem sub (rd rs1 rs2 : Reg) : Statement (.sub rd rs1 rs2) := opcodeOf_encodeR _ _ _ _ _ _
theorem sll (rd rs1 rs2 : Reg) : Statement (.sll rd rs1 rs2) := opcodeOf_encodeR _ _ _ _ _ _
theorem slt (rd rs1 rs2 : Reg) : Statement (.slt rd rs1 rs2) := opcodeOf_encodeR _ _ _ _ _ _
theorem sltu (rd rs1 rs2 : Reg) : Statement (.sltu rd rs1 rs2) := opcodeOf_encodeR _ _ _ _ _ _
theorem xor (rd rs1 rs2 : Reg) : Statement (.xor rd rs1 rs2) := opcodeOf_encodeR _ _ _ _ _ _
theorem srl (rd rs1 rs2 : Reg) : Statement (.srl rd rs1 rs2) := opcodeOf_encodeR _ _ _ _ _ _
theorem sra (rd rs1 rs2 : Reg) : Statement (.sra rd rs1 rs2) := opcodeOf_encodeR _ _ _ _ _ _
theorem or (rd rs1 rs2 : Reg) : Statement (.or rd rs1 rs2) := opcodeOf_encodeR _ _ _ _ _ _
theorem and (rd rs1 rs2 : Reg) : Statement (.and rd rs1 rs2) := opcodeOf_encodeR _ _ _ _ _ _
theorem mul (rd rs1 rs2 : Reg) : Statement (.mul rd rs1 rs2) := opcodeOf_encodeR _ _ _ _ _ _
theorem mulh (rd rs1 rs2 : Reg) : Statement (.mulh rd rs1 rs2) := opcodeOf_encodeR _ _ _ _ _ _
theorem mulhsu (rd rs1 rs2 : Reg) : Statement (.mulhsu rd rs1 rs2) := opcodeOf_encodeR _ _ _ _ _ _
theorem mulhu (rd rs1 rs2 : Reg) : Statement (.mulhu rd rs1 rs2) := opcodeOf_encodeR _ _ _ _ _ _
theorem div (rd rs1 rs2 : Reg) : Statement (.div rd rs1 rs2) := opcodeOf_encodeR _ _ _ _ _ _
theorem divu (rd rs1 rs2 : Reg) : Statement (.divu rd rs1 rs2) := opcodeOf_encodeR _ _ _ _ _ _
theorem rem (rd rs1 rs2 : Reg) : Statement (.rem rd rs1 rs2) := opcodeOf_encodeR _ _ _ _ _ _
theorem remu (rd rs1 rs2 : Reg) : Statement (.remu rd rs1 rs2) := opcodeOf_encodeR _ _ _ _ _ _
theorem lb (rd rs1 : Reg) (imm : BitVec 12) : Statement (.lb rd rs1 imm) := opcodeOf_encodeI _ _ _ _ _
theorem lh (rd rs1 : Reg) (imm : BitVec 12) : Statement (.lh rd rs1 imm) := opcodeOf_encodeI _ _ _ _ _
theorem lw (rd rs1 : Reg) (imm : BitVec 12) : Statement (.lw rd rs1 imm) := opcodeOf_encodeI _ _ _ _ _
theorem lbu (rd rs1 : Reg) (imm : BitVec 12) : Statement (.lbu rd rs1 imm) := opcodeOf_encodeI _ _ _ _ _
theorem lhu (rd rs1 : Reg) (imm : BitVec 12) : Statement (.lhu rd rs1 imm) := opcodeOf_encodeI _ _ _ _ _
theorem sb (rs1 rs2 : Reg) (imm : BitVec 12) : Statement (.sb rs1 rs2 imm) := opcodeOf_encodeS _ _ _ _
theorem sh (rs1 rs2 : Reg) (imm : BitVec 12) : Statement (.sh rs1 rs2 imm) := opcodeOf_encodeS _ _ _ _
theorem sw (rs1 rs2 : Reg) (imm : BitVec 12) : Statement (.sw rs1 rs2 imm) := opcodeOf_encodeS _ _ _ _
theorem jal (rd : Reg) (offset : BitVec 21) : Statement (.jal rd offset) := opcodeOf_encodeJ _ _
theorem jalr (rd rs1 : Reg) (imm : BitVec 12) : Statement (.jalr rd rs1 imm) := opcodeOf_encodeI _ _ _ _ _
theorem beq (rs1 rs2 : Reg) (offset : BitVec 13) : Statement (.beq rs1 rs2 offset) := opcodeOf_encodeB _ _ _ _
theorem bne (rs1 rs2 : Reg) (offset : BitVec 13) : Statement (.bne rs1 rs2 offset) := opcodeOf_encodeB _ _ _ _
theorem blt (rs1 rs2 : Reg) (offset : BitVec 13) : Statement (.blt rs1 rs2 offset) := opcodeOf_encodeB _ _ _ _
theorem bge (rs1 rs2 : Reg) (offset : BitVec 13) : Statement (.bge rs1 rs2 offset) := opcodeOf_encodeB _ _ _ _
theorem bltu (rs1 rs2 : Reg) (offset : BitVec 13) : Statement (.bltu rs1 rs2 offset) :=
  opcodeOf_encodeB _ _ _ _
theorem bgeu (rs1 rs2 : Reg) (offset : BitVec 13) : Statement (.bgeu rs1 rs2 offset) :=
  opcodeOf_encodeB _ _ _ _
theorem fence (fm pred succ : BitVec 4) (rs1 rd : Reg) : Statement (.fence fm pred succ rs1 rd) :=
  opcodeOf_encodeFence _ _ _ _ _
theorem fenceI (immField : BitVec 12) (rs1 rd : Reg) : Statement (.fenceI immField rs1 rd) :=
  opcodeOf_encodeI _ _ _ _ _
theorem miscMemRsv01x (funct3 : BitVec 3) (immField : BitVec 12) (rs1 rd : Reg) : Statement (.miscMemRsv01x funct3 immField rs1 rd) :=
  opcodeOf_encodeI _ _ _ _ _
theorem miscMemRsv1xx (funct3 : BitVec 3) (immField : BitVec 12) (rs1 rd : Reg) : Statement (.miscMemRsv1xx funct3 immField rs1 rd) :=
  opcodeOf_encodeI _ _ _ _ _
theorem ecall : Statement .ecall := rfl
theorem ebreak : Statement .ebreak := rfl
theorem mret : Statement .mret := rfl
theorem csrrw (rd : Reg) (csr : CsrIndex) (rs1 : Reg) : Statement (.csrrw rd csr rs1) :=
  opcodeOf_encodeI _ _ _ _ _
theorem csrrs (rd : Reg) (csr : CsrIndex) (rs1 : Reg) : Statement (.csrrs rd csr rs1) :=
  opcodeOf_encodeI _ _ _ _ _
theorem csrrc (rd : Reg) (csr : CsrIndex) (rs1 : Reg) : Statement (.csrrc rd csr rs1) :=
  opcodeOf_encodeI _ _ _ _ _
theorem csrrwi (rd : Reg) (csr : CsrIndex) (zimm : BitVec 5) : Statement (.csrrwi rd csr zimm) :=
  opcodeOf_encodeCsrI _ _ _ _
theorem csrrsi (rd : Reg) (csr : CsrIndex) (zimm : BitVec 5) : Statement (.csrrsi rd csr zimm) :=
  opcodeOf_encodeCsrI _ _ _ _
theorem csrrci (rd : Reg) (csr : CsrIndex) (zimm : BitVec 5) : Statement (.csrrci rd csr zimm) :=
  opcodeOf_encodeCsrI _ _ _ _
theorem lrW (aq rl : Bool) (rd rs1 rs2 : Reg) : Statement (.lrW aq rl rd rs1 rs2) :=
  opcodeOf_encodeAmo _ _ _ _ _ _
theorem scW (aq rl : Bool) (rd rs1 rs2 : Reg) : Statement (.scW aq rl rd rs1 rs2) :=
  opcodeOf_encodeAmo _ _ _ _ _ _
theorem amoswapW (aq rl : Bool) (rd rs1 rs2 : Reg) : Statement (.amoswapW aq rl rd rs1 rs2) :=
  opcodeOf_encodeAmo _ _ _ _ _ _
theorem amoaddW (aq rl : Bool) (rd rs1 rs2 : Reg) : Statement (.amoaddW aq rl rd rs1 rs2) :=
  opcodeOf_encodeAmo _ _ _ _ _ _
theorem amoxorW (aq rl : Bool) (rd rs1 rs2 : Reg) : Statement (.amoxorW aq rl rd rs1 rs2) :=
  opcodeOf_encodeAmo _ _ _ _ _ _
theorem amoandW (aq rl : Bool) (rd rs1 rs2 : Reg) : Statement (.amoandW aq rl rd rs1 rs2) :=
  opcodeOf_encodeAmo _ _ _ _ _ _
theorem amoorW (aq rl : Bool) (rd rs1 rs2 : Reg) : Statement (.amoorW aq rl rd rs1 rs2) :=
  opcodeOf_encodeAmo _ _ _ _ _ _
theorem amominW (aq rl : Bool) (rd rs1 rs2 : Reg) : Statement (.amominW aq rl rd rs1 rs2) :=
  opcodeOf_encodeAmo _ _ _ _ _ _
theorem amomaxW (aq rl : Bool) (rd rs1 rs2 : Reg) : Statement (.amomaxW aq rl rd rs1 rs2) :=
  opcodeOf_encodeAmo _ _ _ _ _ _
theorem amominuW (aq rl : Bool) (rd rs1 rs2 : Reg) : Statement (.amominuW aq rl rd rs1 rs2) :=
  opcodeOf_encodeAmo _ _ _ _ _ _
theorem amomaxuW (aq rl : Bool) (rd rs1 rs2 : Reg) : Statement (.amomaxuW aq rl rd rs1 rs2) :=
  opcodeOf_encodeAmo _ _ _ _ _ _

end Sys2Proof.Laws.EncodeOpcode
end

