-- ==== Sys2Proof/Tests/Slice0.lean ====
section
/-! SUPPORT. The model's own tests. Expected results come from the spec: its vectors (95_test_vectors.md, named in each
comment), its worked examples S1 to S9, and words written out from the formats of 30_encoding.md R102. The last part
shows, for each statement with hypotheses, a state and operands that meet them. -/

namespace Sys2Proof.Tests

open Sys2Proof.Machine Sys2Proof.Claims

/-! ## WellFormed: an ill-formed term for each check -/

theorem test_wf_refuses_odd_jal : (Instr.jal 1 0x1#21).wf = false := by decide
theorem test_wf_refuses_odd_branches :
    (Instr.beq 1 2 0x1#13).wf = false ∧ (Instr.bne 1 2 0x3#13).wf = false ∧
    (Instr.blt 1 2 0x1FFF#13).wf = false ∧ (Instr.bge 1 2 0x5#13).wf = false ∧
    (Instr.bltu 1 2 0x7#13).wf = false ∧ (Instr.bgeu 1 2 0x9#13).wf = false := by decide
theorem test_wf_refuses_a_rsv01x_of_another_row :
    (Instr.miscMemRsv01x 0#3 0#12 0 0).wf = false ∧ (Instr.miscMemRsv01x 1#3 0#12 0 0).wf = false ∧
    (Instr.miscMemRsv01x 4#3 0#12 0 0).wf = false ∧ (Instr.miscMemRsv01x 7#3 0#12 0 0).wf = false := by decide
theorem test_wf_refuses_a_rsv1xx_of_another_row :
    (Instr.miscMemRsv1xx 0#3 0#12 0 0).wf = false ∧ (Instr.miscMemRsv1xx 1#3 0#12 0 0).wf = false ∧
    (Instr.miscMemRsv1xx 2#3 0#12 0 0).wf = false ∧ (Instr.miscMemRsv1xx 3#3 0#12 0 0).wf = false := by decide

/-! ## Decoding: every constructor, from the words of 95_test_vectors.md with the operands of its assembly text -/

theorem test_decode_upper :
    decodeTableWord 32 0xFFFFF2B7 = some (.lui 5 0xFFFFF#20) ∧
    decodeTableWord 32 0x00001297 = some (.auipc 5 0x1#20) := by decide
theorem test_decode_opImm :
    decodeTableWord 32 0xFFF28313 = some (.addi 6 5 0xFFF#12) ∧
    decodeTableWord 32 0xFFF2A313 = some (.slti 6 5 0xFFF#12) ∧
    decodeTableWord 32 0xFFF2B313 = some (.sltiu 6 5 0xFFF#12) ∧
    decodeTableWord 32 0xFFF2C313 = some (.xori 6 5 0xFFF#12) ∧
    decodeTableWord 32 0x8002E313 = some (.ori 6 5 0x800#12) ∧
    decodeTableWord 32 0x0FF2F313 = some (.andi 6 5 0xFF#12) ∧
    decodeTableWord 32 0x01F29313 = some (.slli 6 5 0x1F#5) ∧
    decodeTableWord 32 0x01F2D313 = some (.srli 6 5 0x1F#5) ∧
    decodeTableWord 32 0x41F2D313 = some (.srai 6 5 0x1F#5) := by decide
theorem test_decode_op :
    decodeTableWord 32 0x006283B3 = some (.add 7 5 6) ∧
    decodeTableWord 32 0x406283B3 = some (.sub 7 5 6) ∧
    decodeTableWord 32 0x006293B3 = some (.sll 7 5 6) ∧
    decodeTableWord 32 0x0062A3B3 = some (.slt 7 5 6) ∧
    decodeTableWord 32 0x0062B3B3 = some (.sltu 7 5 6) ∧
    decodeTableWord 32 0x0062C3B3 = some (.xor 7 5 6) ∧
    decodeTableWord 32 0x0062D3B3 = some (.srl 7 5 6) ∧
    decodeTableWord 32 0x4062D3B3 = some (.sra 7 5 6) ∧
    decodeTableWord 32 0x0062E3B3 = some (.or 7 5 6) ∧
    decodeTableWord 32 0x0062F3B3 = some (.and 7 5 6) := by decide
theorem test_decode_mulDiv :
    decodeTableWord 32 0x026283B3 = some (.mul 7 5 6) ∧
    decodeTableWord 32 0x026293B3 = some (.mulh 7 5 6) ∧
    decodeTableWord 32 0x0262A3B3 = some (.mulhsu 7 5 6) ∧
    decodeTableWord 32 0x0262B3B3 = some (.mulhu 7 5 6) ∧
    decodeTableWord 32 0x0262C3B3 = some (.div 7 5 6) ∧
    decodeTableWord 32 0x0202D3B3 = some (.divu 7 5 0) ∧
    decodeTableWord 32 0x0262E3B3 = some (.rem 7 5 6) ∧
    decodeTableWord 32 0x0202F3B3 = some (.remu 7 5 0) := by decide
theorem test_decode_load :
    decodeTableWord 32 0x00058503 = some (.lb 10 11 0x0#12) ∧
    decodeTableWord 32 0x00259503 = some (.lh 10 11 0x2#12) ∧
    decodeTableWord 32 0x0005A503 = some (.lw 10 11 0x0#12) ∧
    decodeTableWord 32 0x0035C503 = some (.lbu 10 11 0x3#12) ∧
    decodeTableWord 32 0x0025D503 = some (.lhu 10 11 0x2#12) := by decide
theorem test_decode_store :
    decodeTableWord 32 0x00C580A3 = some (.sb 11 12 0x1#12) ∧
    decodeTableWord 32 0x00C59123 = some (.sh 11 12 0x2#12) ∧
    decodeTableWord 32 0x00C5A023 = some (.sw 11 12 0x0#12) := by decide
theorem test_decode_jump :
    decodeTableWord 32 0x008000EF = some (.jal 1 0x8#21) ∧
    decodeTableWord 32 0x005280E7 = some (.jalr 1 5 0x5#12) := by decide
theorem test_decode_branch :
    decodeTableWord 32 0x00628863 = some (.beq 5 6 0x10#13) ∧
    decodeTableWord 32 0xFE6298E3 = some (.bne 5 6 0x1FF0#13) ∧
    decodeTableWord 32 0x0062C863 = some (.blt 5 6 0x10#13) ∧
    decodeTableWord 32 0x0062D863 = some (.bge 5 6 0x10#13) ∧
    decodeTableWord 32 0x0062E863 = some (.bltu 5 6 0x10#13) ∧
    decodeTableWord 32 0x0062F863 = some (.bgeu 5 6 0x10#13) := by decide
theorem test_decode_miscMem :
    decodeTableWord 32 0x0FF0000F = some (.fence 0x0#4 0xF#4 0xF#4 0 0) ∧
    decodeTableWord 32 0x0000100F = some (.fenceI 0x0#12 0 0) ∧
    decodeTableWord 32 0x0000200F = some (.miscMemRsv01x 0b010#3 0x0#12 0 0) ∧
    decodeTableWord 32 0x0000728F = some (.miscMemRsv1xx 0b111#3 0x0#12 0 5) := by decide
theorem test_decode_system :
    decodeTableWord 32 0x00000073 = some (.ecall) ∧
    decodeTableWord 32 0x00100073 = some (.ebreak) ∧
    decodeTableWord 32 0x30200073 = some (.mret) ∧
    decodeTableWord 32 0x340312F3 = some (.csrrw 5 0x340#12 6) ∧
    decodeTableWord 32 0x340322F3 = some (.csrrs 5 0x340#12 6) ∧
    decodeTableWord 32 0x340332F3 = some (.csrrc 5 0x340#12 6) ∧
    decodeTableWord 32 0x340FD2F3 = some (.csrrwi 5 0x340#12 0x1F#5) ∧
    decodeTableWord 32 0x3400E2F3 = some (.csrrsi 5 0x340#12 0x1#5) ∧
    decodeTableWord 32 0x340872F3 = some (.csrrci 5 0x340#12 0x10#5) := by decide
theorem test_decode_atomic :
    decodeTableWord 32 0x1005A52F = some (.lrW false false 10 11 0) ∧
    decodeTableWord 32 0x18C5A52F = some (.scW false false 10 11 12) ∧
    decodeTableWord 32 0x08C5A52F = some (.amoswapW false false 10 11 12) ∧
    decodeTableWord 32 0x00C5A52F = some (.amoaddW false false 10 11 12) ∧
    decodeTableWord 32 0x20C5A52F = some (.amoxorW false false 10 11 12) ∧
    decodeTableWord 32 0x60C5A52F = some (.amoandW false false 10 11 12) ∧
    decodeTableWord 32 0x40C5A52F = some (.amoorW false false 10 11 12) ∧
    decodeTableWord 32 0x80C5A52F = some (.amominW false false 10 11 12) ∧
    decodeTableWord 32 0xA0C5A52F = some (.amomaxW false false 10 11 12) ∧
    decodeTableWord 32 0xC0C5A52F = some (.amominuW false false 10 11 12) ∧
    decodeTableWord 32 0xE0C5A52F = some (.amomaxuW false false 10 11 12) := by decide

/-! One word a family, written out field by field from R101 to R113. -/

theorem test_decode_bits_upper :
    decodeWord (0b00010010001101000101#20 ++ 0b00001#5 ++ 0b0110111#7) = .ok (.lui 1 0x12345#20) := by decide
theorem test_decode_bits_opImm :
    decodeWord (0b011001111000#12 ++ 0b00001#5 ++ 0b000#3 ++ 0b00010#5 ++ 0b0010011#7) =
      .ok (.addi 2 1 0x678#12) := by decide
theorem test_decode_bits_op :
    decodeWord (0b0100000#7 ++ 0b00110#5 ++ 0b00101#5 ++ 0b101#3 ++ 0b00111#5 ++ 0b0110011#7) =
      .ok (.sra 7 5 6) := by decide
theorem test_decode_bits_mulDiv :
    decodeWord (0b0000001#7 ++ 0b00110#5 ++ 0b00101#5 ++ 0b010#3 ++ 0b00111#5 ++ 0b0110011#7) =
      .ok (.mulhsu 7 5 6) := by decide
theorem test_decode_bits_load :
    decodeWord (0b111111111100#12 ++ 0b01011#5 ++ 0b010#3 ++ 0b01010#5 ++ 0b0000011#7) =
      .ok (.lw 10 11 0xFFC#12) := by decide
theorem test_decode_bits_store :
    decodeWord (0b0100000#7 ++ 0b01100#5 ++ 0b01011#5 ++ 0b001#3 ++ 0b00011#5 ++ 0b0100011#7) =
      .ok (.sh 11 12 0x403#12) := by decide
/-- Offset 0x80802: bits 20, 10:1, 11, 19:12 of it are 0, 0000000001, 1, 10000000. -/
theorem test_decode_bits_jal :
    decodeWord (0b0#1 ++ 0b0000000001#10 ++ 0b1#1 ++ 0b10000000#8 ++ 0b00001#5 ++ 0b1101111#7) =
      .ok (.jal 1 0x80802#21) := by decide
/-- Offset 0x0816: bits 12, 10:5, 4:1, 11 of it are 0, 000000, 1011, 1. -/
theorem test_decode_bits_branch :
    decodeWord (0b0#1 ++ 0b000000#6 ++ 0b00110#5 ++ 0b00101#5 ++ 0b100#3 ++ 0b1011#4 ++ 0b1#1 ++ 0b1100011#7) =
      .ok (.blt 5 6 0x816#13) := by decide
theorem test_decode_bits_fence :
    decodeWord (0b1000#4 ++ 0b0011#4 ++ 0b0001#4 ++ 0b00000#5 ++ 0b000#3 ++ 0b00000#5 ++ 0b0001111#7) =
      .ok (.fence 8#4 3#4 1#4 0 0) := by decide
theorem test_decode_bits_csr :
    decodeWord (0b001101000000#12 ++ 0b10000#5 ++ 0b111#3 ++ 0b00101#5 ++ 0b1110011#7) =
      .ok (.csrrci 5 0x340#12 16#5) := by decide
theorem test_decode_bits_amo :
    decodeWord (0b11100#5 ++ 0b1#1 ++ 0b0#1 ++ 0b01100#5 ++ 0b01011#5 ++ 0b010#3 ++ 0b01010#5 ++ 0b0101111#7) =
      .ok (.amomaxuW true false 10 11 12) := by decide

/-- R114, one word for each of its items, and 95_test_vectors.md V-TR-1, V-TR-2, V-TR-10 to V-TR-12. -/
theorem test_decode_illegal :
    ([0x00000000, 0xFFFFFFFF, 0x00000001, 0x0000000B, 0x0005A507].map (decodeTableWord 32)).all (· == none) ∧
    decodeWord 0x02029313#32 = .error .opImm ∧ decodeWord 0x42628333#32 = .error .op ∧
    decodeWord 0x0005B503#32 = .error .load ∧ decodeWord 0x00C5B023#32 = .error .store ∧
    decodeWord 0x000290E7#32 = .error .jalr ∧ decodeWord 0x00002063#32 = .error .branch ∧
    decodeWord 0x10500073#32 = .error .system ∧ decodeWord 0x3402C2F3#32 = .error .system ∧
    decodeWord 0x0005B52F#32 = .error .amo ∧ decodeWord 0x2805A52F#32 = .error .amo := by decide
theorem test_decode_truncated : decode [0x13#8, 0x00#8, 0x00#8] = .error .truncated := by decide

/-! ## One step: at most two vectors an instruction -/

/-- The vectors' default start state (95_test_vectors.md, Conventions). -/
def start : State := (State.reset.setCsr 0x305 0x80000100).setPc 0x80000010

/-- The state after one step that runs the word `w`. -/
def after (s : State) (w : Nat) : Option State :=
  match step (s.withFetchWord 32 w) with
  | .next t => some t
  | .fault _ => none
  | .refused _ => none

/-- The state after one step of whatever pc points at. -/
def tick (s : State) : Option State :=
  match step s with
  | .next t => some t
  | .fault _ => none
  | .refused _ => none

/-- V-ALU-17: lui x5, 0xFFFFF -/
theorem test_alu_17 :
    (after (start.setReg 5 0x1) 0xFFFFF2B7).map (fun t => (t.reg 5, t.pc)) =
      some (0xFFFFF000, 0x80000014) := by decide
/-- V-X0-1: lui x0, 0x12345 -/
theorem test_x0_1 :
    (after start 0x12345037).map (fun t => t.pc) =
      some 0x80000014 := by decide
/-- V-ALU-18: auipc x5, 0x1 -/
theorem test_alu_18 :
    (after start 0x00001297).map (fun t => (t.reg 5, t.pc)) =
      some (0x80001010, 0x80000014) := by decide
/-- V-ALU-19: auipc x5, 0x80000 -/
theorem test_alu_19 :
    (after start 0x80000297).map (fun t => (t.reg 5, t.pc)) =
      some (0x10, 0x80000014) := by decide
/-- V-ALU-1: addi x6, x5, -1 -/
theorem test_alu_1 :
    (after (start.setReg 5 0x0) 0xFFF28313).map (fun t => (t.reg 6, t.pc)) =
      some (0xFFFFFFFF, 0x80000014) := by decide
/-- V-ALU-2: addi x6, x5, 1 -/
theorem test_alu_2 :
    (after (start.setReg 5 0x7FFFFFFF) 0x00128313).map (fun t => (t.reg 6, t.pc)) =
      some (0x80000000, 0x80000014) := by decide
/-- V-ALU-4: slti x6, x5, -1 -/
theorem test_alu_4 :
    (after (start.setReg 5 0x80000000) 0xFFF2A313).map (fun t => (t.reg 6, t.pc)) =
      some (0x1, 0x80000014) := by decide
/-- V-ALU-5: slti x6, x5, -1 -/
theorem test_alu_5 :
    (after (start.setReg 5 0xFFFFFFFF) 0xFFF2A313).map (fun t => (t.reg 6, t.pc)) =
      some (0x0, 0x80000014) := by decide
/-- V-ALU-6: sltiu x6, x5, -1 -/
theorem test_alu_6 :
    (after (start.setReg 5 0xFFFFFFFE) 0xFFF2B313).map (fun t => (t.reg 6, t.pc)) =
      some (0x1, 0x80000014) := by decide
/-- V-ALU-7: sltiu x6, x5, 1 -/
theorem test_alu_7 :
    (after (start.setReg 5 0x0) 0x0012B313).map (fun t => (t.reg 6, t.pc)) =
      some (0x1, 0x80000014) := by decide
/-- V-ALU-8: xori x6, x5, -1 -/
theorem test_alu_8 :
    (after (start.setReg 5 0x12345678) 0xFFF2C313).map (fun t => (t.reg 6, t.pc)) =
      some (0xEDCBA987, 0x80000014) := by decide
/-- V-ALU-9: ori x6, x5, -2048 -/
theorem test_alu_9 :
    (after (start.setReg 5 0x1) 0x8002E313).map (fun t => (t.reg 6, t.pc)) =
      some (0xFFFFF801, 0x80000014) := by decide
/-- V-ALU-10: andi x6, x5, 0xFF -/
theorem test_alu_10 :
    (after (start.setReg 5 0x12345678) 0x0FF2F313).map (fun t => (t.reg 6, t.pc)) =
      some (0x78, 0x80000014) := by decide
/-- V-ALU-11: slli x6, x5, 31 -/
theorem test_alu_11 :
    (after (start.setReg 5 0x3) 0x01F29313).map (fun t => (t.reg 6, t.pc)) =
      some (0x80000000, 0x80000014) := by decide
/-- V-ALU-12: srli x6, x5, 31 -/
theorem test_alu_12 :
    (after (start.setReg 5 0x80000000) 0x01F2D313).map (fun t => (t.reg 6, t.pc)) =
      some (0x1, 0x80000014) := by decide
/-- V-ALU-13: srai x6, x5, 31 -/
theorem test_alu_13 :
    (after (start.setReg 5 0x80000000) 0x41F2D313).map (fun t => (t.reg 6, t.pc)) =
      some (0xFFFFFFFF, 0x80000014) := by decide
/-- V-ALU-14: srai x6, x5, 4 -/
theorem test_alu_14 :
    (after (start.setReg 5 0x7FFFFFF0) 0x4042D313).map (fun t => (t.reg 6, t.pc)) =
      some (0x07FFFFFF, 0x80000014) := by decide
/-- V-ALU-20: add x7, x5, x6 -/
theorem test_alu_20 :
    (after ((start.setReg 5 0xFFFFFFFF).setReg 6 0x1) 0x006283B3).map (fun t => (t.reg 7, t.pc)) =
      some (0x0, 0x80000014) := by decide
/-- V-ALU-33: add x5, x5, x5 -/
theorem test_alu_33 :
    (after (start.setReg 5 0x40000000) 0x005282B3).map (fun t => (t.reg 5, t.pc)) =
      some (0x80000000, 0x80000014) := by decide
/-- V-ALU-21: sub x7, x5, x6 -/
theorem test_alu_21 :
    (after ((start.setReg 5 0x0).setReg 6 0x1) 0x406283B3).map (fun t => (t.reg 7, t.pc)) =
      some (0xFFFFFFFF, 0x80000014) := by decide
/-- V-ALU-22: sub x7, x5, x6 -/
theorem test_alu_22 :
    (after ((start.setReg 5 0x80000000).setReg 6 0x1) 0x406283B3).map (fun t => (t.reg 7, t.pc)) =
      some (0x7FFFFFFF, 0x80000014) := by decide
/-- V-ALU-23: sll x7, x5, x6 -/
theorem test_alu_23 :
    (after ((start.setReg 5 0x1).setReg 6 0x21) 0x006293B3).map (fun t => (t.reg 7, t.pc)) =
      some (0x2, 0x80000014) := by decide
/-- V-ALU-24: slt x7, x5, x6 -/
theorem test_alu_24 :
    (after ((start.setReg 5 0xFFFFFFFF).setReg 6 0x1) 0x0062A3B3).map (fun t => (t.reg 7, t.pc)) =
      some (0x1, 0x80000014) := by decide
/-- V-ALU-25: sltu x7, x5, x6 -/
theorem test_alu_25 :
    (after ((start.setReg 5 0xFFFFFFFF).setReg 6 0x1) 0x0062B3B3).map (fun t => (t.reg 7, t.pc)) =
      some (0x0, 0x80000014) := by decide
/-- V-ALU-26: sltu x7, x0, x6 -/
theorem test_alu_26 :
    (after (start.setReg 6 0x5) 0x006033B3).map (fun t => (t.reg 7, t.pc)) =
      some (0x1, 0x80000014) := by decide
/-- V-ALU-27: xor x7, x5, x6 -/
theorem test_alu_27 :
    (after ((start.setReg 5 0xFF00FF00).setReg 6 0x0FF00FF0) 0x0062C3B3).map (fun t => (t.reg 7, t.pc)) =
      some (0xF0F0F0F0, 0x80000014) := by decide
/-- V-ALU-28: srl x7, x5, x6 -/
theorem test_alu_28 :
    (after ((start.setReg 5 0x80000000).setReg 6 0xFFFFFFFF) 0x0062D3B3).map (fun t => (t.reg 7, t.pc)) =
      some (0x1, 0x80000014) := by decide
/-- V-ALU-29: sra x7, x5, x6 -/
theorem test_alu_29 :
    (after ((start.setReg 5 0x80000000).setReg 6 0x20) 0x4062D3B3).map (fun t => (t.reg 7, t.pc)) =
      some (0x80000000, 0x80000014) := by decide
/-- V-ALU-30: sra x7, x5, x6 -/
theorem test_alu_30 :
    (after ((start.setReg 5 0x80000000).setReg 6 0x4) 0x4062D3B3).map (fun t => (t.reg 7, t.pc)) =
      some (0xF8000000, 0x80000014) := by decide
/-- V-ALU-31: or x7, x5, x6 -/
theorem test_alu_31 :
    (after ((start.setReg 5 0xFF00FF00).setReg 6 0x0FF00FF0) 0x0062E3B3).map (fun t => (t.reg 7, t.pc)) =
      some (0xFFF0FFF0, 0x80000014) := by decide
/-- V-ALU-32: and x7, x5, x6 -/
theorem test_alu_32 :
    (after ((start.setReg 5 0xFF00FF00).setReg 6 0x0FF00FF0) 0x0062F3B3).map (fun t => (t.reg 7, t.pc)) =
      some (0x0F000F00, 0x80000014) := by decide
/-- V-MD-3: mul x7, x5, x6 -/
theorem test_md_3 :
    (after ((start.setReg 5 0x12345678).setReg 6 0x9ABCDEF0) 0x026283B3).map (fun t => (t.reg 7, t.pc)) =
      some (0x242D2080, 0x80000014) := by decide
/-- V-X0-9: mul x0, x5, x5 -/
theorem test_x0_9 :
    (after (start.setReg 5 0x7) 0x02528033).map (fun t => t.pc) =
      some 0x80000014 := by decide
/-- V-MD-5: mulh x7, x5, x6 -/
theorem test_md_5 :
    (after ((start.setReg 5 0x80000000).setReg 6 0x80000000) 0x026293B3).map (fun t => (t.reg 7, t.pc)) =
      some (0x40000000, 0x80000014) := by decide
/-- V-MD-6: mulh x7, x5, x6 -/
theorem test_md_6 :
    (after ((start.setReg 5 0x80000000).setReg 6 0x7FFFFFFF) 0x026293B3).map (fun t => (t.reg 7, t.pc)) =
      some (0xC0000000, 0x80000014) := by decide
/-- V-MD-7: mulhsu x7, x5, x6 -/
theorem test_md_7 :
    (after ((start.setReg 5 0xFFFFFFFF).setReg 6 0xFFFFFFFF) 0x0262A3B3).map (fun t => (t.reg 7, t.pc)) =
      some (0xFFFFFFFF, 0x80000014) := by decide
/-- V-MD-8: mulhsu x7, x5, x6 -/
theorem test_md_8 :
    (after ((start.setReg 5 0x7FFFFFFF).setReg 6 0xFFFFFFFF) 0x0262A3B3).map (fun t => (t.reg 7, t.pc)) =
      some (0x7FFFFFFE, 0x80000014) := by decide
/-- V-MD-9: mulhu x7, x5, x6 -/
theorem test_md_9 :
    (after ((start.setReg 5 0xFFFFFFFF).setReg 6 0xFFFFFFFF) 0x0262B3B3).map (fun t => (t.reg 7, t.pc)) =
      some (0xFFFFFFFE, 0x80000014) := by decide
/-- V-MD-10: div x7, x5, x6 -/
theorem test_md_10 :
    (after ((start.setReg 5 0xFFFFFFF9).setReg 6 0x2) 0x0262C3B3).map (fun t => (t.reg 7, t.pc)) =
      some (0xFFFFFFFD, 0x80000014) := by decide
/-- V-MD-18: div x7, x5, x6 -/
theorem test_md_18 :
    (after ((start.setReg 5 0x80000000).setReg 6 0xFFFFFFFF) 0x0262C3B3).map (fun t => (t.reg 7, t.pc)) =
      some (0x80000000, 0x80000014) := by decide
/-- V-MD-15: divu x7, x5, x0 -/
theorem test_md_15 :
    (after (start.setReg 5 0x7B) 0x0202D3B3).map (fun t => (t.reg 7, t.pc)) =
      some (0xFFFFFFFF, 0x80000014) := by decide
/-- V-MD-22: divu x7, x5, x6 -/
theorem test_md_22 :
    (after ((start.setReg 5 0xFFFFFFFF).setReg 6 0x2) 0x0262D3B3).map (fun t => (t.reg 7, t.pc)) =
      some (0x7FFFFFFF, 0x80000014) := by decide
/-- V-MD-11: rem x7, x5, x6 -/
theorem test_md_11 :
    (after ((start.setReg 5 0xFFFFFFF9).setReg 6 0x2) 0x0262E3B3).map (fun t => (t.reg 7, t.pc)) =
      some (0xFFFFFFFF, 0x80000014) := by decide
/-- V-MD-19: rem x7, x5, x6 -/
theorem test_md_19 :
    (after ((start.setReg 5 0x80000000).setReg 6 0xFFFFFFFF) 0x0262E3B3).map (fun t => (t.reg 7, t.pc)) =
      some (0x0, 0x80000014) := by decide
/-- V-MD-17: remu x7, x5, x0 -/
theorem test_md_17 :
    (after (start.setReg 5 0xFFFFFF85) 0x0202F3B3).map (fun t => (t.reg 7, t.pc)) =
      some (0xFFFFFF85, 0x80000014) := by decide
/-- V-MD-21: remu x7, x5, x6 -/
theorem test_md_21 :
    (after ((start.setReg 5 0x80000000).setReg 6 0xFFFFFFFF) 0x0262F3B3).map (fun t => (t.reg 7, t.pc)) =
      some (0x80000000, 0x80000014) := by decide
/-- V-LS-2: lb x10, 3(x11) -/
theorem test_ls_2 :
    (after ((start.setReg 11 0x80001000).setRamBytes 0x80001000 0x80FF7F01 4) 0x00358503).map (fun t => (t.reg 10, t.pc)) =
      some (0xFFFFFF80, 0x80000014) := by decide
/-- V-LS-20: lb x10, 0(x11) -/
theorem test_ls_20 :
    (after ((start.setReg 11 0x10000000).hostSends [193, 10]) 0x00058503).map (fun t => (t.reg 10, t.pc)) =
      some (0xFFFFFFC1, 0x80000014) := by decide
/-- V-LS-4: lh x10, 2(x11) -/
theorem test_ls_4 :
    (after ((start.setReg 11 0x80001000).setRamBytes 0x80001000 0x80FF7F01 4) 0x00259503).map (fun t => (t.reg 10, t.pc)) =
      some (0xFFFF80FF, 0x80000014) := by decide
/-- V-LS-6: lh x10, 1(x11) -/
theorem test_ls_6 :
    (after ((start.setReg 11 0x80001000).setRamBytes 0x80001000 0x80FF7F01 4) 0x00159503).map (fun t => (t.reg 10, t.pc)) =
      some (0xFFFFFF7F, 0x80000014) := by decide
/-- V-LS-8: lw x10, 1(x11) -/
theorem test_ls_8 :
    (after (((start.setReg 11 0x80001000).setRamBytes 0x80001000 0x80FF7F01 4).setRamBytes 0x80001004 0xAA 4) 0x0015A503).map (fun t => (t.reg 10, t.pc)) =
      some (0xAA80FF7F, 0x80000014) := by decide
/-- V-LS-14: lw x10, 0(x11) -/
theorem test_ls_14 :
    (after (start.setReg 11 0x7FFFFFFC) 0x0005A503).map (fun t => (t.reg 10, t.pc, t.csr 0x341, t.csr 0x342)) =
      some (0x0, 0x80000100, 0x80000010, 0x5) := by decide
/-- V-LS-3: lbu x10, 3(x11) -/
theorem test_ls_3 :
    (after ((start.setReg 11 0x80001000).setRamBytes 0x80001000 0x80FF7F01 4) 0x0035C503).map (fun t => (t.reg 10, t.pc)) =
      some (0x80, 0x80000014) := by decide
/-- V-LS-22: lbu x10, 0(x11) -/
theorem test_ls_22 :
    (after ((start.setReg 11 0x10000000).setReg 10 0x9) 0x0005C503).map (fun t => (t.reg 10, t.pc)) =
      some (0x0, 0x80000014) := by decide
/-- V-LS-5: lhu x10, 2(x11) -/
theorem test_ls_5 :
    (after ((start.setReg 11 0x80001000).setRamBytes 0x80001000 0x80FF7F01 4) 0x0025D503).map (fun t => (t.reg 10, t.pc)) =
      some (0x80FF, 0x80000014) := by decide
/-- V-LS-10: sb x12, 1(x11) -/
theorem test_ls_10 :
    (after (((start.setReg 11 0x80001000).setReg 12 0xAABBCCDD).setRamBytes 0x80001000 0x80FF7F01 4) 0x00C580A3).map (fun t => (t.pc, t.ramWord 0x80001000)) =
      some (0x80000014, 0x80FFDD01) := by decide
/-- V-LS-26: sb x12, 1(x11) -/
theorem test_ls_26 :
    (after ((start.setReg 11 0x10000000).setReg 12 0x41) 0x00C580A3).map (fun t => (t.pc, t.csr 0x341, t.csr 0x342)) =
      some (0x80000100, 0x80000010, 0x6) := by decide
/-- V-LS-11: sh x12, 2(x11) -/
theorem test_ls_11 :
    (after (((start.setReg 11 0x80001000).setReg 12 0xAABBCCDD).setRamBytes 0x80001000 0x80FF7F01 4) 0x00C59123).map (fun t => (t.pc, t.ramWord 0x80001000)) =
      some (0x80000014, 0xCCDD7F01) := by decide
/-- V-LS-13: sw x12, 2(x11) -/
theorem test_ls_13 :
    (after ((((start.setReg 11 0x80001000).setReg 12 0xAABBCCDD).setRamBytes 0x80001000 0x80FF7F01 4).setRamBytes 0x80001004 0x11223344 4) 0x00C5A123).map (fun t => (t.pc, t.ramWord 0x80001000, t.ramWord 0x80001004)) =
      some (0x80000014, 0xCCDD7F01, 0x1122AABB) := by decide
/-- V-LS-25: sw x12, 0(x11) -/
theorem test_ls_25 :
    (after ((start.setReg 11 0x10000000).setReg 12 0x12345648) 0x00C5A023).map (fun t => (t.pc, t.consOut)) =
      some (0x80000014, [0x48]) := by decide
/-- V-CT-1: jal x1, 8 -/
theorem test_ct_1 :
    (after start 0x008000EF).map (fun t => (t.reg 1, t.pc)) =
      some (0x80000014, 0x80000018) := by decide
/-- V-CT-3: jal x1, -16 -/
theorem test_ct_3 :
    (after start 0xFF1FF0EF).map (fun t => (t.reg 1, t.pc)) =
      some (0x80000014, 0x80000000) := by decide
/-- V-CT-5: jalr x5, 0(x5) -/
theorem test_ct_5 :
    (after (start.setReg 5 0x80000100) 0x000282E7).map (fun t => (t.reg 5, t.pc)) =
      some (0x80000014, 0x80000100) := by decide
/-- V-CT-7: jalr x1, -1(x5) -/
theorem test_ct_7 :
    (after (start.setReg 5 0x80000100) 0xFFF280E7).map (fun t => (t.reg 1, t.pc)) =
      some (0x80000014, 0x800000FE) := by decide
/-- V-CT-9: beq x5, x6, 16 -/
theorem test_ct_9 :
    (after ((start.setReg 5 0x3).setReg 6 0x3) 0x00628863).map (fun t => t.pc) =
      some 0x80000020 := by decide
/-- V-CT-10: beq x5, x6, 16 -/
theorem test_ct_10 :
    (after ((start.setReg 5 0x3).setReg 6 0x4) 0x00628863).map (fun t => t.pc) =
      some 0x80000014 := by decide
/-- V-CT-11: bne x5, x6, -16 -/
theorem test_ct_11 :
    (after ((start.setReg 5 0x3).setReg 6 0x4) 0xFE6298E3).map (fun t => t.pc) =
      some 0x80000000 := by decide
/-- V-CT-12: blt x5, x6, 16 -/
theorem test_ct_12 :
    (after ((start.setReg 5 0xFFFFFFFF).setReg 6 0x1) 0x0062C863).map (fun t => t.pc) =
      some 0x80000020 := by decide
/-- V-CT-14: bge x5, x6, 16 -/
theorem test_ct_14 :
    (after ((start.setReg 5 0x5).setReg 6 0x5) 0x0062D863).map (fun t => t.pc) =
      some 0x80000020 := by decide
/-- V-CT-15: bge x5, x6, 16 -/
theorem test_ct_15 :
    (after ((start.setReg 5 0x80000000).setReg 6 0x7FFFFFFF) 0x0062D863).map (fun t => t.pc) =
      some 0x80000014 := by decide
/-- V-CT-13: bltu x5, x6, 16 -/
theorem test_ct_13 :
    (after ((start.setReg 5 0xFFFFFFFF).setReg 6 0x1) 0x0062E863).map (fun t => t.pc) =
      some 0x80000014 := by decide
/-- V-CT-17: bltu x0, x6, 16 -/
theorem test_ct_17 :
    (after (start.setReg 6 0x1) 0x00606863).map (fun t => t.pc) =
      some 0x80000020 := by decide
/-- V-CT-16: bgeu x5, x6, 16 -/
theorem test_ct_16 :
    (after ((start.setReg 5 0x80000000).setReg 6 0x7FFFFFFF) 0x0062F863).map (fun t => t.pc) =
      some 0x80000020 := by decide
/-- V-FE-1: fence -/
theorem test_fe_1 :
    (after start 0x0FF0000F).map (fun t => t.pc) =
      some 0x80000014 := by decide
/-- V-FE-2: fence.i -/
theorem test_fe_2 :
    (after start 0x0000100F).map (fun t => t.pc) =
      some 0x80000014 := by decide
/-- V-FE-4: (MISC-MEM funct3 010) -/
theorem test_fe_4 :
    (after start 0x0000200F).map (fun t => t.pc) =
      some 0x80000014 := by decide
/-- V-FE-5: (MISC-MEM funct3 111, rd = x5) -/
theorem test_fe_5 :
    (after (start.setReg 5 0x9) 0x0000728F).map (fun t => t.pc) =
      some 0x80000014 := by decide
/-- V-SY-2: csrrw x5, 0x340, x5 -/
theorem test_sy_2 :
    (after ((start.setReg 5 0x9).setCsr 0x340 0x7) 0x340292F3).map (fun t => (t.reg 5, t.pc, t.csr 0x340)) =
      some (0x7, 0x80000014, 0x9) := by decide
/-- V-SY-12: csrrw x0, 0xB00, x6 -/
theorem test_sy_12 :
    (after ((start.setReg 6 0x64).setCsr 0x306 0x1) 0xB0031073).map (fun t => (t.pc, t.csr 0xB00)) =
      some (0x80000014, 0x65) := by decide
/-- V-SY-3: csrrs x5, 0x340, x6 -/
theorem test_sy_3 :
    (after ((start.setReg 6 0xF).setCsr 0x340 0xF0) 0x340322F3).map (fun t => (t.reg 5, t.pc, t.csr 0x340)) =
      some (0xF0, 0x80000014, 0xFF) := by decide
/-- V-SY-11: csrrs x5, 0xB00, x0 -/
theorem test_sy_11 :
    (after ((start.setCsr 0xB00 0xA).setCsr 0x306 0x1) 0xB00022F3).map (fun t => (t.reg 5, t.pc, t.csr 0xB00)) =
      some (0xA, 0x80000014, 0xB) := by decide
/-- V-SY-5: csrrc x5, 0x340, x6 -/
theorem test_sy_5 :
    (after ((start.setReg 6 0xF).setCsr 0x340 0xFF) 0x340332F3).map (fun t => (t.reg 5, t.pc, t.csr 0x340)) =
      some (0xFF, 0x80000014, 0xF0) := by decide
/-- V-SY-6: csrrwi x5, 0x340, 31 -/
theorem test_sy_6 :
    (after (start.setCsr 0x340 0xFF) 0x340FD2F3).map (fun t => (t.reg 5, t.pc, t.csr 0x340)) =
      some (0xFF, 0x80000014, 0x1F) := by decide
/-- V-SY-7: csrrsi x5, 0x340, 1 -/
theorem test_sy_7 :
    (after (start.setCsr 0x340 0xF0) 0x3400E2F3).map (fun t => (t.reg 5, t.pc, t.csr 0x340)) =
      some (0xF0, 0x80000014, 0xF1) := by decide
/-- V-SY-13: csrrsi x0, 0x306, 5 -/
theorem test_sy_13 :
    (after start 0x3062E073).map (fun t => (t.pc, t.csr 0x306, t.csr 0xB00, t.csr 0xB02)) =
      some (0x80000014, 0x5, 0x1, 0x1) := by decide
/-- V-SY-8: csrrci x5, 0x340, 0x10 -/
theorem test_sy_8 :
    (after (start.setCsr 0x340 0xF0) 0x340872F3).map (fun t => (t.reg 5, t.pc, t.csr 0x340)) =
      some (0xF0, 0x80000014, 0xE0) := by decide
/-- V-SY-14: csrrci x0, 0x306, 5 -/
theorem test_sy_14 :
    (after (start.setCsr 0x306 0x5) 0x3062F073).map (fun t => (t.pc, t.csr 0x306)) =
      some (0x80000014, 0x0) := by decide
/-- V-SY-16: ecall -/
theorem test_sy_16 :
    (after start 0x00000073).map (fun t => (t.pc, t.csr 0x341, t.csr 0x342)) =
      some (0x80000100, 0x80000014, 0xA) := by decide
/-- V-SY-20: ecall -/
theorem test_sy_20 :
    (after (start.setCsr 0x305 0x80000101) 0x00000073).map (fun t => (t.pc, t.csr 0x341, t.csr 0x342)) =
      some (0x80000128, 0x80000014, 0xA) := by decide
/-- V-SY-17: ebreak -/
theorem test_sy_17 :
    (after start 0x00100073).map (fun t => (t.pc, t.csr 0x341, t.csr 0x342)) =
      some (0x80000100, 0x80000010, 0x3) := by decide
/-- V-SY-19: mret -/
theorem test_sy_19 :
    (after (start.setCsr 0x341 0x80000202) 0x30200073).map (fun t => t.pc) =
      some 0x80000202 := by decide
/-- V-AT-1: lr.w x10, (x11) -/
theorem test_at_1 :
    (after (((start.setReg 11 0x80001000).setReg 12 0x3).setRamBytes 0x80001000 0x5 4) 0x1005A52F).map (fun t => (t.reg 10, t.pc, t.resv)) =
      some (0x5, 0x80000014, ⟨true, 0x80001000⟩) := by decide
/-- V-X0-8: lr.w x0, (x11) -/
theorem test_x0_8 :
    (after ((start.setReg 11 0x80001000).setRamBytes 0x80001000 0x5 4) 0x1005A02F).map (fun t => (t.pc, t.resv)) =
      some (0x80000014, ⟨true, 0x80001000⟩) := by decide
/-- V-AT-2: sc.w x10, x12, (x11) -/
theorem test_at_2 :
    (after ((((start.setReg 11 0x80001000).setReg 12 0x3).setRamBytes 0x80001000 0x5 4).setResv ⟨true, 0x80001000⟩) 0x18C5A52F).map (fun t => (t.reg 10, t.pc, t.ramWord 0x80001000, t.resv.valid)) =
      some (0x0, 0x80000014, 0x3, false) := by decide
/-- V-AT-4: sc.w x10, x12, (x11) -/
theorem test_at_4 :
    (after ((((start.setReg 11 0x80001000).setReg 12 0x3).setRamBytes 0x80001000 0x5 4).setResv ⟨true, 0x80001004⟩) 0x18C5A52F).map (fun t => (t.reg 10, t.pc, t.resv.valid)) =
      some (0x1, 0x80000014, false) := by decide
/-- V-AT-5: amoswap.w x10, x12, (x11) -/
theorem test_at_5 :
    (after (((start.setReg 11 0x80001000).setReg 12 0x3).setRamBytes 0x80001000 0x5 4) 0x08C5A52F).map (fun t => (t.reg 10, t.pc, t.ramWord 0x80001000)) =
      some (0x5, 0x80000014, 0x3) := by decide
/-- V-AT-6: amoadd.w x10, x12, (x11) -/
theorem test_at_6 :
    (after (((start.setReg 11 0x80001000).setReg 12 0x3).setRamBytes 0x80001000 0x5 4) 0x00C5A52F).map (fun t => (t.reg 10, t.pc, t.ramWord 0x80001000)) =
      some (0x5, 0x80000014, 0x8) := by decide
/-- V-X0-7: amoadd.w x0, x12, (x11) -/
theorem test_x0_7 :
    (after (((start.setReg 11 0x80001000).setReg 12 0x2).setRamBytes 0x80001000 0x5 4) 0x00C5A02F).map (fun t => (t.pc, t.ramWord 0x80001000)) =
      some (0x80000014, 0x7) := by decide
/-- V-AT-7: amoxor.w x10, x12, (x11) -/
theorem test_at_7 :
    (after (((start.setReg 11 0x80001000).setReg 12 0x3).setRamBytes 0x80001000 0x5 4) 0x20C5A52F).map (fun t => (t.reg 10, t.pc, t.ramWord 0x80001000)) =
      some (0x5, 0x80000014, 0x6) := by decide
/-- V-AT-8: amoand.w x10, x12, (x11) -/
theorem test_at_8 :
    (after (((start.setReg 11 0x80001000).setReg 12 0x3).setRamBytes 0x80001000 0x5 4) 0x60C5A52F).map (fun t => (t.reg 10, t.pc, t.ramWord 0x80001000)) =
      some (0x5, 0x80000014, 0x1) := by decide
/-- V-AT-9: amoor.w x10, x12, (x11) -/
theorem test_at_9 :
    (after (((start.setReg 11 0x80001000).setReg 12 0x3).setRamBytes 0x80001000 0x5 4) 0x40C5A52F).map (fun t => (t.reg 10, t.pc, t.ramWord 0x80001000)) =
      some (0x5, 0x80000014, 0x7) := by decide
/-- V-AT-10: amomin.w x10, x12, (x11) -/
theorem test_at_10 :
    (after (((start.setReg 11 0x80001000).setReg 12 0xFFFFFFFF).setRamBytes 0x80001000 0x5 4) 0x80C5A52F).map (fun t => (t.reg 10, t.pc, t.ramWord 0x80001000)) =
      some (0x5, 0x80000014, 0xFFFFFFFF) := by decide
/-- V-AT-11: amominu.w x10, x12, (x11) -/
theorem test_at_11 :
    (after (((start.setReg 11 0x80001000).setReg 12 0xFFFFFFFF).setRamBytes 0x80001000 0x5 4) 0xC0C5A52F).map (fun t => (t.reg 10, t.pc)) =
      some (0x5, 0x80000014) := by decide
/-- V-AT-12: amomax.w x10, x12, (x11) -/
theorem test_at_12 :
    (after (((start.setReg 11 0x80001000).setReg 12 0xFFFFFFFF).setRamBytes 0x80001000 0x5 4) 0xA0C5A52F).map (fun t => (t.reg 10, t.pc)) =
      some (0x5, 0x80000014) := by decide
/-- V-AT-13: amomaxu.w x10, x12, (x11) -/
theorem test_at_13 :
    (after (((start.setReg 11 0x80001000).setReg 12 0xFFFFFFFF).setRamBytes 0x80001000 0x5 4) 0xE0C5A52F).map (fun t => (t.reg 10, t.pc, t.ramWord 0x80001000)) =
      some (0x5, 0x80000014, 0xFFFFFFFF) := by decide
/-- V-ALU-15: (SLLI with inst[25] = 1: shamt 32) -/
theorem test_alu_15 :
    (after (start.setReg 5 0x1) 0x02029313).map (fun t => (t.reg 6, t.pc, t.csr 0x341, t.csr 0x342)) =
      some (0x0, 0x80000100, 0x80000010, 0x2) := by decide
/-- V-LS-28: (LOAD funct3 011, the RV64 LD) -/
theorem test_ls_28 :
    (after (start.setReg 11 0x80001000) 0x0005B503).map (fun t => (t.reg 10, t.pc, t.csr 0x341, t.csr 0x342)) =
      some (0x0, 0x80000100, 0x80000010, 0x2) := by decide
/-- V-CT-8: (JALR funct3 001) -/
theorem test_ct_8 :
    (after (start.setReg 5 0x80000100) 0x000290E7).map (fun t => (t.reg 1, t.pc, t.csr 0x341, t.csr 0x342)) =
      some (0x0, 0x80000100, 0x80000010, 0x2) := by decide
/-- V-SY-22: (WFI) -/
theorem test_sy_22 :
    (after start 0x10500073).map (fun t => (t.pc, t.csr 0x341, t.csr 0x342)) =
      some (0x80000100, 0x80000010, 0x2) := by decide
/-- V-TR-1: (all-zero word) -/
theorem test_tr_1 :
    (after start 0x00000000).map (fun t => (t.pc, t.csr 0x341, t.csr 0x342)) =
      some (0x80000100, 0x80000010, 0x2) := by decide
/-- V-TR-3: (all-zero word, vectored mtvec) -/
theorem test_tr_3 :
    (after (start.setCsr 0x305 0x80000101) 0x00000000).map (fun t => (t.pc, t.csr 0x341, t.csr 0x342)) =
      some (0x80000108, 0x80000010, 0x2) := by decide

/-! ## Traps, counters, fetch, console, host -/

/-- V-TR-9: a trapping cycle counts. -/
theorem test_tr_9 :
    (after (((start.setCsr 0x306 0x5).setCsr 0xB00 0x7).setCsr 0xB02 0x3) 0x00000073).map
      (fun t => (t.csr 0xB00, t.csr 0xB02)) = some (0x8, 0x4) := by decide
/-- V-TR-13: the vectored target wraps. -/
theorem test_tr_13 :
    (after (start.setCsr 0x305 0xFFFFFFFD) 0x00000073).map (fun t => t.pc) = some 0x24 := by decide
/-- V-TR-5: a fetch fault has cause 5. -/
theorem test_tr_5 :
    (tick (start.setPc 0x1000)).map (fun t => (t.pc, t.csr 0x341, t.csr 0x342)) =
      some (0x80000100, 0x1000, 0x5) := by decide
/-- V-CO-1 (S9): the first read of "hi" and a newline. -/
theorem test_co_1 : (consoleRead (start.hostSends [0x68, 0x69, 0x0A])).1 = 0x68 ∧
    (consoleRead (consoleRead (start.hostSends [0x68, 0x69, 0x0A])).2).1 = 0x69 := by decide
/-- V-CO-2: a line not yet closed gives 0 and is kept. -/
theorem test_co_2 : (consoleRead (start.hostSends [0x61, 0x62])).1 = 0x00 ∧
    (consoleRead (start.hostSends [0x61, 0x62])).2.console.lineAcc = [0x61, 0x62] := by decide
/-- V-CO-3: empty lines give nothing. -/
theorem test_co_3 : (consoleRead (start.hostSends [0x0A, 0x0A, 0x78, 0x0A])).1 = 0x78 := by decide
/-- V-CO-6: past 256 bytes the flag is set. -/
theorem test_co_6 : (takeHostInput (List.replicate 256 0x41) false [0x41]).2.1.overflow = true := by
  rw [takeHostInput_byte (by decide), List.length_replicate]; rfl
/-- V-CO-8: a fetch at the console runs the byte, here ECALL. -/
theorem test_co_8 :
    (tick ((start.setPc 0x10000000).hostSends [0x73, 0x0A])).map (fun t => (t.csr 0x341, t.csr 0x342)) =
      some (0x10000004, 0xA) := by decide
/-- 70_reset_and_hazards.md R352: image byte k goes to RAM_BASE + k. -/
theorem test_load : (match State.load (some [0xB7, 0x50]) State.reset with
    | .next t => some (t.ramByte 0x80000000, t.ramByte 0x80000001, t.ramByte 0x80000002)
    | .fault _ => none
    | .refused _ => none) = some (0xB7, 0x50, 0x00) := by decide
theorem test_step_of_reset_runs_the_placed_word :
    step (State.reset.withFetchWord 32 0x123450B7) =
      exec (.lui 1 0x12345#20) (State.reset.withFetchWord 32 0x123450B7) := by rfl

/-! ## Witnesses: what meets the hypotheses of each statement that has some, clause by clause, at the boundaries -/

/-- The bus addresses the clauses meet at: the first and last of RAM, the console, and their neighbours. -/
theorem witness_addresses :
    Mapped 0x80000000#32 ∧ Mapped 0x83FFFFFF#32 ∧ Mapped 0x10000000#32 ∧ ¬ Mapped 0x7FFFFFFF#32 ∧
    ¬ Mapped 0x84000000#32 ∧ ¬ Mapped 0x0FFFFFFF#32 ∧ ¬ Mapped 0x10000001#32 ∧ ¬ Mapped 0x00000000#32 ∧
    ¬ Mapped 0xFFFFFFFF#32 := by decide

theorem witness_DecodeInvertsEncode :
    (Instr.jal 1 0x1FFFFE#21).wf = true ∧ (Instr.beq 1 2 0x1000#13).wf = true ∧
    (Instr.bgeu 31 0 0xFFE#13).wf = true ∧ (Instr.miscMemRsv01x 2#3 0#12 0 0).wf = true ∧
    (Instr.miscMemRsv01x 3#3 0#12 0 0).wf = true ∧ (Instr.miscMemRsv1xx 4#3 0#12 0 0).wf = true ∧
    (Instr.miscMemRsv1xx 7#3 0xFFF#12 31 31).wf = true ∧ (Instr.add 1 2 3).wf = true := by decide

theorem witness_EncodeInvertsDecode : decodeWord 0xFE62CCE3#32 = .ok (.blt 5 6 0x1FF8#13) := by decide

theorem witness_DecodeAgreesWithTheOpcodeTable :
    decodeWord 0x30200073#32 = .ok .mret ∧ InRow 0x30200073#32 .mret ∧
    InRow 0x0000728F#32 (.miscMemRsv1xx 7#3 0#12 0 5) := by
  unfold InRow; decide

theorem witness_IllegalWords :
    Listed 0x00000000#32 ∧
    (Mapped start.pc ∧ busValue start start.pc = 0x00000000#32) ∧
    (Mapped (start.setPc 0x83FFFFFF).pc ∧
      busValue (start.setPc 0x83FFFFFF) (start.setPc 0x83FFFFFF).pc = 0x00000000#32) ∧
    (Mapped (start.setPc 0x10000000).pc ∧
      busValue (start.setPc 0x10000000) (start.setPc 0x10000000).pc = 0x00000000#32) :=
  ⟨.inl (by decide), by decide, by decide, by decide⟩

/-- Four NOP bytes at pc, and the byte of a NOP from the console. -/
theorem witness_StepRunsTheDecodedInstruction :
    (∃ s : State, InRange s.pc ∧
      decode [s.ramByte s.pc.toNat, s.ramByte (s.pc.toNat + 1), s.ramByte (s.pc.toNat + 2),
        s.ramByte (s.pc.toNat + 3)] = .ok (.addi 0 0 0, [])) ∧
    (∃ s : State, s.pc = 0x10000000#32 ∧
      decodeWord (BitVec.ofNat 32 (consoleRead s).1.toNat) = .ok (.addi 0 0 0)) :=
  ⟨⟨start.withFetchWord 32 0x13, by decide, by decide⟩,
    ⟨(start.setPc 0x10000000).hostSends [0x13, 0x0A], by decide, by decide⟩⟩

theorem witness_FetchFaultTraps :
    ¬ Mapped (start.setPc 0x7FFFFFFF).pc ∧ ¬ Mapped (start.setPc 0x84000000).pc ∧
    ¬ Mapped (start.setPc 0x10000001).pc := by decide

/-- Each of the three ends of a cycle: pc + 4, a jump's target, a trap's target. -/
theorem witness_PcAfterACycle :
    (∃ t, step (start.withFetchWord 32 0x13) = .next t ∧ t.pc = 0x80000014#32) ∧
    (∃ t, step (start.withFetchWord 32 0x008000EF) = .next t ∧ t.pc = 0x80000018#32) ∧
    (∃ t, step (start.withFetchWord 32 0x0) = .next t ∧ t.pc = 0x80000100#32) :=
  ⟨⟨_, rfl, by decide⟩, ⟨_, rfl, by decide⟩, ⟨_, rfl, by decide⟩⟩

theorem reset_inv : State.reset.Inv :=
  ⟨by decide, by decide, by decide, by decide, by decide, by decide⟩

theorem witness_StepKeepsInvariant : State.reset.Inv ∧ ∃ t, step State.reset = .next t :=
  ⟨reset_inv, _, rfl⟩

theorem witness_ResetValues :
    (∃ t, t = State.resetWith 1 2 3) ∧ (∃ t, t = start.applyReset 1 2 3) := ⟨⟨_, rfl⟩, ⟨_, rfl⟩⟩

theorem witness_ImageLoad :
    (∃ image : List Byte, image.length ≤ 0x04000000 ∧ 0 < image.length) ∧
    (∃ image : List Byte, image.length = 0x04000000) ∧ (∃ image : List Byte, 0x04000000 < image.length) :=
  ⟨⟨[0x13], by decide, by decide⟩, ⟨List.replicate 0x04000000 0, List.length_replicate⟩,
    ⟨List.replicate 0x04000001 0, by rw [List.length_replicate]; decide⟩⟩

/-- No data access (ADD), and a data access elsewhere (LW). -/
theorem witness_HostInputWaits :
    ((∀ n, access (.add 1 2 3) start ≠ some (0x10000000#32, n)) ∧ ∃ t, exec (.add 1 2 3) start = .next t) ∧
    ((∀ n, access (.lw 1 2 0) start ≠ some (0x10000000#32, n)) ∧ ∃ t, exec (.lw 1 2 0) start = .next t) := by
  refine ⟨⟨fun n => by simp [access], _, rfl⟩, ⟨fun n => ?_, _, rfl⟩⟩
  intro h
  simp only [access, Option.some.injEq, Prod.mk.injEq] at h
  exact absurd h.1 (by decide)

theorem witness_RegisterFile : (31 : Reg) ≠ 0 ∧ (1 : Reg) ≠ 31 := by decide

theorem witness_CsrFileStoresEveryValue : (0xFFF#12 : CsrIndex) ≠ 0x000#12 := by decide

theorem witness_RamBytes :
    (0x80000000 ≤ 0x80000000 ∧ 0x80000000 < 0x84000000) ∧ (0x80000000 ≤ 0x83FFFFFF ∧ 0x83FFFFFF < 0x84000000) ∧
    0x80000001 ≠ 0x80000000 ∧ 0x84000000 ≤ 0x84000000 := by decide

theorem witness_BusReads :
    InRange 0x80000000#32 ∧ InRange 0x83FFFFFF#32 ∧ ¬ InRange 0x10000000#32 ∧ ¬ Mapped 0x84000000#32 := by decide

theorem witness_BusWrites :
    (1 ∈ [1, 2, 4] ∧ 2 ∈ [1, 2, 4] ∧ 4 ∈ [1, 2, 4]) ∧ Mapped 0x83FFFFFF#32 ∧ Mapped 0x10000000#32 ∧
    ¬ Mapped 0x10000001#32 := by decide

/-- A buffered byte; a closed line; an empty line; an open line, one of them of no bytes. -/
theorem witness_ConsoleReads :
    (∃ s : State, s.console.rxFifo = [0x41, 0x42]) ∧
    (∃ s : State, s.console.rxFifo = [] ∧ s.hostIn = [0x41] ++ 0x0A#8 :: [0x42] ∧ 0x0A#8 ∉ [0x41#8] ∧
      kept s.console.lineAcc [0x41] = 0x41 :: []) ∧
    (∃ s : State, s.console.rxFifo = [] ∧ s.hostIn = [] ++ 0x0A#8 :: [] ∧
      kept s.console.lineAcc [] = 0x41 :: []) ∧
    (∃ s : State, s.console.rxFifo = [] ∧ s.console.lineAcc = [] ∧ s.hostIn = 0x0A#8 :: [0x42]) ∧
    (∃ s : State, s.console.rxFifo = [] ∧ 0x0A#8 ∉ s.hostIn) :=
  ⟨⟨start.setConsole ⟨[], [0x41, 0x42], false⟩ [], by decide⟩,
    ⟨start.hostSends [0x41, 0x0A, 0x42], by decide, by decide, by decide, by decide⟩,
    ⟨start.setConsole ⟨[0x41], [], false⟩ [0x0A], by decide, by decide, by decide⟩,
    ⟨start.hostSends [0x0A, 0x42], by decide, by decide, by decide⟩, ⟨start, by decide, by decide⟩⟩

theorem witness_TrapTargets :
    (0x80000100#32).toNat % 4 = 0 ∧
    (0xFFFFFFFF#32).toNat % 4 ≠ 0 ∧ (0xFFFFFFFC#32).toNat = (0xFFFFFFFF#32).toNat / 4 * 4 ∧
    (0x80000101#32).toNat % 4 ≠ 0 ∧ (0x80000100#32).toNat = (0x80000101#32).toNat / 4 * 4 := by decide

theorem witness_ShiftImmediates :
    (1#7 ≠ 0 ∧ 0x7F#7 ≠ 0) ∧ (0x21#7 ≠ 0 ∧ 0x21#7 ≠ 0x20) := by decide

/-- A zero divisor, the overflow pair, an ordinary pair. -/
theorem witness_Divides :
    (0#32).toInt = 0 ∧ (0#32).toNat = 0 ∧ ((0x80000000#32).toInt = -2 ^ 31 ∧ (0xFFFFFFFF#32).toInt = -1) ∧
    ((0x2#32).toInt ≠ 0 ∧ ¬ ((0xFFFFFFF9#32).toInt = -2 ^ 31 ∧ (0x2#32).toInt = -1)) ∧
    (0x2#32).toNat ≠ 0 := by decide

theorem witness_DivisionIdentity :
    (1 : Reg) ≠ 0 ∧ (∃ q r, exec (.div 1 2 3) start = .next q ∧ exec (.rem 1 2 3) start = .next r) ∧
    (∃ q r, exec (.divu 1 2 3) start = .next q ∧ exec (.remu 1 2 3) start = .next r) :=
  ⟨by decide, ⟨_, _, rfl, rfl⟩, ⟨_, _, rfl, rfl⟩⟩

/-- The two outcomes of a data access, at the addresses where they meet. -/
theorem witness_Loads_Stores_Atomics :
    Mapped (BitVec.ofInt 32 (((start.setReg 11 0x83FFFFFE).reg 11).toNat + (0x001#12).toInt)) ∧
    ¬ Mapped (BitVec.ofInt 32 (((start.setReg 11 0x83FFFFFE).reg 11).toNat + (0x002#12).toInt)) ∧
    Mapped ((start.setReg 11 0x10000000).reg 11) ∧ ¬ Mapped ((start.setReg 11 0x10000001).reg 11) := by decide

theorem witness_StoreConditional :
    (Mapped ((start.setReg 11 0x80000000).reg 11) ∧
      ((start.setReg 11 0x80000000).setResv ⟨true, 0x80000000⟩).resv.valid = true ∧
      ((start.setReg 11 0x80000000).setResv ⟨true, 0x80000000⟩).resv.addr =
        (start.setReg 11 0x80000000).reg 11) ∧
    ¬ (start.resv.valid = true ∧ start.resv.addr = (start.setReg 11 0x80000000).reg 11) ∧
    ¬ ((start.setResv ⟨true, 0x80000004⟩).resv.valid = true ∧
      (start.setResv ⟨true, 0x80000004⟩).resv.addr = (start.setReg 11 0x80000000).reg 11) := by decide

/-- The last address of each width. -/
theorem witness_StoreThenLoad :
    (∃ t u, exec (.sb 11 12 0) (start.setReg 11 0x83FFFFFF) = .next t ∧ InRange 0x83FFFFFF#32 ∧
      t.reg 11 = 0x83FFFFFF#32 ∧ exec (.lb 10 11 0) t = .next u) ∧
    (∃ t u, exec (.sh 11 12 0) (start.setReg 11 0x83FFFFFE) = .next t ∧ InRange 0x83FFFFFE#32 ∧
      t.reg 11 = 0x83FFFFFE#32 ∧ exec (.lhu 10 11 0) t = .next u) ∧
    (∃ t u, exec (.sw 11 12 0) (start.setReg 11 0x83FFFFFC) = .next t ∧ InRange 0x83FFFFFC#32 ∧
      t.reg 11 = 0x83FFFFFC#32 ∧ exec (.lw 10 11 0) t = .next u) :=
  ⟨⟨_, _, rfl, by decide, by decide, rfl⟩, ⟨_, _, rfl, by decide, by decide, rfl⟩,
    ⟨_, _, rfl, by decide, by decide, rfl⟩⟩

/-- SW of a NOP to the next word. -/
theorem witness_StoreIsSeenByTheNextFetch :
    ∃ s t : State, exec (.sw 11 12 0) s = .next t ∧ s.reg 11 + (0#12).signExtend 32 = s.pc + 4#32 ∧
      0x80000000 ≤ (s.pc + 4#32).toNat ∧ (s.pc + 4#32).toNat + 4 ≤ 0x84000000 ∧
      decodeWord (s.reg 12) = .ok (.addi 0 0 0) :=
  ⟨(start.setReg 11 0x80000014).setReg 12 0x13, _, rfl, by decide, by decide, by decide, by decide⟩

theorem witness_Jumps :
    (0x1FFFFE#21).toNat % 2 = 0 ∧ (0x0#21).toNat % 2 = 0 ∧ (1#3 : BitVec 3) ≠ 0 ∧ (7#3 : BitVec 3) ≠ 0 := by decide

theorem witness_Branches : (0x1FFE#13).toNat % 2 = 0 ∧ (0x0#13).toNat % 2 = 0 := by decide

theorem witness_SelfLoopStays : (start.withFetchWord 32 0x0000006F).AtSelfLoop := by
  unfold State.AtSelfLoop; decide

theorem witness_MiscMemDoesNothing : 4 ≤ (4#3).toNat ∧ 4 ≤ (7#3).toNat := by decide

/-- V-TR-6. -/
theorem witness_UnmappedHandlerLoops :
    ¬ Mapped ((start.setCsr 0x305 0).setPc 0).pc ∧
    ((start.setCsr 0x305 0).setPc 0).csr 0x305#12 = ((start.setCsr 0x305 0).setPc 0).pc ∧
    ((start.setCsr 0x305 0).setPc 0).pc.toNat % 4 = 0 := by decide

/-- LR.W, an ADDI between, SC.W to the same address (S8). -/
theorem witness_OnlyLrAndScTouchTheReservation :
    ∃ t u v : State, exec (.lrW false false 10 11 0) (start.setReg 11 0x80001000) = .next t ∧
      Mapped ((start.setReg 11 0x80001000).reg 11) ∧ touchesReservation (.addi 12 0 0x77#12) = false ∧
      exec (.addi 12 0 0x77#12) t = .next u ∧ u.reg 11 = (start.setReg 11 0x80001000).reg 11 ∧
      exec (.scW false false 13 11 12) u = .next v :=
  ⟨_, _, _, rfl, by decide, by decide, rfl, by decide, rfl⟩

theorem witness_RegistersChangeOnlyAtTheDestination :
    (∃ t, exec (.add 1 2 3) start = .next t) ∧ dest (.add 1 2 3) ≠ some 2 ∧
    (∃ t, exec (.sw 1 2 0) start = .next t) ∧ dest (.sw 1 2 0) ≠ some 2 :=
  ⟨⟨_, rfl⟩, by decide, ⟨_, rfl⟩, by decide⟩

/-- The byte just past a stored halfword, and any byte for an instruction that stores nothing. -/
theorem witness_RamChangesOnlyWhereStored :
    ((∃ t, exec (.sh 11 12 0) (start.setReg 11 0x80001000) = .next t) ∧
      ∀ a n, access (.sh 11 12 0) (start.setReg 11 0x80001000) = some (a, n) →
        ¬ (a.toNat ≤ 0x80001002 ∧ 0x80001002 < a.toNat + n)) ∧
    ((∃ t, exec (.add 1 2 3) start = .next t) ∧
      ∀ a n, access (.add 1 2 3) start = some (a, n) → ¬ (a.toNat ≤ 0x80001002 ∧ 0x80001002 < a.toNat + n)) := by
  refine ⟨⟨⟨_, rfl⟩, fun a n h => ?_⟩, ⟨⟨_, rfl⟩, fun a n h => by cases h⟩⟩
  cases h
  decide

theorem witness_CsrsChangeOnlyWhereWritten :
    (∃ t, exec (.csrrw 1 0x340#12 2) start = .next t) ∧ csrField (.csrrw 1 0x340#12 2) ≠ some 0x305#12 ∧
    (0x305#12 : CsrIndex) ∉ [0x341#12, 0x342#12, 0xB00#12, 0xB02#12] :=
  ⟨⟨_, rfl⟩, by decide, by decide⟩

theorem witness_ConsoleChangesOnlyByItsAccesses :
    (∃ t, exec (.lb 1 11 1#12) (start.setReg 11 0x10000000) = .next t) ∧
    ∀ n, access (.lb 1 11 1#12) (start.setReg 11 0x10000000) ≠ some (0x10000000#32, n) := by
  refine ⟨⟨_, rfl⟩, fun n h => ?_⟩
  simp only [access, Option.some.injEq, Prod.mk.injEq] at h
  exact absurd h.1 (by decide)

end Sys2Proof.Tests
end

section
/-! SUPPORT. The bus at a mapped and at an unmapped address, the invariant under each operation, what the end of a
cycle leaves (as a `Post`), and how a cycle runs, each in the terms of the statements. -/

namespace Sys2Proof.Machine

open Sys2Proof.Claims

variable {s s' t u : State}

/-! ## The bus (20_memory.md R60 to R65), by `Mapped`, `busValue` and `afterRead` -/

theorem consoleAddr_notInRange : ¬ InRange 0x10000000#32 := by decide

/-- A bus read at a mapped address (R60). -/
theorem memRead_mapped {a : Word} (h : Mapped a) (s : State) :
    memRead a s = some (busValue s a, afterRead s a) := by
  by_cases hr : InRange a
  · rw [memRead_ram ((inRam_iff _).2 hr), ramWord_eq, busValue, afterRead, if_pos hr, if_pos hr]
  · obtain rfl : a = Config.consoleAddr := h.resolve_left hr
    rw [memRead_console, setWidth_byte, busValue, afterRead, if_neg hr, if_neg hr]

/-- A bus read anywhere else faults (R60). -/
theorem memRead_notMapped {a : Word} (h : ¬ Mapped a) (s : State) : memRead a s = none := by
  rw [not_or] at h
  exact memRead_unmapped (Bool.eq_false_iff.2 fun hr => h.1 ((inRam_iff _).1 hr)) h.2

theorem memRead_pc {a v : Word} (h : memRead a s = some (v, s')) : s'.pc = s.pc := by
  rw [memRead_frame h]; rfl
theorem memRead_reg {a v : Word} (h : memRead a s = some (v, s')) (r : Reg) : s'.reg r = s.reg r := by
  rw [memRead_frame h]; rfl
theorem memRead_csr {a v : Word} (h : memRead a s = some (v, s')) (n : CsrIndex) : s'.csr n = s.csr n := by
  rw [memRead_frame h]; rfl
theorem memRead_ramByte {a v : Word} (h : memRead a s = some (v, s')) (x : Nat) :
    s'.ramByte x = s.ramByte x := by
  rw [memRead_frame h]; rfl
theorem memRead_resv {a v : Word} (h : memRead a s = some (v, s')) : s'.resv = s.resv := by
  rw [memRead_frame h]; rfl

variable {a v : Word} {n : Nat}

theorem memWrite_pc (h : memWrite a n v s = some s') : s'.pc = s.pc := by
  rcases memWrite_cases h with ⟨-, rfl⟩ | ⟨-, -, rfl⟩ <;> simp
theorem memWrite_reg (h : memWrite a n v s = some s') (r : Reg) : s'.reg r = s.reg r := by
  rcases memWrite_cases h with ⟨-, rfl⟩ | ⟨-, -, rfl⟩ <;> simp
theorem memWrite_csr (h : memWrite a n v s = some s') (m : CsrIndex) : s'.csr m = s.csr m := by
  rcases memWrite_cases h with ⟨-, rfl⟩ | ⟨-, -, rfl⟩ <;> simp
theorem memWrite_resv (h : memWrite a n v s = some s') : s'.resv = s.resv := by
  rcases memWrite_cases h with ⟨-, rfl⟩ | ⟨-, -, rfl⟩ <;> simp

/-- A bus write changes no byte outside the `n` bytes from its address on (R61). -/
theorem memWrite_ramByte (h : memWrite a n v s = some s') {x : Nat}
    (hx : ¬ (a.toNat ≤ x ∧ x < a.toNat + n)) : s'.ramByte x = s.ramByte x := by
  rcases memWrite_cases h with ⟨-, rfl⟩ | ⟨-, -, rfl⟩
  · rw [State.ramByte_setRamBytes, if_neg fun hc => hx ⟨hc.1, hc.2.1⟩]
  · rfl

/-! ## Each operation keeps the invariant -/

theorem State.Inv.setReg (h : s.Inv) (r : Reg) (v : Word) : (s.setReg r v).Inv where
  x0Zero := by rw [State.setReg_slot0]; exact h.x0Zero
  csrsWf := by rw [State.setReg_csrs]; exact h.csrsWf
  memWf := by rw [State.setReg_mem]; exact h.memWf
  noneExc := by rw [State.setReg_exc]; exact h.noneExc
  consoleRoom := by rw [State.setReg_console]; exact h.consoleRoom
  noNewline := by rw [State.setReg_console]; exact h.noNewline

theorem State.Inv.setCsr (h : s.Inv) (n : CsrIndex) (v : Word) : (s.setCsr n v).Inv :=
  { h with csrsWf := csrsWf_setCsr _ _ _ h.csrsWf }

theorem State.Inv.setResv (h : s.Inv) (r : Reservation) : (s.setResv r).Inv := { h with }

theorem State.Inv.emit (h : s.Inv) (b : Byte) : (s.emit b).Inv := { h with }

theorem State.Inv.setRamBytes (h : s.Inv) (a : Nat) (v : Word) (n : Nat) : (s.setRamBytes a v n).Inv where
  x0Zero := by simpa using h.x0Zero
  csrsWf := by simpa using h.csrsWf
  memWf := memWf_setRamBytes _ _ _ _ h.memWf
  noneExc := by simpa using h.noneExc
  consoleRoom := by simpa using h.consoleRoom
  noNewline := by simpa using h.noNewline

/-- A console read leaves the buffers within their room and without newlines (R75, R77). -/
theorem State.Inv.consoleRead (h : s.Inv) : (consoleRead s).2.Inv := by
  have hroom := h.consoleRoom
  have hnl := h.noNewline
  unfold Machine.consoleRead
  split
  next b rest hrx =>
    rw [hrx] at hroom hnl
    refine { h with consoleRoom := ?_, noNewline := ?_ }
    · simp at hroom ⊢; omega
    · simp at hnl ⊢; exact ⟨hnl.1, hnl.2.2⟩
  next hrx =>
    simp only [hrx, List.length_nil, Nat.add_zero, List.append_nil] at hroom hnl
    have hb := takeHostInput_inv s.console.lineAcc s.console.overflow s.hostIn hroom hnl
    exact { h with consoleRoom := hb.1, noNewline := hb.2 }

theorem State.Inv.afterRead (h : s.Inv) (a : Word) : (afterRead s a).Inv := by
  unfold Claims.afterRead
  split
  · exact h
  · exact h.consoleRead

theorem State.Inv.memRead (h : s.Inv) (hm : memRead a s = some (v, s')) : s'.Inv := by
  by_cases ha : Mapped a
  · rw [memRead_mapped ha] at hm
    cases hm
    exact h.afterRead a
  · rw [memRead_notMapped ha] at hm; cases hm

theorem State.Inv.memWrite (h : s.Inv) (hm : memWrite a n v s = some s') : s'.Inv := by
  rcases memWrite_cases hm with ⟨-, rfl⟩ | ⟨-, -, rfl⟩
  · exact h.setRamBytes _ _ _
  · exact h.emit _

theorem State.Inv.beginCycle (h : s.Inv) : (beginCycle s).Inv :=
  { h with x0Zero := beginCycle_slot0, noneExc := rfl }

theorem State.Inv.cycleEnd (h : s.Inv) (e : Option Cause) (npc : Word) : (cycleEnd e npc s).Inv where
  x0Zero := by simpa using h.x0Zero
  csrsWf := csrsWf_cycleEnd _ _ _ h.csrsWf
  memWf := by simpa using h.memWf
  noneExc := by simp
  consoleRoom := by simpa using h.consoleRoom
  noNewline := by simpa using h.noNewline

/-! ## What the end of a cycle leaves (10_state.md R44 to R47; 60_exceptions.md R305, R330) -/

/-- A cycle that raised nothing moves pc and runs the counters. -/
theorem cycleEnd_none_post (npc : Word) (s : State) :
    Post (cycleEnd none npc s) s.reg npc (afterCount s.csr) s.ramByte s.resv s.console s.hostIn s.consOut :=
  ⟨by simp, by simp [pcAfter], cycleEnd_csr _ _ _, by simp, by simp, by simp, by simp, by simp, by simp⟩

theorem trapTarget_eq_target (m : Word) (c : Cause) : trapTarget m c = target m c.code.toNat :=
  trapTarget_eq m c

/-- A cycle that raised traps, and does nothing else (R303). -/
theorem cycleEnd_some_post (c : Cause) (npc : Word) (s : State) :
    TrapPost s (cycleEnd (some c) npc s) c.code.toNat npc where
  reg := by simp
  pc := by rw [cycleEnd_pc, ← trapTarget_eq_target]; rfl
  csr n := by rw [cycleEnd_csr, BitVec.ofNat_toNat, BitVec.setWidth_eq]; rfl
  ram := by simp
  resv := by simp
  exc := by simp
  console := by simp
  hostIn := by simp
  consOut := by simp

theorem csrAfter_other (e : Option Cause) (npc : Word) (s : State) {n : CsrIndex}
    (h : n ∉ [Csr.mepc, Csr.mcause, Csr.mcycle, Csr.minstret]) : csrAfter e npc s n = s.csr n := by
  simp only [List.mem_cons, List.not_mem_nil, or_false, not_or] at h
  obtain ⟨hepc, hcause, hcycle, hinstret⟩ := h
  cases e with
  | none => exact counted_other _ hcycle hinstret
  | some c => rw [csrAfter, if_neg hepc, if_neg hcause, counted_other _ hcycle hinstret]

/-! ## How a cycle runs (R41 to R43, R47): the fetch sees the bus as it was before the cycle -/

/-- Beginning a cycle changes no reading of the state (R22, R41, R47). -/
theorem beginCycle_post (s : State) :
    Post (beginCycle s) s.reg s.pc s.csr s.ramByte s.resv s.console s.hostIn s.consOut :=
  ⟨fun _ => beginCycle_reg _, rfl, fun _ => rfl, fun _ => rfl, rfl, rfl, rfl, rfl, rfl⟩

theorem consoleRead_beginCycle (s : State) : (consoleRead (beginCycle s)).1 = (consoleRead s).1 := by
  unfold consoleRead
  rw [beginCycle_console, beginCycle_hostIn]
  split <;> rfl

theorem busValue_beginCycle (s : State) (a : Word) : busValue (beginCycle s) a = busValue s a := by
  unfold busValue; rw [consoleRead_beginCycle]; rfl

theorem step_notMapped (h : ¬ Mapped s.pc) : step s = takeException .loadAccessFault (beginCycle s) := by
  have hf : fetch (beginCycle s) = none := memRead_notMapped h _
  simp only [step, hf]

theorem fetch_mapped (h : Mapped s.pc) :
    fetch (beginCycle s) = some (busValue s s.pc, afterRead (beginCycle s) s.pc) := by
  rw [fetch, beginCycle_pc, memRead_mapped h, busValue_beginCycle]

theorem step_noInstr (h : Mapped s.pc) (hd : NoInstr (busValue s s.pc)) :
    step s = takeException .illegalInstruction (afterRead (beginCycle s) s.pc) := by
  obtain ⟨e, he⟩ := hd
  simp only [step, fetch_mapped h, he]

theorem step_reads {i : Instr} (h : Mapped s.pc) (hd : Reads (busValue s s.pc) i) :
    step s = exec i (afterRead (beginCycle s) s.pc) := by
  unfold Reads at hd
  simp only [step, fetch_mapped h, hd]

/-- What a cycle does, in three cases: its fetch faults, the word is no instruction, or it is one and runs. -/
theorem step_cases (s : State) :
    (¬ Mapped s.pc ∧ step s = takeException .loadAccessFault (beginCycle s)) ∨
    (Mapped s.pc ∧ NoInstr (busValue s s.pc) ∧
      step s = takeException .illegalInstruction (afterRead (beginCycle s) s.pc)) ∨
    (∃ i, Mapped s.pc ∧ Reads (busValue s s.pc) i ∧ step s = exec i (afterRead (beginCycle s) s.pc)) := by
  by_cases h : Mapped s.pc
  · cases hd : decodeWord (busValue s s.pc) with
    | error e => exact .inr (.inl ⟨h, ⟨e, hd⟩, step_noInstr h ⟨e, hd⟩⟩)
    | ok i => exact .inr (.inr ⟨i, h, hd, step_reads h hd⟩)
  · exact .inl ⟨h, step_notMapped h⟩

end Sys2Proof.Machine
end

section
/-! SUPPORT. What an instruction can do, once for all 69: it traps with no other effect, or its cycle ends without an
exception after operations on the pieces of state that the instruction names. Every frame follows from this. -/

namespace Sys2Proof.Machine

open Sys2Proof.Claims

variable {i : Instr} {s u : State} {rd rs1 rs2 : Reg}

/-- The states that `i` can build from `s` before its cycle ends: by writes to its destination, to the CSR its field
names and to the reservation, and by bus accesses at its access address. -/
inductive Effect (i : Instr) (s : State) : State → Prop where
  | start : Effect i s s
  | setReg {u : State} {rd : Reg} (h : Effect i s u) (hd : dest i = some rd) (v : Word) :
      Effect i s (u.setReg rd v)
  | setCsr {u : State} {n : CsrIndex} (h : Effect i s u) (hc : csrField i = some n) (v : Word) :
      Effect i s (u.setCsr n v)
  | setResv {u : State} (h : Effect i s u) (ht : touchesReservation i = true) (r : Reservation) :
      Effect i s (u.setResv r)
  | read {u u' : State} {a v : Word} {n : Nat} (h : Effect i s u) (ha : access i s = some (a, n))
      (hm : memRead a u = some (v, u')) : Effect i s u'
  | write {u u' : State} {a v : Word} {n : Nat} (h : Effect i s u) (ha : access i s = some (a, n))
      (hm : memWrite a n v u = some u') : Effect i s u'

/-- An effect leaves pc to the end of the cycle (R44). -/
theorem Effect.pc (h : Effect i s u) : u.pc = s.pc := by
  induction h with
  | start => rfl
  | setReg _ _ _ ih => rw [State.setReg_pc, ih]
  | setCsr _ _ _ ih => exact ih
  | setResv _ _ _ ih => exact ih
  | read _ _ hm ih => rw [memRead_pc hm, ih]
  | write _ _ hm ih => rw [memWrite_pc hm, ih]

/-- An effect writes no register but the destination. -/
theorem Effect.reg (h : Effect i s u) {r : Reg} (hr : dest i ≠ some r) : u.reg r = s.reg r := by
  induction h with
  | start => rfl
  | setReg _ hd _ ih =>
    rw [State.reg_setReg, if_neg, ih]
    rintro ⟨rfl, -⟩
    exact hr hd
  | setCsr _ _ _ ih => exact ih
  | setResv _ _ _ ih => exact ih
  | read _ _ hm ih => rw [memRead_reg hm, ih]
  | write _ _ hm ih => rw [memWrite_reg hm, ih]

/-- An effect writes no CSR but the one the CSR field names. -/
theorem Effect.csr (h : Effect i s u) {n : CsrIndex} (hn : csrField i ≠ some n) : u.csr n = s.csr n := by
  induction h with
  | start => rfl
  | setReg _ _ _ ih => rw [State.setReg_csr, ih]
  | setCsr _ hc _ ih =>
    rw [State.csr_setCsr, if_neg, ih]
    rintro rfl
    exact hn hc
  | setResv _ _ _ ih => exact ih
  | read _ _ hm ih => rw [memRead_csr hm, ih]
  | write _ _ hm ih => rw [memWrite_csr hm, ih]

/-- An effect writes no RAM byte but those from the access address on, as many as the instruction may store. -/
theorem Effect.ramByte (h : Effect i s u) {x : Nat}
    (hx : ∀ a n, access i s = some (a, n) → ¬ (a.toNat ≤ x ∧ x < a.toNat + n)) :
    u.ramByte x = s.ramByte x := by
  induction h with
  | start => rfl
  | setReg _ _ _ ih => rw [State.setReg_ramByte, ih]
  | setCsr _ _ _ ih => exact ih
  | setResv _ _ _ ih => exact ih
  | read _ _ hm ih => rw [memRead_ramByte hm, ih]
  | write _ ha hm ih => rw [memWrite_ramByte hm (hx _ _ ha), ih]

/-- An effect leaves the reservation, unless the instruction is LR.W or SC.W (R36). -/
theorem Effect.resv (h : Effect i s u) (ht : touchesReservation i = false) : u.resv = s.resv := by
  induction h with
  | start => rfl
  | setReg _ _ _ ih => rw [State.setReg_resv, ih]
  | setCsr _ _ _ ih => exact ih
  | setResv _ ht' _ _ => rw [ht] at ht'; cases ht'
  | read _ _ hm ih => rw [memRead_resv hm, ih]
  | write _ _ hm ih => rw [memWrite_resv hm, ih]

/-- An effect keeps the invariant. -/
theorem Effect.inv (h : Effect i s u) (hs : s.Inv) : u.Inv := by
  induction h with
  | start => exact hs
  | setReg _ _ v ih => exact ih.setReg _ v
  | setCsr _ _ v ih => exact ih.setCsr _ v
  | setResv _ _ r ih => exact ih.setResv r
  | read _ _ hm ih => exact ih.memRead hm
  | write _ _ hm ih => exact ih.memWrite hm

/-- The answer `r` is a next state, in which `i` has trapped with no effect, or has had an effect and gone on to where
it redirects, else to pc + 4 (R44, R49). -/
def Ends (i : Instr) (s : State) (r : Result) : Prop :=
  ∃ t, r = .next t ∧
    ((∃ c : Cause, t = cycleEnd (some c) (c.npc s.pc) s) ∨
      ∃ u, Effect i s u ∧ t = cycleEnd none ((redirects i s).getD (s.pc + 4#32)) u)

/-! ## The shared operations of the meanings -/

theorem takeException_ends (c : Cause) : Ends i s (takeException c s) := ⟨_, rfl, .inl ⟨c, rfl⟩⟩

theorem complete_ends (h : Effect i s u) (hr : redirects i s = none) : Ends i s (complete u) :=
  ⟨_, rfl, .inr ⟨u, h, by rw [hr, Option.getD_none, h.pc]⟩⟩

theorem redirect_ends {target : Word} (h : Effect i s u) (hr : redirects i s = some target) :
    Ends i s (redirect target u) :=
  ⟨_, rfl, .inr ⟨u, h, by rw [hr, Option.getD_some]⟩⟩

theorem writeBack_ends {v : Word} (hd : dest i = some rd) (hr : redirects i s = none) :
    Ends i s (writeBack rd v s) :=
  complete_ends (.setReg .start hd v) hr

theorem jumpAndLink_ends {target : Word} (hd : dest i = some rd) (hr : redirects i s = some target) :
    Ends i s (jumpAndLink rd target s) :=
  redirect_ends (.setReg .start hd _) hr

theorem branchIf_ends {c : Bool} {offset : BitVec 13}
    (hr : redirects i s = if c then some (s.pc + sext13 offset) else none) :
    Ends i s (branchIf c offset s) := by
  cases c with
  | true => exact redirect_ends .start hr
  | false => exact complete_ends .start hr

theorem csrAccess_ends {f : Word → Word → Word} {n : CsrIndex} {src : Word} (hd : dest i = some rd)
    (hc : csrField i = some n) (hr : redirects i s = none) : Ends i s (csrAccess f rd n src s) :=
  complete_ends (.setCsr (.setReg .start hd _) hc _) hr

theorem loadInto_ends {f : Word → Word} {ea : Word} {n : Nat} (hd : dest i = some rd)
    (ha : access i s = some (ea, n)) (hr : redirects i s = none) : Ends i s (loadInto f rd ea s) := by
  unfold loadInto
  split
  · exact takeException_ends _
  next hm => exact complete_ends (.setReg (.read .start ha hm) hd _) hr

theorem storeFrom_ends {n : Nat} {v ea : Word} (ha : access i s = some (ea, n))
    (hr : redirects i s = none) : Ends i s (storeFrom n v ea s) := by
  unfold storeFrom
  split
  · exact takeException_ends _
  next hm => exact complete_ends (.write .start ha hm) hr

theorem amoUpdate_ends {op : Word → Word → Word} (hd : dest i = some rd)
    (ha : access i s = some (s.reg rs1, 4)) (hr : redirects i s = none) :
    Ends i s (amoUpdate op rd rs1 rs2 s) := by
  cases hm : memRead (s.reg rs1) s with
  | none => simp only [amoUpdate, hm]; exact takeException_ends _
  | some p =>
    obtain ⟨u, hu⟩ := memWrite_of_memRead (t := p.2) 4 (op p.1 (s.reg rs2)) hm
    simp only [amoUpdate, hm, hu]
    exact complete_ends (.setReg (.write (.read .start ha hm) ha hu) hd _) hr

/-! ## LR.W and SC.W (46_atomic.md R262, R263), case by case -/

theorem execLrW_fault (hm : memRead (s.reg rs1) s = none) :
    execLrW rd rs1 s = takeException .loadAccessFault s := by
  simp only [execLrW, hm]

theorem execLrW_read {v : Word} (hm : memRead (s.reg rs1) s = some (v, u)) :
    execLrW rd rs1 s = complete ((u.setResv ⟨true, s.reg rs1⟩).setReg rd v) := by
  simp only [execLrW, hm]

theorem execScW_fault (hm : memRead (s.reg rs1) s = none) :
    execScW rd rs1 rs2 s = takeException .loadAccessFault s := by
  simp only [execScW, hm]

/-- With the reservation at x[rs1] the store is made and rd gets 0. -/
theorem execScW_success {v : Word} {w : State} (hm : memRead (s.reg rs1) s = some (v, u))
    (hv : s.resv.valid = true ∧ s.resv.addr = s.reg rs1)
    (hw : memWrite (s.reg rs1) 4 (s.reg rs2) (u.setResv ⟨false, s.resv.addr⟩) = some w) :
    execScW rd rs1 rs2 s = complete (w.setReg rd 0#32) := by
  have hok : (s.resv.valid && decide (s.resv.addr = s.reg rs1)) = true := by simpa using hv
  simp only [execScW, hm, memRead_resv hm, hok, if_true, hw]

/-- Without it nothing is stored and rd gets 1. -/
theorem execScW_failure {v : Word} (hm : memRead (s.reg rs1) s = some (v, u))
    (hv : ¬ (s.resv.valid = true ∧ s.resv.addr = s.reg rs1)) :
    execScW rd rs1 rs2 s = complete ((u.setResv ⟨false, s.resv.addr⟩).setReg rd 1#32) := by
  have hok : (s.resv.valid && decide (s.resv.addr = s.reg rs1)) = false := by simpa using hv
  simp only [execScW, hm, memRead_resv hm, hok, Bool.false_eq_true, if_false]

theorem execLrW_ends (aq rl : Bool) (rd rs1 rs2 : Reg) (s : State) :
    Ends (.lrW aq rl rd rs1 rs2) s (execLrW rd rs1 s) := by
  cases hm : memRead (s.reg rs1) s with
  | none => rw [execLrW_fault hm]; exact takeException_ends _
  | some p =>
    rw [execLrW_read hm]
    exact complete_ends (.setReg (.setResv (.read .start rfl hm) rfl _) rfl _) rfl

theorem execScW_ends (aq rl : Bool) (rd rs1 rs2 : Reg) (s : State) :
    Ends (.scW aq rl rd rs1 rs2) s (execScW rd rs1 rs2 s) := by
  cases hm : memRead (s.reg rs1) s with
  | none => rw [execScW_fault hm]; exact takeException_ends _
  | some p =>
    have hread : Effect (.scW aq rl rd rs1 rs2) s (p.2.setResv ⟨false, s.resv.addr⟩) :=
      .setResv (.read .start rfl hm) rfl _
    by_cases hv : s.resv.valid = true ∧ s.resv.addr = s.reg rs1
    · obtain ⟨w, hw⟩ := memWrite_of_memRead (t := p.2.setResv ⟨false, s.resv.addr⟩) 4 (s.reg rs2) hm
      rw [execScW_success hm hv hw]
      exact complete_ends (.setReg (.write hread rfl hw) rfl _) rfl
    · rw [execScW_failure hm hv]
      exact complete_ends (.setReg hread rfl _) rfl

/-! ## Every instruction -/

/-- JALR clears bit 0 of its target (43_control.md R212). -/
theorem clearBit0_eq (x : Word) : x &&& 0xFFFFFFFE#32 = BitVec.ofNat 32 (x.toNat / 2 * 2) := by
  apply BitVec.eq_of_toNat_eq
  have hx := x.isLt
  have hhalf : (x.toNat &&& 0xFFFFFFFE) / 2 = x.toNat / 2 := by
    rw [Nat.and_div_two, show (0xFFFFFFFE : Nat) / 2 = 2 ^ 31 - 1 by rfl, Nat.and_two_pow_sub_one_eq_mod]
    omega
  have heven : (x.toNat &&& 0xFFFFFFFE) % 2 = 0 := by
    rw [Nat.and_mod_two_pow (n := 1)]
    simp
  rw [BitVec.toNat_and, BitVec.toNat_ofNat, BitVec.toNat_ofNat]
  norm_num
  omega

/-- How an instruction ends its cycle, whichever it is. -/
theorem exec_ends (i : Instr) (s : State) : Ends i s (exec i s) := by
  cases i with
  | lui | auipc | addi | slti | sltiu | xori | ori | andi | slli | srli | srai | add | sub | sll | slt | sltu
  | xor | srl | sra | or | and | mul | mulh | mulhsu | mulhu | div | divu | rem | remu =>
    exact writeBack_ends rfl rfl
  | lb | lh | lw | lbu | lhu => exact loadInto_ends rfl rfl rfl
  | sb | sh | sw => exact storeFrom_ends rfl rfl
  | jal => exact jumpAndLink_ends rfl rfl
  | jalr => exact jumpAndLink_ends rfl (congrArg some (clearBit0_eq _).symm)
  | beq | blt | bltu =>
    exact branchIf_ends (by simp only [redirects, sext13, ltSigned, ltUnsigned, decide_eq_true_eq])
  | bne | bge | bgeu =>
    exact branchIf_ends (by simp only [redirects, sext13, ltSigned, ltUnsigned, decide_not, Bool.not_eq_true',
      decide_eq_false_iff_not, ite_not])
  | fence | fenceI | miscMemRsv01x | miscMemRsv1xx => exact complete_ends .start rfl
  | ecall | ebreak => exact takeException_ends _
  | mret => exact redirect_ends .start rfl
  | csrrw | csrrs | csrrc | csrrwi | csrrsi | csrrci => exact csrAccess_ends rfl rfl rfl
  | lrW aq rl rd rs1 rs2 => exact execLrW_ends aq rl rd rs1 rs2 s
  | scW aq rl rd rs1 rs2 => exact execScW_ends aq rl rd rs1 rs2 s
  | amoswapW | amoaddW | amoxorW | amoandW | amoorW | amominW | amomaxW | amominuW | amomaxuW =>
    unfold exec
    exact amoUpdate_ends rfl rfl rfl

/-- What a next state of an instruction is: a trap with no effect, or an effect and then the cycle's end. -/
theorem exec_next {t : State} (h : exec i s = .next t) :
    (∃ c : Cause, t = cycleEnd (some c) (c.npc s.pc) s) ∨
      ∃ u, Effect i s u ∧ t = cycleEnd none ((redirects i s).getD (s.pc + 4#32)) u := by
  obtain ⟨t', ht', hends⟩ := exec_ends i s
  rw [h] at ht'
  cases ht'
  exact hends

/-- Where an instruction redirects to depends on the registers, pc and mepc alone. -/
theorem redirects_congr (i : Instr) (hreg : ∀ r, u.reg r = s.reg r) (hpc : u.pc = s.pc)
    (hmepc : u.csr 0x341#12 = s.csr 0x341#12) : redirects i u = redirects i s := by
  cases i <;> simp only [redirects, hreg, hpc, hmepc]

end Sys2Proof.Machine
end

section
/-! The statements about the pieces of state, the cycle and the frames (10_state.md), settled. -/

namespace Sys2Proof.Machine

open Sys2Proof.Claims

/-! ## The invariant -/

theorem exec_inv {i : Instr} {s t : State} (hs : s.Inv) (h : exec i s = .next t) : t.Inv := by
  rcases exec_next h with ⟨c, rfl⟩ | ⟨u, hu, rfl⟩
  · exact hs.cycleEnd _ _
  · exact (hu.inv hs).cycleEnd _ _

theorem takeException_inv {c : Cause} {s t : State} (hs : s.Inv) (h : takeException c s = .next t) :
    t.Inv := by
  rw [endCycle_next h]
  exact hs.cycleEnd _ _

/-- Settles O11: the cycle's start, its fetch, each effect of an instruction and the cycle's end keep the invariant. -/
theorem stepKeepsInvariant : Obligations.StepKeepsInvariant := by
  intro s t hs h
  have hf : (afterRead (beginCycle s) s.pc).Inv := hs.beginCycle.afterRead _
  rcases step_cases s with ⟨-, he⟩ | ⟨-, -, he⟩ | ⟨i, -, -, he⟩ <;> rw [he] at h
  · exact takeException_inv hs.beginCycle h
  · exact takeException_inv hf h
  · exact exec_inv hf h

/-- Settles O10, from the canonical forms of the CSR file and RAM at reset. -/
theorem invariantHoldsAtReset : Obligations.InvariantHoldsAtReset := fun misa mvendorid mtvec =>
  { x0Zero := by simp [State.resetWith]
    csrsWf := csrsWf_resetWith misa mvendorid mtvec
    memWf := memWf_resetWith misa mvendorid mtvec
    noneExc := rfl
    consoleRoom := Nat.zero_le _
    noNewline := List.not_mem_nil }

/-! ## The cycle -/

/-- Settles O8: each of the three ways a cycle goes on ends in a next state. -/
theorem machineNeverStops : Obligations.MachineNeverStops := by
  have hexec : ∀ (i : Instr) (s : State), ∃ t, exec i s = .next t := fun i s => by
    obtain ⟨t, ht, -⟩ := exec_ends i s
    exact ⟨t, ht⟩
  refine ⟨fun s => ?_, hexec⟩
  rcases step_cases s with ⟨-, he⟩ | ⟨-, -, he⟩ | ⟨i, -, -, he⟩ <;> rw [he]
  · exact ⟨_, rfl⟩
  · exact ⟨_, rfl⟩
  · exact hexec i _

/-- The state in which an instruction runs reads as the cycle's first one, but for the console (R41, R42). -/
theorem afterFetch_readings (s : State) :
    (∀ r, (afterRead (beginCycle s) s.pc).reg r = s.reg r) ∧ (afterRead (beginCycle s) s.pc).pc = s.pc ∧
      ∀ n, (afterRead (beginCycle s) s.pc).csr n = s.csr n := by
  unfold afterRead
  split
  · exact ⟨fun _ => beginCycle_reg _, rfl, fun _ => rfl⟩
  · rw [consoleRead_frame]
    exact ⟨fun _ => beginCycle_reg _, rfl, fun _ => rfl⟩

theorem Cause.code_mem (c : Cause) : c.code.toNat ∈ [2, 3, 5, 6, 10] := by cases c <;> decide

/-- After a trap pc is the trap target of its code, and mcause holds that code (R305). -/
theorem trapped_pc_mcause (c : Cause) (npc : Word) (s : State) :
    ∃ code ∈ [2, 3, 5, 6, 10], (cycleEnd (some c) npc s).pc = target (s.csr 0x305#12) code ∧
      (cycleEnd (some c) npc s).csr 0x342#12 = BitVec.ofNat 32 code :=
  have h := cycleEnd_some_post c npc s
  ⟨c.code.toNat, c.code_mem, h.pc, h.csr _⟩

/-- Settles O9: an instruction's effect leaves pc to the cycle's end, and the fetch changes nothing that the
redirection depends on. -/
theorem pcAfterACycle : Obligations.PcAfterACycle := by
  intro s t h
  obtain ⟨hreg, hpc, hcsr⟩ := afterFetch_readings s
  rcases step_cases s with ⟨-, he⟩ | ⟨-, -, he⟩ | ⟨i, hmap, hreads, he⟩ <;> rw [he] at h
  · rw [endCycle_next h]
    exact .inr (trapped_pc_mcause _ _ _)
  · rw [endCycle_next h, ← hcsr]
    exact .inr (trapped_pc_mcause _ _ _)
  · rcases exec_next h with ⟨c, rfl⟩ | ⟨u, -, rfl⟩
    · rw [← hcsr]
      exact .inr (trapped_pc_mcause _ _ _)
    · refine .inl ⟨i, hmap, hreads, ?_⟩
      rw [(cycleEnd_none_post _ _).pc, redirects_congr i hreg hpc (hcsr _), hpc]

theorem decodeWord_of_decode {b0 b1 b2 b3 : Byte} {i : Instr} (h : decode [b0, b1, b2, b3] = .ok (i, [])) :
    decodeWord (wordOfBytes b0 b1 b2 b3) = .ok i := by
  cases hw : decodeWord (wordOfBytes b0 b1 b2 b3) with
  | error e => simp [decode, hw] at h
  | ok j => simpa [decode, hw] using h

/-- Settles O6: a fetch in RAM reads the four bytes at pc and changes nothing; a fetch at the console takes its byte. -/
theorem stepRunsTheDecodedInstruction : Obligations.StepRunsTheDecodedInstruction := by
  refine ⟨fun s i hr hd => ?_, fun s i hc hd => ?_, beginCycle_post⟩
  · have hreads : Reads (busValue s s.pc) i := by
      rw [busValue, if_pos hr, ← ramWord_eq]
      exact decodeWord_of_decode hd
    rw [step_reads (.inl hr) hreads, afterRead, if_pos hr]
  · have hr : ¬ InRange s.pc := by rw [hc]; exact consoleAddr_notInRange
    have hreads : Reads (busValue s s.pc) i := by rw [busValue, if_neg hr]; exact hd
    rw [step_reads (.inr hc) hreads, afterRead, if_neg hr]

/-- Settles O7: the trap is taken in the state with which the cycle begins. -/
theorem fetchFaultTraps : Obligations.FetchFaultTraps := by
  intro s h
  have hp := cycleEnd_some_post .loadAccessFault s.pc (beginCycle s)
  exact ⟨_, step_notMapped h, { hp with reg := fun r => (hp.reg r).trans (beginCycle_reg r) }⟩

/-- Settles O37: JAL x0 writes no register and redirects to pc + 0. -/
theorem selfLoopStays : Obligations.SelfLoopStays := by
  rintro s ⟨hram, hword⟩
  have hr : InRange s.pc := (inRam_iff _).1 hram
  have hreads : Reads (busValue s s.pc) (.jal 0 0) := by
    rw [busValue, if_pos hr, ← ramWord_eq, hword]
    unfold Reads
    decide
  have hstep : step s = .next (cycleEnd none (s.pc + sext21 0) (beginCycle s)) := by
    rw [step_reads (.inl hr) hreads, afterRead, if_pos hr]
    rfl
  have hp := cycleEnd_none_post (s.pc + sext21 0) (beginCycle s)
  exact ⟨_, hstep, { hp with
    reg := fun r => (hp.reg r).trans (beginCycle_reg r)
    pc := hp.pc.trans (by simp [sext21]) }⟩

/-! ## The pieces of state -/

/-- Settles O15, from what a register reads after a register write. -/
theorem registerFile : Obligations.RegisterFile := by
  refine fun s r j v => ⟨s.reg_zero, rfl, fun hr => ?_, fun hj => ?_⟩
  · rw [State.reg_setReg, if_pos ⟨rfl, hr⟩]
  · rw [State.reg_setReg, if_neg fun h => hj h.1]

/-- Settles O16, from what a CSR reads after a CSR write. -/
theorem csrFileStoresEveryValue : Obligations.CsrFileStoresEveryValue :=
  fun s n m v => ⟨s.csr_setCsr_same n v, fun hm => by rw [State.csr_setCsr, if_neg hm]⟩

/-! ## The frames, over every instruction -/

/-- Settles O50: neither an effect nor the end of a cycle writes another register. -/
theorem registersChangeOnlyAtTheDestination : Obligations.RegistersChangeOnlyAtTheDestination := by
  intro i s t r h hr
  rcases exec_next h with ⟨c, rfl⟩ | ⟨u, hu, rfl⟩
  · rw [cycleEnd_reg]
  · rw [cycleEnd_reg, hu.reg hr]

/-- Settles O51: a bus write at the access address is the only effect on RAM. -/
theorem ramChangesOnlyWhereStored : Obligations.RamChangesOnlyWhereStored := by
  intro i s t x h hx
  rcases exec_next h with ⟨c, rfl⟩ | ⟨u, hu, rfl⟩
  · rw [cycleEnd_ramByte]
  · rw [cycleEnd_ramByte, hu.ramByte hx]

/-- Settles O52: an effect writes the CSR of the instruction's field, the end of the cycle the other four. -/
theorem csrsChangeOnlyWhereWritten : Obligations.CsrsChangeOnlyWhereWritten := by
  intro i s t n h hn hother
  rcases exec_next h with ⟨c, rfl⟩ | ⟨u, hu, rfl⟩
  · rw [cycleEnd_csr, csrAfter_other _ _ _ hother]
  · rw [cycleEnd_csr, csrAfter_other _ _ _ hother, hu.csr hn]

theorem exec_keeps_resv {i : Instr} {s t : State} (ht : touchesReservation i = false)
    (h : exec i s = .next t) : t.resv = s.resv := by
  rcases exec_next h with ⟨c, rfl⟩ | ⟨u, hu, rfl⟩
  · rw [cycleEnd_resv]
  · rw [cycleEnd_resv, hu.resv ht]

/-- LR.W at a mapped address reserves exactly that address (R261, R262). -/
theorem execLrW_reserves {s t : State} {rd rs1 : Reg} (ha : Mapped (s.reg rs1))
    (h : execLrW rd rs1 s = .next t) : t.resv = ⟨true, s.reg rs1⟩ := by
  rw [execLrW_read (memRead_mapped ha s)] at h
  rw [endCycle_next h, cycleEnd_resv, State.setReg_resv, State.setResv_resv]

/-- SC.W at the reserved address succeeds (R263). -/
theorem execScW_reserved {s t : State} {rd rs1 rs2 : Reg} (hrd : rd ≠ 0) (ha : Mapped (s.reg rs1))
    (hv : s.resv = ⟨true, s.reg rs1⟩) (h : execScW rd rs1 rs2 s = .next t) : t.reg rd = 0#32 := by
  have hm := memRead_mapped ha s
  obtain ⟨w, hw⟩ := memWrite_of_memRead
    (t := (afterRead s (s.reg rs1)).setResv ⟨false, s.resv.addr⟩) 4 (s.reg rs2) hm
  rw [execScW_success hm (by rw [hv]; exact ⟨rfl, rfl⟩) hw] at h
  rw [endCycle_next h, cycleEnd_reg, State.reg_setReg, if_pos ⟨rfl, hrd⟩]

/-- Settles O49: the instruction between LR.W and SC.W leaves the reservation that LR.W made. -/
theorem onlyLrAndScTouchTheReservation : Obligations.OnlyLrAndScTouchTheReservation := by
  refine ⟨fun i s t => exec_keeps_resv, ?_⟩
  intro s t u v aq rl aq' rl' rd rs1 rs2 rd' rs2' i hrd hlr ha ht hi hreg hsc
  have hresv : u.resv = ⟨true, u.reg rs1⟩ := by
    rw [exec_keeps_resv ht hi, execLrW_reserves ha hlr, hreg]
  exact execScW_reserved hrd (by rwa [hreg]) hresv hsc

end Sys2Proof.Machine
end

section
/-! SUPPORT. RAM, the bus and the console in the terms of the statements (20_memory.md R60 to R79), and what host input
that has not been read changes: nothing but the queue it waits in. -/

namespace Sys2Proof.Machine

open Sys2Proof.Claims

variable {s s' u : State} {i : Instr} {a v : Word} {n : Nat}

/-! ## RAM -/

/-- A byte write past the end of RAM does nothing (R72). -/
theorem State.setRamByte_outside {x : Nat} (h : inRam x = false) (b : Byte) : s.setRamByte x b = s := by
  rw [State.setRamByte, h, if_neg Bool.false_ne_true]

/-- The word stored at an address reads back there, when its four bytes lie in RAM (R66, R71). -/
theorem State.ramWord_setRamBytes {x : Nat} (hlo : 0x80000000 ≤ x) (hhi : x + 4 ≤ 0x84000000) (s : State)
    (v : Word) : (s.setRamBytes x v 4).ramWord x = v := by
  have hbyte : ∀ k < 4, (s.setRamBytes x v 4).ramByte (x + k) = byteOf v k := fun k hk => by
    rw [State.ramByte_setRamBytes, if_pos ⟨by omega, by omega, (inRam_iff _).2 (by omega)⟩,
      Nat.add_sub_cancel_left]
  have h0 := hbyte 0 (by decide)
  rw [Nat.add_zero] at h0
  rw [State.ramWord, h0, hbyte 1 (by decide), hbyte 2 (by decide), hbyte 3 (by decide), wordOfBytes_bytesOf]

@[simp] theorem cycleEnd_ramWord (e : Option Cause) (npc : Word) (s : State) (x : Nat) :
    (cycleEnd e npc s).ramWord x = s.ramWord x := by
  simp [State.ramWord]

/-! ## Bus writes (R61): beside `memWrite_pc`, `memWrite_reg`, `memWrite_csr` and `memWrite_resv` -/

/-- A bus write at a mapped address does not fault. -/
theorem memWrite_mapped (h : Mapped a) (n : Nat) (v : Word) (s : State) : ∃ t, memWrite a n v s = some t :=
  memWrite_of_memRead n v (memRead_mapped h s)

/-- A bus write anywhere else faults. -/
theorem memWrite_notMapped (h : ¬ Mapped a) (n : Nat) (v : Word) (s : State) : memWrite a n v s = none := by
  rw [not_or] at h
  exact memWrite_unmapped (Bool.eq_false_iff.2 fun hr => h.1 ((inRam_iff _).1 hr)) h.2

theorem memWrite_exc (h : memWrite a n v s = some s') : s'.exc = s.exc := by
  rcases memWrite_cases h with ⟨-, rfl⟩ | ⟨-, -, rfl⟩ <;> simp
theorem memWrite_keeps_console (h : memWrite a n v s = some s') : s'.console = s.console := by
  rcases memWrite_cases h with ⟨-, rfl⟩ | ⟨-, -, rfl⟩ <;> simp
theorem memWrite_hostIn (h : memWrite a n v s = some s') : s'.hostIn = s.hostIn := by
  rcases memWrite_cases h with ⟨-, rfl⟩ | ⟨-, -, rfl⟩ <;> simp

/-- Every RAM byte after a bus write. -/
theorem memWrite_ramWith (h : memWrite a n v s = some s') (x : Nat) : s'.ramByte x = ramWith s a n v x := by
  rcases memWrite_cases h with ⟨hr, rfl⟩ | ⟨hr, -, rfl⟩
  · have hin : InRange a := (inRam_iff _).1 hr
    have hiff : (a.toNat ≤ x ∧ x < a.toNat + n ∧ inRam x = true) ↔
        (InRange a ∧ a.toNat ≤ x ∧ x < a.toNat + n ∧ x < 0x84000000) := by
      rw [inRam_iff]; omega
    rw [State.ramByte_setRamBytes, ramWith, byteOf_eq]
    simp only [hiff]
  · have hin : ¬ InRange a := fun hc => by rw [(inRam_iff _).2 hc] at hr; cases hr
    rw [ramWith, if_neg fun hc => hin hc.1]
    rfl

/-- The bytes emitted after a bus write. -/
theorem memWrite_outWith (h : memWrite a n v s = some s') : s'.consOut = outWith s a v := by
  rcases memWrite_cases h with ⟨hr, rfl⟩ | ⟨-, rfl, rfl⟩
  · have hc : a ≠ 0x10000000#32 := by rintro rfl; exact consoleAddr_notInRange ((inRam_iff _).1 hr)
    rw [State.setRamBytes_consOut, outWith, if_neg hc]
  · have hc : Config.consoleAddr = 0x10000000#32 := rfl
    rw [State.emit_consOut, byteOf_eq, outWith, if_pos hc, Nat.pow_zero, Nat.div_one]

theorem storeFrom_write {ea : Word} (hm : memWrite ea n v s = some s') : storeFrom n v ea s = complete s' := by
  simp only [storeFrom, hm]

/-- SW in RAM (R198). -/
theorem exec_sw_ram {rs1 : Reg} {imm : BitVec 12} (hea : s.reg rs1 + imm.signExtend 32 = a) (hr : InRange a)
    (rs2 : Reg) :
    exec (.sw rs1 rs2 imm) s = .next (cycleEnd none (s.pc + 4#32) (s.setRamBytes a.toNat (s.reg rs2) 4)) := by
  have hexec : exec (.sw rs1 rs2 imm) s = storeFrom 4 (s.reg rs2) (s.reg rs1 + imm.signExtend 32) s := rfl
  rw [hexec, hea, storeFrom_write (memWrite_ram ((inRam_iff _).2 hr)), complete, endCycle, State.setRamBytes_pc]

/-! ## Console reads (R77), when no closed line is buffered -/

theorem newline_eq : newline = 0x0A#8 := rfl

/-- A console read with no buffered byte answers what the loop over the host's bytes answers. -/
theorem consoleRead_of_rxFifo_nil (h : s.console.rxFifo = []) :
    consoleRead s = ((takeHostInput s.console.lineAcc s.console.overflow s.hostIn).1,
      s.setConsole (takeHostInput s.console.lineAcc s.console.overflow s.hostIn).2.1
        (takeHostInput s.console.lineAcc s.console.overflow s.hostIn).2.2) := by
  unfold consoleRead; rw [h]

/-- Host bytes that are no newlines join the open line, but for those past its 256 bytes, which are dropped. -/
theorem takeHostInput_append {line : List Byte} (hn : newline ∉ line) (l : List Byte) (o : Bool)
    (rest : List Byte) :
    takeHostInput l o (line ++ rest) = takeHostInput (kept l line) (o || overflows l line) rest := by
  induction line generalizing l o with
  | nil => simp [kept, overflows]
  | cons b line ih =>
    rw [List.mem_cons, not_or] at hn
    rw [List.cons_append, takeHostInput_byte (Ne.symm hn.1)]
    split
    next hroom =>
      have hroom : l.length < 256 := hroom
      have hkept : kept (l ++ [b]) line = kept l (b :: line) := by
        obtain ⟨k, hk⟩ : ∃ k, 256 - l.length = k + 1 := ⟨255 - l.length, by omega⟩
        have hk' : 256 - (l ++ [b]).length = k := by simp; omega
        rw [kept, kept, hk, hk', List.take_succ_cons, List.append_assoc, List.singleton_append]
      have hover : overflows (l ++ [b]) line = overflows l (b :: line) := by
        simp [overflows]; omega
      rw [ih hn.2, hkept, hover]
    next hfull =>
      have hfull : 256 - l.length = 0 := Nat.sub_eq_zero_of_le (Nat.not_lt.1 hfull)
      have hkept : ∀ bytes, kept l bytes = l := fun bytes => by simp [kept, hfull]
      have hover : overflows l (b :: line) = true := by simp [overflows, hfull]
      rw [ih hn.2, hkept, hkept, hover, Bool.true_or, Bool.or_true]

/-! ## Accesses that are not at the console's address -/

/-- The address that an instruction accesses is not the console's, if no access of it is there. -/
theorem access_elsewhere (h : ∀ n, access i s ≠ some (0x10000000#32, n)) (ha : access i s = some (a, n)) :
    a ≠ 0x10000000#32 := by
  rintro rfl; exact h n ha

/-- A bus read elsewhere changes nothing (R60). -/
theorem memRead_elsewhere (ha : a ≠ 0x10000000#32) (hm : memRead a s = some (v, s')) : s' = s := by
  by_cases hr : InRange a
  · rw [memRead_mapped (.inl hr), afterRead, if_pos hr] at hm
    cases hm; rfl
  · rw [memRead_notMapped (not_or.2 ⟨hr, ha⟩)] at hm; cases hm

/-- An instruction whose access is elsewhere has no effect on the console, its queue and its output (R63, R79). -/
theorem Effect.console_elsewhere (h : Effect i s u) (ha : ∀ n, access i s ≠ some (0x10000000#32, n)) :
    u.console = s.console ∧ u.hostIn = s.hostIn ∧ u.consOut = s.consOut := by
  induction h with
  | start => exact ⟨rfl, rfl, rfl⟩
  | setReg _ _ _ ih => rwa [State.setReg_console, State.setReg_hostIn, State.setReg_consOut]
  | setCsr _ _ _ ih => exact ih
  | setResv _ _ _ ih => exact ih
  | read _ hacc hm ih => rwa [memRead_elsewhere (access_elsewhere ha hacc) hm]
  | write _ hacc hm ih =>
    rwa [memWrite_keeps_console hm, memWrite_hostIn hm, memWrite_outWith hm, outWith,
      if_neg (access_elsewhere ha hacc)]

/-! ## Host input that waits (R76): each operation does the same whatever has arrived -/

variable (bytes : List Byte)

@[simp] theorem State.hostSends_reg (r : Reg) : (s.hostSends bytes).reg r = s.reg r := rfl
@[simp] theorem State.hostSends_pc : (s.hostSends bytes).pc = s.pc := rfl
@[simp] theorem State.hostSends_csr (m : CsrIndex) : (s.hostSends bytes).csr m = s.csr m := rfl
@[simp] theorem State.hostSends_exc : (s.hostSends bytes).exc = s.exc := rfl
@[simp] theorem State.hostSends_resv : (s.hostSends bytes).resv = s.resv := rfl

theorem setCsr_hostSends (m : CsrIndex) (v : Word) (s : State) :
    (s.hostSends bytes).setCsr m v = (s.setCsr m v).hostSends bytes := rfl

theorem setResv_hostSends (r : Reservation) (s : State) :
    (s.hostSends bytes).setResv r = (s.setResv r).hostSends bytes := rfl

theorem setExc_hostSends (e : Option Cause) (s : State) :
    (s.hostSends bytes).setExc e = (s.setExc e).hostSends bytes := rfl

theorem setReg_hostSends (r : Reg) (v : Word) (s : State) :
    (s.hostSends bytes).setReg r v = (s.setReg r v).hostSends bytes := by
  by_cases hr : r = 0
  · subst hr; rfl
  · simp only [State.setReg, hr, if_false]; rfl

theorem setRamByte_hostSends (x : Nat) (b : Byte) (s : State) :
    (s.hostSends bytes).setRamByte x b = (s.setRamByte x b).hostSends bytes := by
  by_cases hx : inRam x = true
  · simp only [State.setRamByte, hx, if_true]; rfl
  · rw [Bool.not_eq_true] at hx
    rw [State.setRamByte_outside hx, State.setRamByte_outside hx]

theorem setRamBytes_hostSends (x : Nat) (v : Word) (n : Nat) (s : State) :
    (s.hostSends bytes).setRamBytes x v n = (s.setRamBytes x v n).hostSends bytes := by
  induction n with
  | zero => rfl
  | succ n ih => rw [State.setRamBytes, State.setRamBytes, ih, setRamByte_hostSends]

theorem counterUpdate_hostSends (s : State) :
    counterUpdate (s.hostSends bytes) = (counterUpdate s).hostSends bytes := by
  unfold counterUpdate
  rw [State.hostSends_csr]
  dsimp only
  split_ifs <;> rfl

theorem trapDispatch_hostSends (npc : Word) (s : State) :
    trapDispatch npc (s.hostSends bytes) = (trapDispatch npc s).hostSends bytes := by
  unfold trapDispatch
  rw [State.hostSends_exc]
  cases s.exc <;> rfl

theorem cycleEnd_hostSends (e : Option Cause) (npc : Word) (s : State) :
    cycleEnd e npc (s.hostSends bytes) = (cycleEnd e npc s).hostSends bytes := by
  rw [cycleEnd, cycleEnd, setExc_hostSends, counterUpdate_hostSends, trapDispatch_hostSends]

/-- A bus read elsewhere than at the console, at a mapped and at an unmapped address. -/
theorem memRead_hostSends (ha : a ≠ 0x10000000#32) (s : State) :
    memRead a (s.hostSends bytes) = (memRead a s).map fun p => (p.1, p.2.hostSends bytes) := by
  by_cases hr : InRange a
  · rw [memRead_ram ((inRam_iff _).2 hr), memRead_ram ((inRam_iff _).2 hr)]; rfl
  · have hm : ¬ Mapped a := not_or.2 ⟨hr, ha⟩
    rw [memRead_notMapped hm, memRead_notMapped hm]; rfl

/-- A bus write, at the console too: no write reads the host's queue. -/
theorem memWrite_hostSends (a : Word) (n : Nat) (v : Word) (s : State) :
    memWrite a n v (s.hostSends bytes) = (memWrite a n v s).map (State.hostSends bytes) := by
  by_cases hr : inRam a.toNat = true
  · rw [memWrite_ram hr, memWrite_ram hr, setRamBytes_hostSends]; rfl
  · rw [Bool.not_eq_true] at hr
    by_cases hc : a = Config.consoleAddr
    · subst hc; rw [memWrite_console, memWrite_console]; rfl
    · rw [memWrite_unmapped hr hc, memWrite_unmapped hr hc]; rfl

/-- The answer of an instruction with these bytes appended to the host's queue of its next state. -/
def thenSent (bytes : List Byte) : Result → Result
  | .next t => .next (t.hostSends bytes)
  | .fault r => .fault r
  | .refused r => .refused r

theorem endCycle_hostSends (e : Option Cause) (npc : Word) (s : State) :
    endCycle e npc (s.hostSends bytes) = thenSent bytes (endCycle e npc s) :=
  congrArg Host.Outcome.next (cycleEnd_hostSends bytes e npc s)

theorem complete_hostSends (s : State) : complete (s.hostSends bytes) = thenSent bytes (complete s) :=
  endCycle_hostSends bytes _ _ s

theorem redirect_hostSends (target : Word) (s : State) :
    redirect target (s.hostSends bytes) = thenSent bytes (redirect target s) :=
  endCycle_hostSends bytes _ _ s

theorem takeException_hostSends (c : Cause) (s : State) :
    takeException c (s.hostSends bytes) = thenSent bytes (takeException c s) :=
  endCycle_hostSends bytes _ _ s

theorem writeBack_hostSends (rd : Reg) (v : Word) (s : State) :
    writeBack rd v (s.hostSends bytes) = thenSent bytes (writeBack rd v s) := by
  rw [writeBack, writeBack, setReg_hostSends, complete_hostSends]

theorem jumpAndLink_hostSends (rd : Reg) (target : Word) (s : State) :
    jumpAndLink rd target (s.hostSends bytes) = thenSent bytes (jumpAndLink rd target s) := by
  rw [jumpAndLink, jumpAndLink, State.hostSends_pc, setReg_hostSends, redirect_hostSends]

theorem branchIf_hostSends (c : Bool) (offset : BitVec 13) (s : State) :
    branchIf c offset (s.hostSends bytes) = thenSent bytes (branchIf c offset s) := by
  cases c with
  | true => exact redirect_hostSends bytes _ s
  | false => exact complete_hostSends bytes s

theorem csrAccess_hostSends (f : Word → Word → Word) (rd : Reg) (n : CsrIndex) (src : Word) (s : State) :
    csrAccess f rd n src (s.hostSends bytes) = thenSent bytes (csrAccess f rd n src s) := by
  simp only [csrAccess, State.hostSends_csr, setReg_hostSends, setCsr_hostSends, complete_hostSends]

theorem loadInto_hostSends (f : Word → Word) (rd : Reg) {ea : Word} (ha : ea ≠ 0x10000000#32) (s : State) :
    loadInto f rd ea (s.hostSends bytes) = thenSent bytes (loadInto f rd ea s) := by
  unfold loadInto
  rw [memRead_hostSends bytes ha]
  cases memRead ea s with
  | none => exact takeException_hostSends bytes _ s
  | some p => dsimp only [Option.map_some]; rw [setReg_hostSends, complete_hostSends]

theorem storeFrom_hostSends (n : Nat) (v ea : Word) (s : State) :
    storeFrom n v ea (s.hostSends bytes) = thenSent bytes (storeFrom n v ea s) := by
  unfold storeFrom
  rw [memWrite_hostSends]
  cases memWrite ea n v s with
  | none => exact takeException_hostSends bytes _ s
  | some t => exact complete_hostSends bytes t

theorem amoUpdate_hostSends (op : Word → Word → Word) (rd : Reg) {rs1 : Reg} (rs2 : Reg) {s : State}
    (ha : s.reg rs1 ≠ 0x10000000#32) :
    amoUpdate op rd rs1 rs2 (s.hostSends bytes) = thenSent bytes (amoUpdate op rd rs1 rs2 s) := by
  unfold amoUpdate
  dsimp only
  rw [State.hostSends_reg, State.hostSends_reg, memRead_hostSends bytes ha]
  cases memRead (s.reg rs1) s with
  | none => exact takeException_hostSends bytes _ s
  | some p =>
    dsimp only [Option.map_some]
    rw [memWrite_hostSends]
    cases memWrite (s.reg rs1) 4 (op p.1 (s.reg rs2)) p.2 with
    | none => exact takeException_hostSends bytes _ s
    | some t => dsimp only [Option.map_some]; rw [setReg_hostSends, complete_hostSends]

theorem execLrW_hostSends (rd : Reg) {rs1 : Reg} {s : State} (ha : s.reg rs1 ≠ 0x10000000#32) :
    execLrW rd rs1 (s.hostSends bytes) = thenSent bytes (execLrW rd rs1 s) := by
  have hm := memRead_hostSends bytes ha s
  cases h : memRead (s.reg rs1) s with
  | none =>
    rw [h] at hm
    rw [execLrW_fault h, execLrW_fault hm, takeException_hostSends]
  | some p =>
    rw [h] at hm
    rw [execLrW_read h, execLrW_read hm, State.hostSends_reg, setResv_hostSends, setReg_hostSends,
      complete_hostSends]

theorem execScW_hostSends (rd : Reg) {rs1 : Reg} (rs2 : Reg) {s : State} (ha : s.reg rs1 ≠ 0x10000000#32) :
    execScW rd rs1 rs2 (s.hostSends bytes) = thenSent bytes (execScW rd rs1 rs2 s) := by
  have hm := memRead_hostSends bytes ha s
  cases h : memRead (s.reg rs1) s with
  | none =>
    rw [h] at hm
    rw [execScW_fault h, execScW_fault hm, takeException_hostSends]
  | some p =>
    rw [h] at hm
    by_cases hv : s.resv.valid = true ∧ s.resv.addr = s.reg rs1
    · obtain ⟨w, hw⟩ := memWrite_of_memRead (t := p.2.setResv ⟨false, s.resv.addr⟩) 4 (s.reg rs2) h
      have hw' := memWrite_hostSends bytes (s.reg rs1) 4 (s.reg rs2) (p.2.setResv ⟨false, s.resv.addr⟩)
      rw [hw] at hw'
      rw [execScW_success h hv hw, execScW_success (s := s.hostSends bytes) hm hv hw', setReg_hostSends,
        complete_hostSends]
    · rw [execScW_failure h hv, execScW_failure (s := s.hostSends bytes) hm hv, State.hostSends_resv,
        setResv_hostSends, setReg_hostSends, complete_hostSends]

/-- An instruction whose access is not at the console's address answers the same whatever has arrived. -/
theorem exec_hostSends (h : ∀ n, access i s ≠ some (0x10000000#32, n)) :
    exec i (s.hostSends bytes) = thenSent bytes (exec i s) := by
  cases i with
  | lui | auipc | addi | slti | sltiu | xori | ori | andi | slli | srli | srai | add | sub | sll | slt | sltu
  | xor | srl | sra | or | and | mul | mulh | mulhsu | mulhu | div | divu | rem | remu =>
    exact writeBack_hostSends bytes _ _ s
  | lb | lh | lw | lbu | lhu => exact loadInto_hostSends bytes _ _ (access_elsewhere h rfl) s
  | sb | sh | sw => exact storeFrom_hostSends bytes _ _ _ s
  | jal | jalr => exact jumpAndLink_hostSends bytes _ _ s
  | beq | bne | blt | bge | bltu | bgeu => exact branchIf_hostSends bytes _ _ s
  | fence | fenceI | miscMemRsv01x | miscMemRsv1xx => exact complete_hostSends bytes s
  | ecall | ebreak => exact takeException_hostSends bytes _ s
  | mret => exact redirect_hostSends bytes _ s
  | csrrw | csrrs | csrrc | csrrwi | csrrsi | csrrci => exact csrAccess_hostSends bytes _ _ _ _ s
  | lrW => exact execLrW_hostSends bytes _ (access_elsewhere h rfl)
  | scW => exact execScW_hostSends bytes _ _ (access_elsewhere h rfl)
  | amoswapW | amoaddW | amoxorW | amoandW | amoorW | amominW | amomaxW | amominuW | amomaxuW =>
    unfold exec
    exact amoUpdate_hostSends bytes _ _ _ (access_elsewhere h rfl)

end Sys2Proof.Machine
end

section
/-! The statements of 20_memory.md about RAM, the bus and the console, settled. -/

namespace Sys2Proof.Machine

open Sys2Proof.Claims

/-- Settles O17, from what a byte reads after a byte write. -/
theorem ramBytes : Obligations.RamBytes := by
  refine fun s a x b => ⟨fun hlo hhi => ?_, fun hx => ?_, fun ha => ?_⟩
  · rw [State.ramByte_setRamByte, if_pos ⟨rfl, (inRam_iff a).2 ⟨hlo, hhi⟩⟩]
  · rw [State.ramByte_setRamByte, if_neg fun h => hx h.1]
  · have hout : inRam a = false := Bool.eq_false_iff.2 fun hr => Nat.not_lt.2 ha ((inRam_iff a).1 hr).2
    exact ⟨s.ramByte_outside hout, State.setRamByte_outside hout b⟩

/-- Settles O18: the two kinds of mapped address, and the rest. -/
theorem busReads : Obligations.BusReads := by
  refine fun s a => ⟨fun hr => ?_, ?_, fun h => memRead_notMapped h s⟩
  · rw [memRead_mapped (.inl hr), busValue, afterRead, if_pos hr, if_pos hr]
  · rintro rfl
    rw [memRead_mapped (.inr rfl), busValue, afterRead, if_neg consoleAddr_notInRange,
      if_neg consoleAddr_notInRange]

/-- Settles O19, from what each reading of the state gives after a bus write. -/
theorem busWrites : Obligations.BusWrites := by
  refine fun s a v n _ => ⟨fun ha => ?_, fun ha => memWrite_notMapped ha n v s⟩
  obtain ⟨t, ht⟩ := memWrite_mapped ha n v s
  exact ⟨t, ht, memWrite_reg ht, memWrite_pc ht, memWrite_csr ht, memWrite_ramWith ht, memWrite_resv ht,
    memWrite_exc ht, memWrite_keeps_console ht, memWrite_hostIn ht, memWrite_outWith ht⟩

/-- Settles O20: the bytes before the first newline join the open line, and the newline, if there is one, closes it or
passes over it. -/
theorem consoleReads : Obligations.ConsoleReads := by
  refine ⟨fun s b rest h => ?_, fun s line rest b bs h hin hn hk => ?_, fun s rest h hl hin => ?_,
    fun s h hn => ?_⟩
  · unfold consoleRead; rw [h]
  · rw [consoleRead_of_rxFifo_nil h, hin, takeHostInput_append hn, hk, ← newline_eq, takeHostInput_line]
  · have h' : (s.setConsole s.console rest).console.rxFifo = [] := h
    rw [consoleRead_of_rxFifo_nil h, consoleRead_of_rxFifo_nil h', hin, hl, ← newline_eq,
      takeHostInput_emptyLine, State.setConsole_console, hl]
    rfl
  · have hrun := takeHostInput_append hn s.console.lineAcc s.console.overflow []
    rw [List.append_nil] at hrun
    rw [consoleRead_of_rxFifo_nil h, hrun, takeHostInput]

/-- Settles O34: after the store the four bytes at pc + 4 are the word's, and the cycle moves pc there. -/
theorem storeIsSeenByTheNextFetch : Obligations.StoreIsSeenByTheNextFetch := by
  intro s t rs1 rs2 imm i h hea hlo hhi hd
  have hr : InRange (s.pc + 4#32) := ⟨hlo, by omega⟩
  rw [exec_sw_ram hea hr] at h
  injection h with ht
  have hpc : t.pc = s.pc + 4#32 := by rw [← ht, cycleEnd_pc, pcAfter]
  have hword : t.ramWord (s.pc + 4#32).toNat = s.reg rs2 := by
    rw [← ht, cycleEnd_ramWord, State.ramWord_setRamBytes hlo hhi]
  have hreads : Reads (busValue t t.pc) i := by
    rw [hpc, busValue, if_pos hr, ← ramWord_eq, hword]
    exact hd
  rw [step_reads (.inl (hpc ▸ hr)) hreads, afterRead, if_pos (hpc ▸ hr)]

/-- Settles O53: neither an effect at another address nor the end of a cycle touches the console. -/
theorem consoleChangesOnlyByItsAccesses : Obligations.ConsoleChangesOnlyByItsAccesses := by
  intro i s t h ha
  rcases exec_next h with ⟨c, rfl⟩ | ⟨u, hu, rfl⟩ <;>
    rw [cycleEnd_console, cycleEnd_hostIn, cycleEnd_consOut]
  · exact ⟨rfl, rfl, rfl⟩
  · exact hu.console_elsewhere ha

/-- Settles O14: the instruction's answer commutes with the arrival of bytes. -/
theorem hostInputWaits : Obligations.HostInputWaits := by
  intro i s t bytes ha h
  rw [exec_hostSends bytes ha, h, thenSent]

end Sys2Proof.Machine
end

section
/-! SUPPORT. Each format put together again from a word's fields, R114's list on those fields, and the decoder's answer
to every word of a class: an instruction whose word it is, or a reason for a word of the list (30_encoding.md R100 to
R114). -/

namespace Sys2Proof

open Sys2Proof.Claims

/-! ## The formats of a word whose fixed fields are known (R102) -/

variable {w : Word} {op f7 : BitVec 7} {f5 : BitVec 5} {f3 : BitVec 3}

theorem encodeI_of_fields (hop : opcodeOf w = op) (h3 : funct3Of w = f3) :
    encodeI (immIOf w) (rs1Of w) f3 (rdOf w) op = w := by
  subst hop h3; exact encodeI_fields w

theorem encodeShift_of_fields (hop : opcodeOf w = 0b0010011#7) (h3 : funct3Of w = f3) (h7 : funct7Of w = f7) :
    encodeShift f7 (shamtOf w) (rs1Of w) f3 (rdOf w) = w := by
  subst h3 h7; exact encodeShift_fields hop

theorem encodeCsr_of_fields (hop : opcodeOf w = 0b1110011#7) (h3 : funct3Of w = f3) :
    encodeI (csrOf w) (rs1Of w) f3 (rdOf w) 0b1110011#7 = w := encodeI_of_fields hop h3

theorem encodeCsrI_of_fields (hop : opcodeOf w = 0b1110011#7) (h3 : funct3Of w = f3) :
    encodeCsrI (csrOf w) (zimmOf w) f3 (rdOf w) = w := by
  subst h3; exact encodeCsrI_fields hop

theorem encodeR_of_fields (hop : opcodeOf w = op) (h3 : funct3Of w = f3) (h7 : funct7Of w = f7) :
    encodeR f7 (rs2Of w) (rs1Of w) f3 (rdOf w) op = w := by
  subst hop h3 h7; exact encodeR_fields w

theorem encodeS_of_fields (hop : opcodeOf w = 0b0100011#7) (h3 : funct3Of w = f3) :
    encodeS (immSOf w) (rs2Of w) (rs1Of w) f3 = w := by
  subst h3; exact encodeS_fields hop

theorem encodeB_of_fields (hop : opcodeOf w = 0b1100011#7) (h3 : funct3Of w = f3) :
    encodeB (immBOf w) (rs2Of w) (rs1Of w) f3 = w := by
  subst h3; exact encodeB_fields hop

theorem encodeU_of_fields (hop : opcodeOf w = op) : encodeU (imm20Of w) (rdOf w) op = w := by
  subst hop; exact encodeU_fields w

theorem encodeAmo_of_fields (hop : opcodeOf w = 0b0101111#7) (h3 : funct3Of w = 0b010#3) (h5 : funct5Of w = f5) :
    encodeAmo f5 (aqOf w) (rlOf w) (rdOf w) (rs1Of w) (rs2Of w) = w := by
  subst h5; exact encodeAmo_fields hop h3

/-! ## R114's list on the fields the decoder looks at -/

theorem opcodeOf_toNat (w : Word) : (opcodeOf w).toNat = w.toNat % 2 ^ 7 := by
  rw [opcodeOf, toNat_slice, pow_zero, Nat.div_one]

theorem funct3Of_toNat (w : Word) : (funct3Of w).toNat = w.toNat / 2 ^ 12 % 2 ^ 3 := toNat_slice _ _ _

theorem funct7Of_toNat (w : Word) : (funct7Of w).toNat = w.toNat / 2 ^ 25 := by
  rw [funct7Of, toNat_slice]; omega

theorem funct5Of_toNat (w : Word) : (funct5Of w).toNat = w.toNat / 2 ^ 27 := by
  rw [funct5Of, toNat_slice]; omega

/-- The list compares numbers, the decoder bit patterns. -/
theorem listed_iff (w : Word) : Listed w ↔
    opcodeOf w ∉ [0b0110111#7, 0b0010111#7, 0b0010011#7, 0b0110011#7, 0b0000011#7, 0b0100011#7,
      0b1101111#7, 0b1100111#7, 0b1100011#7, 0b0001111#7, 0b1110011#7, 0b0101111#7] ∨
    (opcodeOf w = 0b0010011#7 ∧ ((funct3Of w = 0b001#3 ∧ funct7Of w ≠ 0b0000000#7) ∨
      (funct3Of w = 0b101#3 ∧ funct7Of w ≠ 0b0000000#7 ∧ funct7Of w ≠ 0b0100000#7))) ∨
    (opcodeOf w = 0b0110011#7 ∧
      ((funct7Of w ≠ 0b0000000#7 ∧ funct7Of w ≠ 0b0100000#7 ∧ funct7Of w ≠ 0b0000001#7) ∨
      (funct7Of w = 0b0100000#7 ∧ funct3Of w ≠ 0b000#3 ∧ funct3Of w ≠ 0b101#3))) ∨
    (opcodeOf w = 0b0000011#7 ∧ (funct3Of w = 0b011#3 ∨ funct3Of w = 0b110#3 ∨ funct3Of w = 0b111#3)) ∨
    (opcodeOf w = 0b0100011#7 ∧ 3 ≤ (funct3Of w).toNat) ∨
    (opcodeOf w = 0b1100111#7 ∧ funct3Of w ≠ 0b000#3) ∨
    (opcodeOf w = 0b1100011#7 ∧ (funct3Of w = 0b010#3 ∨ funct3Of w = 0b011#3)) ∨
    (opcodeOf w = 0b1110011#7 ∧ (funct3Of w = 0b100#3 ∨
      (funct3Of w = 0b000#3 ∧ w ∉ [0x00000073#32, 0x00100073#32, 0x30200073#32]))) ∨
    (opcodeOf w = 0b0101111#7 ∧ (funct3Of w ≠ 0b010#3 ∨ funct5Of w ∉ [0b00010#5, 0b00011#5, 0b00001#5,
      0b00000#5, 0b00100#5, 0b01100#5, 0b01000#5, 0b10000#5, 0b10100#5, 0b11000#5, 0b11100#5])) := by
  simp only [Listed, ne_eq, List.mem_cons, List.not_mem_nil, ← BitVec.toNat_inj, opcodeOf_toNat, funct3Of_toNat,
    funct7Of_toNat, funct5Of_toNat, BitVec.toNat_ofNat]

theorem funct3_cases (f : BitVec 3) :
    f = 0b000#3 ∨ f = 0b001#3 ∨ f = 0b010#3 ∨ f = 0b011#3 ∨ f = 0b100#3 ∨ f = 0b101#3 ∨ f = 0b110#3 ∨
      f = 0b111#3 := by
  revert f; decide

/-! ## What the decoder answers, class by class (R112 to R114) -/

/-- The answer `r` fits the word: a well-formed instruction whose word it is, and no listed word; or a reason, for a
listed word. -/
def Sound (w : Word) (r : Except Illegal Instr) : Prop :=
  match r with
  | .ok i => i.wf = true ∧ encode i = w ∧ ¬ Listed w
  | .error _ => Listed w

@[simp] theorem sound_ok (w : Word) (i : Instr) :
    Sound w (.ok i) ↔ i.wf = true ∧ encode i = w ∧ ¬ Listed w := Iff.rfl

@[simp] theorem sound_error (w : Word) (e : Illegal) : Sound w (.error e) ↔ Listed w := Iff.rfl

/-- OP-IMM: the shifts look at funct7 too (R108). -/
theorem decodeOpImm_sound (hop : opcodeOf w = 0b0010011#7) : Sound w (decodeOpImm w) := by
  rcases funct3_cases (funct3Of w) with h3 | h3 | h3 | h3 | h3 | h3 | h3 | h3
  case inr.inl =>
    by_cases h7 : funct7Of w = 0b0000000#7
    · simp [decodeOpImm, Instr.wf, encode, listed_iff, hop, h3, h7, encodeShift_of_fields hop h3 h7]
    · simp [decodeOpImm, listed_iff, hop, h3, h7]
  case inr.inr.inr.inr.inr.inl =>
    by_cases hl : funct7Of w = 0b0000000#7
    · simp [decodeOpImm, Instr.wf, encode, listed_iff, hop, h3, hl, encodeShift_of_fields hop h3 hl]
    by_cases ha : funct7Of w = 0b0100000#7
    · simp [decodeOpImm, Instr.wf, encode, listed_iff, hop, h3, ha, encodeShift_of_fields hop h3 ha]
    · simp [decodeOpImm, listed_iff, hop, h3, hl, ha]
  all_goals simp [decodeOpImm, Instr.wf, encode, listed_iff, hop, h3, encodeI_of_fields hop h3]

theorem decodeOp_sound (hop : opcodeOf w = 0b0110011#7) : Sound w (decodeOp w) := by
  by_cases hbase : funct7Of w = 0b0000000#7
  · rcases funct3_cases (funct3Of w) with h3 | h3 | h3 | h3 | h3 | h3 | h3 | h3 <;>
      simp [decodeOp, decodeOpBase, Instr.wf, encode, listed_iff, hop, h3, hbase, encodeR_of_fields hop h3 hbase]
  by_cases halt : funct7Of w = 0b0100000#7
  · rcases funct3_cases (funct3Of w) with h3 | h3 | h3 | h3 | h3 | h3 | h3 | h3 <;>
      simp [decodeOp, Instr.wf, encode, listed_iff, hop, h3, halt, encodeR_of_fields hop h3 halt]
  by_cases hmul : funct7Of w = 0b0000001#7
  · rcases funct3_cases (funct3Of w) with h3 | h3 | h3 | h3 | h3 | h3 | h3 | h3 <;>
      simp [decodeOp, decodeOpM, Instr.wf, encode, listed_iff, hop, h3, hmul, encodeR_of_fields hop h3 hmul]
  · simp [decodeOp, listed_iff, hop, hbase, halt, hmul]

theorem decodeLoad_sound (hop : opcodeOf w = 0b0000011#7) : Sound w (decodeLoad w) := by
  rcases funct3_cases (funct3Of w) with h3 | h3 | h3 | h3 | h3 | h3 | h3 | h3 <;>
    simp [decodeLoad, Instr.wf, encode, listed_iff, hop, h3, encodeI_of_fields hop h3]

theorem decodeStore_sound (hop : opcodeOf w = 0b0100011#7) : Sound w (decodeStore w) := by
  rcases funct3_cases (funct3Of w) with h3 | h3 | h3 | h3 | h3 | h3 | h3 | h3 <;>
    simp [decodeStore, Instr.wf, encode, listed_iff, hop, h3, encodeS_of_fields hop h3]

theorem decodeBranch_sound (hop : opcodeOf w = 0b1100011#7) : Sound w (decodeBranch w) := by
  have heven := immBOf_even w
  rcases funct3_cases (funct3Of w) with h3 | h3 | h3 | h3 | h3 | h3 | h3 | h3 <;>
    simp [decodeBranch, Instr.wf, encode, listed_iff, hop, h3, encodeB_of_fields hop h3,
      -BitVec.getLsbD_eq_getElem]

/-- MISC-MEM: FENCE has a format of its own (R111); no word of the class is listed. -/
theorem decodeMiscMem_sound (hop : opcodeOf w = 0b0001111#7) : Sound w (.ok (decodeMiscMem w)) := by
  rcases funct3_cases (funct3Of w) with h3 | h3 | h3 | h3 | h3 | h3 | h3 | h3
  case inl => simp [decodeMiscMem, Instr.wf, encode, listed_iff, hop, h3, encodeFence_fields hop h3]
  all_goals simp [decodeMiscMem, Instr.wf, encode, listed_iff, hop, h3, encodeI_of_fields hop h3]

/-- SYSTEM: the three exact words, then the CSR forms by funct3 (R240). -/
theorem decodeSystem_sound (hop : opcodeOf w = 0b1110011#7) : Sound w (decodeSystem w) := by
  by_cases hw : w ∈ [0x00000073#32, 0x00100073#32, 0x30200073#32]
  · simp only [List.mem_cons, List.not_mem_nil, or_false] at hw
    rcases hw with rfl | rfl | rfl <;> exact ⟨rfl, rfl, by unfold Listed; decide⟩
  · simp only [List.mem_cons, List.not_mem_nil, or_false, not_or] at hw
    obtain ⟨hcall, hbreak, hret⟩ := hw
    rcases funct3_cases (funct3Of w) with h3 | h3 | h3 | h3 | h3 | h3 | h3 | h3 <;>
      simp [decodeSystem, Instr.wf, encode, listed_iff, hop, h3, hcall, hbreak, hret, encodeCsr_of_fields hop h3,
        encodeCsrI_of_fields hop h3]

theorem decodeAmo_sound (hop : opcodeOf w = 0b0101111#7) : Sound w (decodeAmo w) := by
  by_cases h3 : funct3Of w = 0b010#3
  · by_cases h5 : funct5Of w ∈ [0b00010#5, 0b00011#5, 0b00001#5, 0b00000#5, 0b00100#5, 0b01100#5, 0b01000#5,
      0b10000#5, 0b10100#5, 0b11000#5, 0b11100#5]
    · simp only [List.mem_cons, List.not_mem_nil, or_false] at h5
      rcases h5 with h5 | h5 | h5 | h5 | h5 | h5 | h5 | h5 | h5 | h5 | h5 <;>
        simp [decodeAmo, Instr.wf, encode, listed_iff, hop, h3, h5, encodeAmo_of_fields hop h3 h5]
    · have hl : Listed w := by simp [listed_iff, hop, h5]
      simp only [List.mem_cons, List.not_mem_nil, or_false, not_or] at h5
      simp [decodeAmo, h3, h5, hl]
  · simp [decodeAmo, listed_iff, hop, h3]

/-- The decoder's answer fits every word. -/
theorem decodeWord_sound (w : Word) : Sound w (decodeWord w) := by
  rcases decodeWord_cases w with ⟨hop, hd⟩ | ⟨hop, hd⟩ | ⟨hop, hd⟩ | ⟨hop, hd⟩ | ⟨hop, hd⟩ | ⟨hop, hd⟩ |
    ⟨hop, hd⟩ | ⟨hop, hd⟩ | ⟨hop, hd⟩ | ⟨hop, hd⟩ | ⟨hop, hd⟩ | ⟨hop, hd⟩ | ⟨hop, hd⟩ <;> rw [hd]
  · exact ⟨rfl, encodeU_of_fields hop, by simp [listed_iff, hop]⟩
  · exact ⟨rfl, encodeU_of_fields hop, by simp [listed_iff, hop]⟩
  · exact decodeOpImm_sound hop
  · exact decodeOp_sound hop
  · exact decodeLoad_sound hop
  · exact decodeStore_sound hop
  · exact ⟨by rw [Instr.wf, immJOf_even]; rfl, encodeJ_fields hop, by simp [listed_iff, hop]⟩
  · split_ifs with h3
    · exact ⟨rfl, encodeI_of_fields hop h3, by simp [listed_iff, hop, h3]⟩
    · simp [listed_iff, hop, h3]
  · exact decodeBranch_sound hop
  · exact decodeMiscMem_sound hop
  · exact decodeSystem_sound hop
  · exact decodeAmo_sound hop
  · exact (listed_iff w).2 (.inl hop)

/-- The words that are no instruction are R114's. -/
theorem noInstr_iff_listed (w : Word) : NoInstr w ↔ Listed w := by
  have hs := decodeWord_sound w
  unfold NoInstr
  cases hd : decodeWord w with rw [hd] at hs
  | error e => exact ⟨fun _ => hs, fun _ => ⟨e, rfl⟩⟩
  | ok i =>
    obtain ⟨-, -, hl⟩ := hs
    exact ⟨fun ⟨_, he⟩ => (by cases he), fun h => absurd h hl⟩

/-! ## The decoder on an encoded instruction -/

/-- A RSV01x term is well formed when its funct3 is one of the row's (R232). -/
theorem miscMemRsv01x_wf_iff (f : BitVec 3) (imm : BitVec 12) (rs1 rd : Reg) :
    (Instr.miscMemRsv01x f imm rs1 rd).wf = true ↔ f = 0b010#3 ∨ f = 0b011#3 := by
  simp [Instr.wf]

/-- A RSV1xx term is well formed when its funct3 is one of the row's (R232). -/
theorem miscMemRsv1xx_wf_iff (f : BitVec 3) (imm : BitVec 12) (rs1 rd : Reg) :
    (Instr.miscMemRsv1xx f imm rs1 rd).wf = true ↔ f = 0b100#3 ∨ f = 0b101#3 ∨ f = 0b110#3 ∨ f = 0b111#3 := by
  simp only [Instr.wf]; revert f; decide

/-- Each field of the word reads back what the encoder put there, so the decoder takes the instruction's branch. -/
theorem decodeWord_encode {i : Instr} (h : i.wf = true) : decodeWord (encode i) = .ok i := by
  cases i with
  | lui | auipc | jalr => simp [encode, decodeWord]
  | addi | slti | sltiu | xori | ori | andi | slli | srli | srai => simp [encode, decodeWord, decodeOpImm]
  | add | sub | sll | slt | sltu | xor | srl | sra | or | and => simp [encode, decodeWord, decodeOp, decodeOpBase]
  | mul | mulh | mulhsu | mulhu | div | divu | rem | remu => simp [encode, decodeWord, decodeOp, decodeOpM]
  | lb | lh | lw | lbu | lhu => simp [encode, decodeWord, decodeLoad]
  | sb | sh | sw => simp [encode, decodeWord, decodeStore]
  | jal => simp [encode, decodeWord, immJOf_encodeJ _ _ (Bool.eq_false_of_not_eq_true' h)]
  | beq | bne | blt | bge | bltu | bgeu =>
    simp [encode, decodeWord, decodeBranch, immBOf_encodeB _ _ _ _ (Bool.eq_false_of_not_eq_true' h)]
  | fence | fenceI => simp [encode, decodeWord, decodeMiscMem]
  | miscMemRsv01x =>
    rcases (miscMemRsv01x_wf_iff _ _ _ _).1 h with rfl | rfl <;> simp [encode, decodeWord, decodeMiscMem]
  | miscMemRsv1xx =>
    rcases (miscMemRsv1xx_wf_iff _ _ _ _).1 h with rfl | rfl | rfl | rfl <;>
      simp [encode, decodeWord, decodeMiscMem]
  | ecall | ebreak | mret => rfl
  | csrrw | csrrs | csrrc | csrrwi | csrrsi | csrrci => simp [encode, decodeWord, decodeSystem, decodeSystem_csr]
  | lrW | scW | amoswapW | amoaddW | amoxorW | amoandW | amoorW | amominW | amomaxW | amominuW | amomaxuW =>
    simp [encode, decodeWord, decodeAmo]

end Sys2Proof
end

section
/-! SUPPORT. The masks of opcode_table.json (30_encoding.md R113): which fields of a word each one keeps, and what the
decoder answers to a word that matches a row. -/

namespace Sys2Proof

open Sys2Proof.Claims

variable {w m n : Word}

/-! ## What a mask keeps -/

theorem and_mask_opcode (w : Word) : w &&& 0x0000007F#32 = 0#25 ++ opcodeOf w := by
  apply BitVec.eq_of_getLsbD_eq; intro i hi
  simp only [opcodeOf, BitVec.getLsbD_append, BitVec.getLsbD_extractLsb', BitVec.getLsbD_and]
  interval_cases i <;> simp

theorem and_mask_funct3 (w : Word) : w &&& 0x0000707F#32 = 0#17 ++ funct3Of w ++ 0#5 ++ opcodeOf w := by
  apply BitVec.eq_of_getLsbD_eq; intro i hi
  simp only [opcodeOf, funct3Of, BitVec.getLsbD_append, BitVec.getLsbD_extractLsb', BitVec.getLsbD_and]
  interval_cases i <;> simp

theorem and_mask_funct7 (w : Word) :
    w &&& 0xFE00707F#32 = funct7Of w ++ 0#10 ++ funct3Of w ++ 0#5 ++ opcodeOf w := by
  apply BitVec.eq_of_getLsbD_eq; intro i hi
  simp only [opcodeOf, funct3Of, funct7Of, BitVec.getLsbD_append, BitVec.getLsbD_extractLsb', BitVec.getLsbD_and]
  interval_cases i <;> simp

theorem and_mask_funct5 (w : Word) :
    w &&& 0xF800707F#32 = funct5Of w ++ 0#12 ++ funct3Of w ++ 0#5 ++ opcodeOf w := by
  apply BitVec.eq_of_getLsbD_eq; intro i hi
  simp only [opcodeOf, funct3Of, funct5Of, BitVec.getLsbD_append, BitVec.getLsbD_extractLsb', BitVec.getLsbD_and]
  interval_cases i <;> simp

/-- A mask within bits 14:12 and 6:0, as the reserved MISC-MEM rows have it. -/
theorem and_mask_within_funct3 (hm : 0x0000707F#32 &&& m = m) (w : Word) :
    w &&& m = (0#17 ++ funct3Of w ++ 0#5 ++ opcodeOf w) &&& m := by
  rw [← and_mask_funct3, BitVec.and_assoc, hm]

/-- An encoded instruction matches its own row. -/
theorem inRow_encode {i : Instr} (h : i.wf = true) : InRow (encode i) i := by
  unfold InRow
  cases i with
  | lui | auipc | jal => simp [row, encode, and_mask_opcode]
  | addi | slti | sltiu | xori | ori | andi | lb | lh | lw | lbu | lhu | sb | sh | sw | jalr | beq | bne | blt | bge
  | bltu | bgeu | fence | fenceI | csrrw | csrrs | csrrc | csrrwi | csrrsi | csrrci =>
    simp [row, encode, and_mask_funct3]
  | slli | srli | srai | add | sub | sll | slt | sltu | xor | srl | sra | or | and | mul | mulh | mulhsu | mulhu
  | div | divu | rem | remu => simp [row, encode, and_mask_funct7]
  | lrW | scW | amoswapW | amoaddW | amoxorW | amoandW | amoorW | amominW | amomaxW | amominuW | amomaxuW =>
    simp [row, encode, and_mask_funct5]
  | ecall | ebreak | mret => rfl
  | miscMemRsv01x =>
    refine (and_mask_within_funct3 (m := 0x0000607F#32) rfl _).trans ?_
    rcases (miscMemRsv01x_wf_iff _ _ _ _).1 h with rfl | rfl <;> simp [row, encode]
  | miscMemRsv1xx =>
    refine (and_mask_within_funct3 (m := 0x0000407F#32) rfl _).trans ?_
    rcases (miscMemRsv1xx_wf_iff _ _ _ _).1 h with rfl | rfl | rfl | rfl <;> simp [row, encode]

/-! ## The fields of a word that matches -/

theorem extractLsb'_eq_of_and_eq {a k : Nat} (h : w &&& m = n) (hm : m.extractLsb' a k = BitVec.allOnes k) :
    w.extractLsb' a k = n.extractLsb' a k := by
  rw [← h, BitVec.extractLsb'_and, hm, BitVec.and_allOnes]

theorem opcodeOf_eq_of_and_eq (h : w &&& m = n) (hm : opcodeOf m = 0b1111111#7) : opcodeOf w = opcodeOf n :=
  extractLsb'_eq_of_and_eq h hm

theorem funct3Of_eq_of_and_eq (h : w &&& m = n) (hm : funct3Of m = 0b111#3) : funct3Of w = funct3Of n :=
  extractLsb'_eq_of_and_eq h hm

theorem funct7Of_eq_of_and_eq (h : w &&& m = n) (hm : funct7Of m = 0b1111111#7) : funct7Of w = funct7Of n :=
  extractLsb'_eq_of_and_eq h hm

theorem funct5Of_eq_of_and_eq (h : w &&& m = n) (hm : funct5Of m = 0b11111#5) : funct5Of w = funct5Of n :=
  extractLsb'_eq_of_and_eq h hm

/-- A mask that keeps a part of funct3. -/
theorem funct3Of_and_eq (h : w &&& m = n) : funct3Of w &&& funct3Of m = funct3Of n := by
  rw [← h]; exact BitVec.extractLsb'_and.symm

/-- The funct3 values of RSV01x (R232). -/
theorem funct3_01x {f : BitVec 3} (h : f &&& 0b110#3 = 0b010#3) : f = 0b010#3 ∨ f = 0b011#3 := by
  revert f; decide

/-- The funct3 values of RSV1xx (R232). -/
theorem funct3_1xx {f : BitVec 3} (h : f &&& 0b100#3 = 0b100#3) :
    f = 0b100#3 ∨ f = 0b101#3 ∨ f = 0b110#3 ∨ f = 0b111#3 := by
  revert f; decide

/-- The row of what a word that matches a row decodes to: the word has the row's fixed fields, and they are all that
the decoder chooses a constructor by. -/
theorem map_row_decodeWord {j : Instr} (h : InRow w j) : (decodeWord w).map row = .ok (row j) := by
  unfold InRow at h
  cases j with simp only [row] at h ⊢
  | lui | auipc | jal => simp +decide [decodeWord, opcodeOf_eq_of_and_eq h rfl, row, Except.map]
  | addi | slti | sltiu | xori | ori | andi | lb | lh | lw | lbu | lhu | sb | sh | sw | jalr | beq | bne | blt | bge
  | bltu | bgeu | fence | fenceI | csrrw | csrrs | csrrc | csrrwi | csrrsi | csrrci =>
    simp +decide [decodeWord, decodeOpImm, decodeLoad, decodeStore, decodeBranch, decodeMiscMem, decodeSystem,
      decodeSystem_csr, opcodeOf_eq_of_and_eq h rfl, funct3Of_eq_of_and_eq h rfl, row, Except.map]
  | slli | srli | srai | add | sub | sll | slt | sltu | xor | srl | sra | or | and | mul | mulh | mulhsu | mulhu
  | div | divu | rem | remu =>
    simp +decide [decodeWord, decodeOpImm, decodeOp, decodeOpBase, decodeOpM, opcodeOf_eq_of_and_eq h rfl,
      funct3Of_eq_of_and_eq h rfl, funct7Of_eq_of_and_eq h rfl, row, Except.map]
  | lrW | scW | amoswapW | amoaddW | amoxorW | amoandW | amoorW | amominW | amomaxW | amominuW | amomaxuW =>
    simp +decide [decodeWord, decodeAmo, opcodeOf_eq_of_and_eq h rfl, funct3Of_eq_of_and_eq h rfl,
      funct5Of_eq_of_and_eq h rfl, row, Except.map]
  | ecall | ebreak | mret =>
    obtain rfl := (BitVec.and_allOnes (x := w)).symm.trans h
    rfl
  | miscMemRsv01x =>
    rw [decodeWord_miscMem (opcodeOf_eq_of_and_eq h rfl)]
    rcases funct3_01x (funct3Of_and_eq h) with h3 | h3 <;> simp [decodeMiscMem, h3, row, Except.map]
  | miscMemRsv1xx =>
    rw [decodeWord_miscMem (opcodeOf_eq_of_and_eq h rfl)]
    rcases funct3_1xx (funct3Of_and_eq h) with h3 | h3 | h3 | h3 <;> simp [decodeMiscMem, h3, row, Except.map]

end Sys2Proof
end

section
/-! The statements of 30_encoding.md, settled. -/

namespace Sys2Proof.Machine

open Sys2Proof.Claims

/-- Settles O2: decoding the four bytes is decoding the word they make. -/
theorem decodeInvertsEncode : Obligations.DecodeInvertsEncode := by
  intro i rest h
  have hd := decodeWord_encode h
  exact ⟨hd, by rw [encodeBytes, decode_bytesOf, hd]⟩

/-- Settles O3: the decoder's answer fits the word. -/
theorem encodeInvertsDecode : Obligations.EncodeInvertsDecode := by
  intro w i h
  have hs := decodeWord_sound w
  rw [h] at hs
  obtain ⟨hwf, henc, -⟩ := hs
  exact ⟨hwf, henc⟩

/-- Settles O4: a decoded word is its instruction's encoding, which matches the row; a matching word has the row's
fixed fields. -/
theorem decodeAgreesWithTheOpcodeTable : Obligations.DecodeAgreesWithTheOpcodeTable := by
  refine ⟨fun w i h => ?_, fun w j h => ?_⟩
  · obtain ⟨hwf, rfl⟩ := encodeInvertsDecode w i h
    exact inRow_encode hwf
  · have hrow := map_row_decodeWord h
    cases hd : decodeWord w with rw [hd] at hrow
    | error e => cases hrow
    | ok i => exact ⟨i, rfl, Except.ok.inj hrow⟩

/-- Zeroing x0's slot and clearing the pending exception do not touch what a bus read looks at. -/
theorem afterRead_beginCycle (s : State) (a : Word) :
    afterRead (beginCycle s) a = beginCycle (afterRead s a) := by
  unfold afterRead
  split
  · rfl
  · unfold consoleRead
    rw [beginCycle_console, beginCycle_hostIn]
    split <;> rfl

/-- Settles O5: the trap is taken in the state that the fetch leaves. -/
theorem illegalWords : Obligations.IllegalWords := by
  refine ⟨noInstr_iff_listed, fun s hm hl => ?_⟩
  have hpc : (beginCycle (afterRead s s.pc)).pc = s.pc := by
    rw [← afterRead_beginCycle]
    exact (afterFetch_readings s).2.1
  have hp := cycleEnd_some_post .illegalInstruction s.pc (beginCycle (afterRead s s.pc))
  have hstep : step s = .next (cycleEnd (some .illegalInstruction) s.pc (beginCycle (afterRead s s.pc))) := by
    rw [step_noInstr hm ((noInstr_iff_listed _).2 hl), afterRead_beginCycle, takeException, hpc]
    rfl
  exact ⟨_, hstep, { hp with reg := fun r => (hp.reg r).trans (beginCycle_reg r) }⟩

/-- Settles O1: the decoder runs on each written-out word. -/
theorem decodeReadsWrittenOutWords : Obligations.DecodeReadsWrittenOutWords := by
  unfold Obligations.DecodeReadsWrittenOutWords Reads
  decide

end Sys2Proof.Machine
end

section
/-! SUPPORT. Words written in numbers as the encoder's formats (30_encoding.md R101 to R108), the ALU's operations in
integer arithmetic (40_alu.md R141 to R161), and what writing a result back leaves (R140). -/

namespace Sys2Proof

open Sys2Proof.Claims

/-! ## A word in numbers is its fields joined (R101) -/

theorem word_eq_append (hi : BitVec 12) (mid : BitVec 5) (f3 : BitVec 3) (lo : BitVec 5) (op : BitVec 7) :
    word hi.toNat mid.toNat f3.toNat lo.toNat op.toNat = hi ++ mid ++ f3 ++ lo ++ op := by
  apply BitVec.eq_of_toNat_eq
  have hhi := hi.isLt
  have hmid := mid.isLt
  have h3 := f3.isLt
  have hlo := lo.isLt
  have hop := op.isLt
  simp only [word, toNat_append, BitVec.toNat_ofNat]
  omega

theorem wordI_eq_encodeI (imm : BitVec 12) (rs1 : Reg) (f3 : BitVec 3) (rd : Reg) (op : BitVec 7) :
    wordI imm rs1 f3.toNat rd op.toNat = encodeI imm rs1 f3 rd op :=
  word_eq_append imm (regBits rs1) f3 (regBits rd) op

/-- inst[31:20] made of a 7-bit and a 5-bit field, as R format and the shift-immediates have it (R102, R108). -/
theorem word_eq_append_split (f7 : BitVec 7) (b24_20 mid : BitVec 5) (f3 : BitVec 3) (lo : BitVec 5) (op : BitVec 7) :
    word (f7.toNat * 2 ^ 5 + b24_20.toNat) mid.toNat f3.toNat lo.toNat op.toNat =
      f7 ++ b24_20 ++ mid ++ f3 ++ lo ++ op := by
  rw [← toNat_append]
  exact word_eq_append (f7 ++ b24_20) mid f3 lo op

theorem wordR_eq_encodeR (f7 : BitVec 7) (rs2 rs1 : Reg) (f3 : BitVec 3) (rd : Reg) (op : BitVec 7) :
    wordR f7.toNat rs2 rs1 f3.toNat rd op.toNat = encodeR f7 rs2 rs1 f3 rd op :=
  word_eq_append_split f7 (regBits rs2) (regBits rs1) f3 (regBits rd) op

theorem word_eq_encodeShift (f7 : BitVec 7) (shamt : BitVec 5) (rs1 : Reg) (f3 : BitVec 3) (rd : Reg) :
    word (f7.toNat * 2 ^ 5 + shamt.toNat) rs1.val f3.toNat rd.val 0x13 = encodeShift f7 shamt rs1 f3 rd :=
  word_eq_append_split f7 shamt (regBits rs1) f3 (regBits rd) 0b0010011#7

/-- A shift-immediate word whose inst[31:25] is 0000000. -/
theorem word_eq_encodeShift_zero (shamt : BitVec 5) (rs1 : Reg) (f3 : BitVec 3) (rd : Reg) :
    word shamt.toNat rs1.val f3.toNat rd.val 0x13 = encodeShift 0b0000000#7 shamt rs1 f3 rd := by
  rw [← word_eq_encodeShift, BitVec.toNat_ofNat, Nat.zero_mod, Nat.zero_mul, Nat.zero_add]

theorem wordU_eq_encodeU (imm20 : BitVec 20) (rd : Reg) (op : BitVec 7) :
    wordU imm20 rd op.toNat = encodeU imm20 rd op := by
  apply BitVec.eq_of_toNat_eq
  have himm := imm20.isLt
  have hrd := rd.isLt
  have hop := op.isLt
  simp only [wordU, word, encodeU, toNat_append, regBits_toNat, BitVec.toNat_ofNat]
  omega

/-! ## A word of a well-formed instruction's format decodes to that instruction -/

variable {i : Instr} {rd rs1 rs2 : Reg}

theorem reads_of_eq_encode {w : Word} (h : encode i = w) (hwf : i.wf = true) : Reads w i :=
  h ▸ decodeWord_encode hwf

theorem reads_wordU {imm20 : BitVec 20} (op : BitVec 7) (h : encode i = encodeU imm20 rd op) (hwf : i.wf = true) :
    Reads (wordU imm20 rd op.toNat) i :=
  reads_of_eq_encode (h.trans (wordU_eq_encodeU imm20 rd op).symm) hwf

theorem reads_wordI {imm : BitVec 12} (f3 : BitVec 3) (op : BitVec 7) (h : encode i = encodeI imm rs1 f3 rd op)
    (hwf : i.wf = true) :
    Reads (wordI imm rs1 f3.toNat rd op.toNat) i :=
  reads_of_eq_encode (h.trans (wordI_eq_encodeI imm rs1 f3 rd op).symm) hwf

theorem reads_wordR (f7 : BitVec 7) (f3 : BitVec 3) (op : BitVec 7)
    (h : encode i = encodeR f7 rs2 rs1 f3 rd op) (hwf : i.wf = true) :
    Reads (wordR f7.toNat rs2 rs1 f3.toNat rd op.toNat) i :=
  reads_of_eq_encode (h.trans (wordR_eq_encodeR f7 rs2 rs1 f3 rd op).symm) hwf

/-! ## Shift-immediate words that are no instruction (R114 item 2) -/

theorem noInstr_slli_of_funct7_ne {f7 : BitVec 7} (h : f7 ≠ 0) (shamt : BitVec 5) (rs1 rd : Reg) :
    NoInstr (encodeShift f7 shamt rs1 0b001#3 rd) := by
  rw [noInstr_iff_listed, listed_iff]
  exact .inr (.inl ⟨opcodeOf_encodeShift _ _ _ _ _,
    .inl ⟨funct3Of_encodeShift _ _ _ _ _, by rwa [funct7Of_encodeShift]⟩⟩)

theorem noInstr_srli_srai_of_funct7_ne {f7 : BitVec 7} (hl : f7 ≠ 0) (ha : f7 ≠ 0x20) (shamt : BitVec 5)
    (rs1 rd : Reg) : NoInstr (encodeShift f7 shamt rs1 0b101#3 rd) := by
  rw [noInstr_iff_listed, listed_iff]
  refine .inr (.inl ⟨opcodeOf_encodeShift _ _ _ _ _, .inr ⟨funct3Of_encodeShift _ _ _ _ _, ?_⟩⟩)
  rw [funct7Of_encodeShift]
  exact ⟨hl, ha⟩

namespace Machine

/-! ## The operations in integer arithmetic -/

/-- immU is the 20 bits times 2^12 (R106). -/
theorem immU_eq (imm20 : BitVec 20) : immU imm20 = BitVec.ofNat 32 (imm20.toNat * 2 ^ 12) := by
  apply BitVec.eq_of_toNat_eq
  have himm := imm20.isLt
  simp only [immU, toNat_append, BitVec.toNat_ofNat]
  omega

theorem add_immU_eq (x : Word) (imm20 : BitVec 20) :
    x + immU imm20 = BitVec.ofNat 32 (x.toNat + imm20.toNat * 2 ^ 12) := by
  rw [immU_eq, BitVec.ofNat_add, BitVec.ofNat_toNat, BitVec.setWidth_eq]

theorem add_eq_ofNat (x y : Word) : x + y = BitVec.ofNat 32 (x.toNat + y.toNat) := by
  rw [BitVec.ofNat_add, BitVec.ofNat_toNat, BitVec.ofNat_toNat, BitVec.setWidth_eq, BitVec.setWidth_eq]

theorem sub_eq_ofInt (x y : Word) : x - y = BitVec.ofInt 32 ((x.toNat : Int) - (y.toNat : Int)) := by
  apply BitVec.eq_of_toNat_eq
  have hx := x.isLt
  have hy := y.isLt
  rw [BitVec.toNat_sub, BitVec.toNat_ofInt]
  omega

/-- immI and immS are the integer the 12 bits stand for (R103, R104). -/
theorem sext12_eq (imm : BitVec 12) : sext12 imm = BitVec.ofInt 32 imm.toInt := signExtend_eq_ofInt (by decide) imm

theorem sext12_toInt (imm : BitVec 12) : (sext12 imm).toInt = imm.toInt :=
  BitVec.toInt_signExtend_of_le (by decide)

/-- Sign-extended, then read as unsigned (R145). -/
theorem sext12_toNat (imm : BitVec 12) : ((sext12 imm).toNat : Int) = imm.toInt % 2 ^ 32 := by
  rw [sext12_eq, BitVec.toNat_ofInt]
  omega

theorem boolWord_ltSigned (x y : Word) :
    boolWord (ltSigned x y) = if x.toInt < y.toInt then 1#32 else 0#32 := by
  simp only [boolWord, ltSigned, decide_eq_true_eq]

theorem boolWord_ltUnsigned (x y : Word) :
    boolWord (ltUnsigned x y) = if x.toNat < y.toNat then 1#32 else 0#32 := by
  simp only [boolWord, ltUnsigned, decide_eq_true_eq]

theorem boolWord_ltSigned_sext12 (x : Word) (imm : BitVec 12) :
    boolWord (ltSigned x (sext12 imm)) = if x.toInt < imm.toInt then 1#32 else 0#32 := by
  rw [boolWord_ltSigned, sext12_toInt]

theorem boolWord_ltUnsigned_sext12 (x : Word) (imm : BitVec 12) :
    boolWord (ltUnsigned x (sext12 imm)) = if (x.toNat : Int) < imm.toInt % 2 ^ 32 then 1#32 else 0#32 := by
  rw [boolWord_ltUnsigned, ← sext12_toNat]
  simp only [Nat.cast_lt]

/-- A left shift multiplies, modulo 2^32 (R149). -/
theorem shiftLeft_eq_ofNat (x : Word) (n : Nat) : x <<< n = BitVec.ofNat 32 (x.toNat * 2 ^ n) := by
  apply BitVec.eq_of_toNat_eq
  rw [BitVec.toNat_shiftLeft, BitVec.toNat_ofNat, Nat.shiftLeft_eq]

/-- A logical right shift is a division of the unsigned value (R150). -/
theorem ushiftRight_eq_ofNat (x : Word) (n : Nat) : x >>> n = BitVec.ofNat 32 (x.toNat / 2 ^ n) := by
  apply BitVec.eq_of_toNat_eq
  rw [BitVec.toNat_ushiftRight, BitVec.toNat_ofNat, Nat.shiftRight_eq_div_pow,
    Nat.mod_eq_of_lt ((Nat.div_le_self _ _).trans_lt x.isLt)]

/-- Only the low five bits of a shift amount count (R154). -/
theorem shiftAmount_eq (v : Word) : shiftAmount v = v.toNat % 32 := by
  rw [shiftAmount, toNat_slice, pow_zero, Nat.div_one]
  rfl

/-! ## Writing a result back (R140) -/

variable {i : Instr} {s : State} {rd : Reg} {v v' : Word}

/-- An instruction whose meaning is a write-back of `v` completes with `v` in rd and nothing else changed. -/
theorem regResult_of_writeBack (h : exec i s = writeBack rd v s) (hv : v = v') : RegResult i s rd v' := by
  subst hv
  have hreg : (s.setReg rd v).reg = wrote s rd v := funext fun r => s.reg_setReg rd r v
  have hcsr : (s.setReg rd v).csr = s.csr := funext fun n => s.setReg_csr rd v n
  have hram : (s.setReg rd v).ramByte = s.ramByte := funext fun a => s.setReg_ramByte rd v a
  have hp := cycleEnd_none_post (s.pc + 4#32) (s.setReg rd v)
  rw [hreg, hcsr, hram, State.setReg_resv, State.setReg_console, State.setReg_hostIn, State.setReg_consOut] at hp
  exact ⟨_, h.trans (writeBack_eq rd v s), hp⟩

end Machine

end Sys2Proof
end

section
/-! The statements of 40_alu.md, settled: each word is its instruction's encoding, and each meaning is the write-back
of a value that the integer arithmetic gives too. -/

namespace Sys2Proof.Machine

open Sys2Proof.Claims

/-- Settles O23, by the U format and immU in numbers. -/
theorem upperImmediates : Obligations.UpperImmediates := fun s _ imm20 =>
  ⟨⟨reads_wordU 0x37 rfl rfl, regResult_of_writeBack rfl (immU_eq imm20)⟩,
    ⟨reads_wordU 0x17 rfl rfl, regResult_of_writeBack rfl (add_immU_eq s.pc imm20)⟩⟩

/-- Settles O24, by the I format and the sign-extended immediate as an integer. -/
theorem registerImmediates : Obligations.RegisterImmediates := by
  refine fun s rd rs1 imm => ⟨?_, ?_, ?_, ?_, ?_, ?_⟩
  · exact ⟨reads_wordI 0 0x13 rfl rfl, regResult_of_writeBack rfl (add_signExtend (by decide) _ imm)⟩
  · exact ⟨reads_wordI 2 0x13 rfl rfl, regResult_of_writeBack rfl (boolWord_ltSigned_sext12 _ imm)⟩
  · exact ⟨reads_wordI 3 0x13 rfl rfl, regResult_of_writeBack rfl (boolWord_ltUnsigned_sext12 _ imm)⟩
  · exact ⟨reads_wordI 4 0x13 rfl rfl, regResult_of_writeBack rfl (by rw [sext12_eq])⟩
  · exact ⟨reads_wordI 6 0x13 rfl rfl, regResult_of_writeBack rfl (by rw [sext12_eq])⟩
  · exact ⟨reads_wordI 7 0x13 rfl rfl, regResult_of_writeBack rfl (by rw [sext12_eq])⟩

/-- Settles O25: a shift is a product or a quotient, and a word with another inst[31:25] is in R114's list. -/
theorem shiftImmediates : Obligations.ShiftImmediates := by
  refine ⟨fun s rd rs1 shamt => ⟨?_, ?_, ?_⟩, fun f7 shamt rs1 rd => ⟨fun h => ?_, fun hl ha => ?_⟩⟩
  · exact ⟨reads_of_eq_encode (word_eq_encodeShift_zero shamt rs1 1 rd).symm rfl,
      regResult_of_writeBack rfl (shiftLeft_eq_ofNat _ _)⟩
  · exact ⟨reads_of_eq_encode (word_eq_encodeShift_zero shamt rs1 5 rd).symm rfl,
      regResult_of_writeBack rfl (ushiftRight_eq_ofNat _ _)⟩
  · exact ⟨reads_of_eq_encode (word_eq_encodeShift 0x20 shamt rs1 5 rd).symm rfl,
      regResult_of_writeBack rfl (sshiftRight_eq _ _)⟩
  · exact word_eq_encodeShift f7 shamt rs1.toFin 1 rd.toFin ▸ noInstr_slli_of_funct7_ne h shamt rs1.toFin rd.toFin
  · exact word_eq_encodeShift f7 shamt rs1.toFin 5 rd.toFin ▸
      noInstr_srli_srai_of_funct7_ne hl ha shamt rs1.toFin rd.toFin

/-- Settles O26, by the R format and each operation in integer arithmetic. -/
theorem registerArithmetic : Obligations.RegisterArithmetic := by
  refine fun s rd rs1 rs2 => ⟨?_, ?_, ?_, ?_, ?_, ?_, ?_⟩
  · exact ⟨reads_wordR 0 0 0x33 rfl rfl, regResult_of_writeBack rfl (add_eq_ofNat _ _)⟩
  · exact ⟨reads_wordR 0x20 0 0x33 rfl rfl, regResult_of_writeBack rfl (sub_eq_ofInt _ _)⟩
  · exact ⟨reads_wordR 0 2 0x33 rfl rfl, regResult_of_writeBack rfl (boolWord_ltSigned _ _)⟩
  · exact ⟨reads_wordR 0 3 0x33 rfl rfl, regResult_of_writeBack rfl (boolWord_ltUnsigned _ _)⟩
  · exact ⟨reads_wordR 0 4 0x33 rfl rfl, regResult_of_writeBack rfl rfl⟩
  · exact ⟨reads_wordR 0 6 0x33 rfl rfl, regResult_of_writeBack rfl rfl⟩
  · exact ⟨reads_wordR 0 7 0x33 rfl rfl, regResult_of_writeBack rfl rfl⟩

/-- Settles O27: the shifts of O25, by the low five bits of x[rs2]. -/
theorem registerShifts : Obligations.RegisterShifts := by
  refine fun s rd rs1 rs2 => ⟨?_, ?_, ?_⟩
  · exact ⟨reads_wordR 0 1 0x33 rfl rfl, regResult_of_writeBack rfl (by rw [shiftLeft_eq_ofNat, shiftAmount_eq])⟩
  · exact ⟨reads_wordR 0 5 0x33 rfl rfl, regResult_of_writeBack rfl (by rw [ushiftRight_eq_ofNat, shiftAmount_eq])⟩
  · exact ⟨reads_wordR 0x20 5 0x33 rfl rfl, regResult_of_writeBack rfl (by rw [sshiftRight_eq, shiftAmount_eq])⟩

end Sys2Proof.Machine
end

section
/-! SUPPORT. The high word of a product, the quotients and remainders of 41_muldiv.md as the library's divisions and
as integers, R179's law, and what a write-back leaves in its destination. -/

namespace Sys2Proof.Machine

variable {x y : Word}

/-! ## Products (R172 to R174) -/

/-- p[63:32] is the product divided by 2^32, rounded down. -/
theorem highWord_eq (p : Int) : highWord p = BitVec.ofInt 32 (p / 2 ^ 32) := by
  apply BitVec.eq_of_toNat_eq
  rw [highWord, toNat_slice, BitVec.toNat_ofInt, BitVec.toNat_ofInt]
  omega

theorem highWord_natCast (n : Nat) : highWord n = BitVec.ofNat 32 (n / 2 ^ 32) := by
  rw [highWord_eq, ← BitVec.ofInt_natCast]
  rfl

/-! ## Signed division (R175, R177) -/

theorem sdiv_eq_ofInt (x y : Word) : x.sdiv y = BitVec.ofInt 32 (x.toInt.tdiv y.toInt) := by
  apply BitVec.eq_of_toInt_eq
  rw [BitVec.toInt_sdiv, BitVec.toInt_ofInt]

theorem srem_eq_ofInt (x y : Word) : x.srem y = BitVec.ofInt 32 (x.toInt.tmod y.toInt) := by
  rw [← BitVec.toInt_srem, BitVec.ofInt_toInt]

theorem eq_zero_of_toInt (h : y.toInt = 0) : y = 0#32 := BitVec.eq_of_toInt_eq h

/-- The one pair of operands whose quotient does not fit. -/
theorem eq_of_overflow (hx : x.toInt = -2 ^ 31) (hy : y.toInt = -1) : x = 0x80000000#32 ∧ y = 0xFFFFFFFF#32 :=
  ⟨BitVec.eq_of_toInt_eq hx, BitVec.eq_of_toInt_eq hy⟩

theorem divSigned_of_eq_zero (h : y.toInt = 0) : divSigned x y = 0xFFFFFFFF#32 := if_pos h

theorem divSigned_of_overflow (hx : x.toInt = -2 ^ 31) (hy : y.toInt = -1) : divSigned x y = 0x80000000#32 := by
  obtain ⟨rfl, rfl⟩ := eq_of_overflow hx hy
  rfl

/-- On overflow too: the quotient 2^31 wraps to the dividend. -/
theorem divSigned_of_ne_zero (h : y.toInt ≠ 0) : divSigned x y = x.sdiv y := by
  rw [divSigned, if_neg h]
  split
  next hov =>
    obtain ⟨rfl, rfl⟩ := eq_of_overflow hov.1 hov.2
    rfl
  next => exact (sdiv_eq_ofInt x y).symm

theorem toInt_divSigned (h : y.toInt ≠ 0) (hov : ¬ (x.toInt = -2 ^ 31 ∧ y.toInt = -1)) :
    (divSigned x y).toInt = x.toInt.tdiv y.toInt := by
  rw [divSigned_of_ne_zero h]
  apply BitVec.toInt_sdiv_of_ne_or_ne
  by_contra! hxy
  obtain ⟨rfl, rfl⟩ := hxy
  exact hov (by decide)

theorem remSigned_of_eq_zero (h : y.toInt = 0) : remSigned x y = x := if_pos h

theorem remSigned_of_overflow (hx : x.toInt = -2 ^ 31) (hy : y.toInt = -1) : remSigned x y = 0#32 := by
  obtain ⟨rfl, rfl⟩ := eq_of_overflow hx hy
  rfl

/-- The library's remainder is the dividend by zero and 0 on overflow, as REM's is. -/
theorem remSigned_eq_srem (x y : Word) : remSigned x y = x.srem y := by
  by_cases h : y.toInt = 0
  · rw [remSigned_of_eq_zero h, eq_zero_of_toInt h, BitVec.srem_zero]
  · rw [remSigned, if_neg h]
    split
    next hov =>
      obtain ⟨rfl, rfl⟩ := eq_of_overflow hov.1 hov.2
      rfl
    next => rw [← Int.tmod_def, srem_eq_ofInt]

theorem toInt_remSigned (x y : Word) : (remSigned x y).toInt = x.toInt - y.toInt * x.toInt.tdiv y.toInt := by
  rw [remSigned_eq_srem, BitVec.toInt_srem, Int.tmod_def]

/-! ## Unsigned division (R176, R178) -/

theorem divUnsigned_of_eq_zero (h : y.toNat = 0) : divUnsigned x y = 0xFFFFFFFF#32 := if_pos h

theorem divUnsigned_of_ne_zero (h : y.toNat ≠ 0) : divUnsigned x y = x / y :=
  (if_neg h).trans BitVec.udiv_def.symm

theorem toNat_divUnsigned (h : y.toNat ≠ 0) : (divUnsigned x y).toNat = x.toNat / y.toNat := by
  rw [divUnsigned_of_ne_zero h, BitVec.toNat_udiv]

theorem remUnsigned_of_eq_zero (h : y.toNat = 0) : remUnsigned x y = x := if_pos h

theorem remUnsigned_of_ne_zero (h : y.toNat ≠ 0) : remUnsigned x y = x % y :=
  (if_neg h).trans BitVec.umod_def.symm

theorem toNat_remUnsigned (h : y.toNat ≠ 0) : (remUnsigned x y).toNat = x.toNat % y.toNat := by
  rw [remUnsigned_of_ne_zero h, BitVec.toNat_umod]

/-! ## Quotient times divisor plus remainder (R179) -/

theorem sdiv_mul_add_srem (x y : Word) : x.sdiv y * y + x.srem y = x := by
  calc x.sdiv y * y + x.srem y
      = BitVec.ofInt 32 (x.toInt.tdiv y.toInt * y.toInt + x.toInt.tmod y.toInt) := by
        rw [BitVec.ofInt_add, BitVec.ofInt_mul, ← sdiv_eq_ofInt, ← srem_eq_ofInt, BitVec.ofInt_toInt]
    _ = x := by rw [Int.tdiv_mul_add_tmod, BitVec.ofInt_toInt]

theorem udiv_mul_add_umod (x y : Word) : x / y * y + x % y = x := by
  calc x / y * y + x % y
      = BitVec.ofNat 32 (x.toNat / y.toNat * y.toNat + x.toNat % y.toNat) := by
        rw [BitVec.ofNat_add, BitVec.ofNat_mul, ← BitVec.udiv_def, ← BitVec.umod_def, BitVec.ofNat_toNat,
          BitVec.setWidth_eq]
    _ = x := by rw [Nat.div_add_mod', BitVec.ofNat_toNat, BitVec.setWidth_eq]

/-- By zero the quotient does not count and the remainder is the dividend. -/
theorem divSigned_mul_add_remSigned (x y : Word) : divSigned x y * y + remSigned x y = x := by
  by_cases h : y.toInt = 0
  · rw [remSigned_of_eq_zero h, eq_zero_of_toInt h, BitVec.mul_zero, BitVec.zero_add]
  · rw [divSigned_of_ne_zero h, remSigned_eq_srem, sdiv_mul_add_srem]

theorem divUnsigned_mul_add_remUnsigned (x y : Word) : divUnsigned x y * y + remUnsigned x y = x := by
  by_cases h : y.toNat = 0
  · obtain rfl : y = 0#32 := BitVec.eq_of_toNat_eq h
    rw [remUnsigned_of_eq_zero h, BitVec.mul_zero, BitVec.zero_add]
  · rw [divUnsigned_of_ne_zero h, remUnsigned_of_ne_zero h, udiv_mul_add_umod]

/-! ## The destination of a write-back (R140, R170) -/

theorem reg_of_writeBack {s t : State} {rd : Reg} {v : Word} (hrd : rd ≠ 0) (h : writeBack rd v s = .next t) :
    t.reg rd = v := by
  rw [endCycle_next h, cycleEnd_reg, State.reg_setReg, if_pos ⟨rfl, hrd⟩]

end Sys2Proof.Machine
end

section
/-! The statements of 41_muldiv.md, settled. -/

namespace Sys2Proof.Machine

open Sys2Proof.Claims

/-- Settles O29, by the R format and the cases of each quotient and remainder. -/
theorem divides : Obligations.Divides := by
  refine fun s rd rs1 rs2 => ⟨?_, ?_, ?_, ?_⟩
  · exact ⟨reads_wordR 1 4 0x33 rfl rfl, _, regResult_of_writeBack rfl rfl,
      divSigned_of_eq_zero, divSigned_of_overflow, toInt_divSigned⟩
  · exact ⟨reads_wordR 1 5 0x33 rfl rfl, _, regResult_of_writeBack rfl rfl,
      divUnsigned_of_eq_zero, toNat_divUnsigned⟩
  · exact ⟨reads_wordR 1 6 0x33 rfl rfl, _, regResult_of_writeBack rfl rfl,
      remSigned_of_eq_zero, remSigned_of_overflow, fun _ _ => toInt_remSigned _ _⟩
  · exact ⟨reads_wordR 1 7 0x33 rfl rfl, _, regResult_of_writeBack rfl rfl,
      remUnsigned_of_eq_zero, toNat_remUnsigned⟩

/-- Settles O30: each instruction leaves its value in rd, and the law holds of the two values. -/
theorem divisionIdentity : Obligations.DivisionIdentity := by
  refine fun s rd rs1 rs2 q r hrd => ⟨fun hq hr => ?_, fun hq hr => ?_⟩
  · rw [reg_of_writeBack hrd hq, reg_of_writeBack hrd hr, divSigned_mul_add_remSigned]
  · rw [reg_of_writeBack hrd hq, reg_of_writeBack hrd hr, divUnsigned_mul_add_remUnsigned]

/-- Settles O28, by the R format and the high word as a quotient. -/
theorem multiplies : Obligations.Multiplies := by
  refine fun s rd rs1 rs2 => ⟨?_, ?_, ?_, ?_⟩
  · exact ⟨reads_wordR 1 0 0x33 rfl rfl, regResult_of_writeBack rfl rfl⟩
  · exact ⟨reads_wordR 1 1 0x33 rfl rfl, regResult_of_writeBack rfl (highWord_eq _)⟩
  · exact ⟨reads_wordR 1 2 0x33 rfl rfl, regResult_of_writeBack rfl (highWord_eq _)⟩
  · exact ⟨reads_wordR 1 3 0x33 rfl rfl, regResult_of_writeBack rfl (highWord_natCast _)⟩

end Sys2Proof.Machine
end

section
/-! SUPPORT. How a cycle that completes or traps leaves the whole state, loads and stores case by case, their operands in
numbers (42_load_store.md R190 to R198), and what a load reads of the bytes a store has just written (R199). -/

namespace Sys2Proof

open Sys2Proof.Claims

/-! ## Words of the S format (R102, R104) -/

theorem wordS_eq_encodeS (imm : BitVec 12) (rs2 rs1 : Reg) (f3 : BitVec 3) :
    wordS imm rs2 rs1 f3.toNat = encodeS imm rs2 rs1 f3 := by
  have hhi : (imm.extractLsb' 5 7).toNat = imm.toNat / 2 ^ 5 := by
    rw [toNat_slice]
    omega
  have hlo : (imm.extractLsb' 0 5).toNat = imm.toNat % 2 ^ 5 := by
    rw [toNat_slice, pow_zero, Nat.div_one]
  rw [wordS, ← hhi, ← hlo]
  exact word_eq_append_split (imm.extractLsb' 5 7) (regBits rs2) (regBits rs1) f3 (imm.extractLsb' 0 5) 0x23

theorem reads_wordS {i : Instr} {rs1 rs2 : Reg} {imm : BitVec 12} (f3 : BitVec 3)
    (h : encode i = encodeS imm rs2 rs1 f3) (hwf : i.wf = true) : Reads (wordS imm rs2 rs1 f3.toNat) i :=
  reads_of_eq_encode (h.trans (wordS_eq_encodeS imm rs2 rs1 f3).symm) hwf

namespace Machine

variable {s t u : State} {i : Instr} {rd rs1 : Reg} {imm : BitVec 12} {v w a ea : Word} {n : Nat}

/-! ## Operands in numbers -/

/-- The address is the sum of the integers modulo 2^32 (R190). -/
theorem effectiveAddress_eq (s : State) (rs1 : Reg) (imm : BitVec 12) :
    effectiveAddress s rs1 imm = BitVec.ofInt 32 ((s.reg rs1).toNat + imm.toInt) :=
  add_signExtend (by decide) _ imm

theorem lowBits_eq_ofNat (v : Word) (n : Nat) : v.extractLsb' 0 n = BitVec.ofNat n v.toNat := by
  apply BitVec.eq_of_toNat_eq
  rw [toNat_slice, pow_zero, Nat.div_one, BitVec.toNat_ofNat]

theorem lowBits_setWidth (v : Word) (n : Nat) :
    (v.extractLsb' 0 n).setWidth 32 = BitVec.ofNat 32 (v.toNat % 2 ^ n) := by
  apply BitVec.eq_of_toNat_eq
  rw [lowBits_eq_ofNat, BitVec.toNat_setWidth, BitVec.toNat_ofNat, BitVec.toNat_ofNat]

theorem narrowByteSigned_eq (v : Word) : narrowByteSigned v = (BitVec.ofNat 8 v.toNat).signExtend 32 :=
  congrArg (BitVec.signExtend 32) (lowBits_eq_ofNat v 8)

theorem narrowHalfSigned_eq (v : Word) : narrowHalfSigned v = (BitVec.ofNat 16 v.toNat).signExtend 32 :=
  congrArg (BitVec.signExtend 32) (lowBits_eq_ofNat v 16)

theorem narrowByteUnsigned_eq (v : Word) : narrowByteUnsigned v = BitVec.ofNat 32 (v.toNat % 2 ^ 8) :=
  lowBits_setWidth v 8

theorem narrowHalfUnsigned_eq (v : Word) : narrowHalfUnsigned v = BitVec.ofNat 32 (v.toNat % 2 ^ 16) :=
  lowBits_setWidth v 16

/-! ## The whole next state of a cycle (10_state.md R44 to R47) -/

variable {reg : Reg → Word} {pc : Word} {csr : CsrIndex → Word} {ram : Nat → Byte} {resv : Reservation}
  {console : Console} {hostIn consOut : List Byte}

/-- The cycle of an instruction that completes with these readings of the state moves pc and runs the counters. -/
theorem complete_post (hreg : ∀ r, u.reg r = reg r) (hpc : u.pc = pc) (hcsr : ∀ n, u.csr n = csr n)
    (hram : ∀ a, u.ramByte a = ram a) (hresv : u.resv = resv) (hconsole : u.console = console)
    (hhostIn : u.hostIn = hostIn) (hconsOut : u.consOut = consOut) :
    ∃ t, complete u = .next t ∧ Post t reg (pc + 4#32) (afterCount csr) ram resv console hostIn consOut := by
  obtain rfl : u.reg = reg := funext hreg
  obtain rfl : u.csr = csr := funext hcsr
  obtain rfl : u.ramByte = ram := funext hram
  subst hpc hresv hconsole hhostIn hconsOut
  exact ⟨_, rfl, cycleEnd_none_post _ u⟩

theorem traps_of_takeException {c : Cause} (h : exec i s = takeException c s) :
    Traps i s c.code.toNat (c.npc s.pc) :=
  ⟨_, h, cycleEnd_some_post c _ s⟩

/-! ## Loads and stores (R190), at a mapped and at an unmapped address -/

theorem loadInto_fault (hm : memRead ea s = none) (f : Word → Word) (rd : Reg) :
    loadInto f rd ea s = takeException .loadAccessFault s := by
  simp only [loadInto, hm]

theorem loadInto_read (hm : memRead ea s = some (v, u)) (f : Word → Word) (rd : Reg) :
    loadInto f rd ea s = complete (u.setReg rd (f v)) := by
  simp only [loadInto, hm]

theorem storeFrom_fault (hm : memWrite ea n v s = none) :
    storeFrom n v ea s = takeException .storeAccessFault s := by
  simp only [storeFrom, hm]

/-- Completing with a value in rd after a bus read (R60): beside rd, the read's console and queue are all that
differs. -/
theorem complete_setReg_post_of_memRead (hm : memRead ea s = some (v, u)) (rd : Reg) (w : Word) :
    ∃ t, complete (u.setReg rd w) = .next t ∧
      Post t (wrote s rd w) (s.pc + 4#32) (afterCount s.csr) s.ramByte s.resv u.console u.hostIn s.consOut := by
  obtain ⟨console, hostIn, rfl⟩ : ∃ c q, u = s.setConsole c q := ⟨_, _, memRead_frame hm⟩
  exact complete_post (fun r => State.reg_setReg _ rd r w) (State.setReg_pc _ rd w) (State.setReg_csr _ rd w)
    (State.setReg_ramByte _ rd w) (State.setReg_resv _ rd w) (State.setReg_console _ rd w)
    (State.setReg_hostIn _ rd w) (State.setReg_consOut _ rd w)

theorem loadResult_of_loadInto {f f' : Word → Word}
    (h : exec i s = loadInto f rd (effectiveAddress s rs1 imm) s) (hf : ∀ v, f v = f' v) :
    LoadResult i s rd (BitVec.ofInt 32 ((s.reg rs1).toNat + imm.toInt)) f' := by
  obtain rfl : f = f' := funext hf
  rw [effectiveAddress_eq] at h
  refine ⟨fun ha => ?_, fun ha => ?_⟩
  · have hm := memRead_mapped ha s
    rw [h, loadInto_read hm]
    exact complete_setReg_post_of_memRead hm rd _
  · exact traps_of_takeException (h.trans (loadInto_fault (memRead_notMapped ha s) f rd))

theorem storeResult_of_storeFrom (h : exec i s = storeFrom n v (effectiveAddress s rs1 imm) s) :
    StoreResult i s (BitVec.ofInt 32 ((s.reg rs1).toNat + imm.toInt)) n v := by
  rw [effectiveAddress_eq] at h
  refine ⟨fun ha => ?_, fun ha => ?_⟩
  · obtain ⟨u, hm⟩ := memWrite_mapped ha n v s
    rw [h, storeFrom_write hm]
    exact complete_post (memWrite_reg hm) (memWrite_pc hm) (memWrite_csr hm) (memWrite_ramWith hm)
      (memWrite_resv hm) (memWrite_keeps_console hm) (memWrite_hostIn hm) (memWrite_outWith hm)
  · exact traps_of_takeException (h.trans (storeFrom_fault (memWrite_notMapped ha n v s)))

/-! ## What a load reads after a store (R199) -/

/-- Byte k of a word in RAM is the byte at its address plus k (R66). -/
theorem byteOf_ramWord (s : State) (x : Nat) {k : Nat} (hk : k < 4) :
    byteOf (s.ramWord x) k = s.ramByte (x + k) := by
  apply BitVec.eq_of_toNat_eq
  have h0 := (s.ramByte x).isLt
  have h1 := (s.ramByte (x + 1)).isLt
  have h2 := (s.ramByte (x + 2)).isLt
  have h3 := (s.ramByte (x + 3)).isLt
  rw [byteOf_eq, ramWord_eq, BitVec.toNat_ofNat, BitVec.toNat_ofNat]
  interval_cases k <;> norm_num <;> omega

/-- Words whose first n bytes are the same have the same low 8n bits. -/
theorem lowBits_congr (h : ∀ k < n, byteOf v k = byteOf w k) : v.extractLsb' 0 (8 * n) = w.extractLsb' 0 (8 * n) := by
  apply BitVec.eq_of_getLsbD_eq
  intro j hj
  have hbyte := congrArg (BitVec.getLsbD · (j % 8)) (h (j / 8) (by omega))
  have hmod : j % 8 < 8 := Nat.mod_lt _ (by decide)
  simpa only [byteOf, BitVec.getLsbD_extractLsb', hj, hmod, Nat.div_add_mod, zero_add, decide_true,
    Bool.true_and] using hbyte

/-- The low 8n bits of a word read where n bytes were stored are the stored ones, when those bytes lie in RAM; the
word's other bytes may lie past its end. -/
theorem lowBits_ramWord_setRamBytes {x : Nat} (hn : n ≤ 4) (hlo : 0x80000000 ≤ x) (hhi : x + n ≤ 0x84000000)
    (s : State) (v : Word) :
    ((s.setRamBytes x v n).ramWord x).extractLsb' 0 (8 * n) = v.extractLsb' 0 (8 * n) := by
  refine lowBits_congr fun k hk => ?_
  rw [byteOf_ramWord _ _ (by omega), State.ramByte_setRamBytes,
    if_pos ⟨by omega, by omega, (inRam_iff _).2 (by omega)⟩, Nat.add_sub_cancel_left]

/-- A load whose narrowing looks at the low 8n bits gives rd the stored bits, after a store of n bytes there. -/
theorem reg_of_storeFrom_loadInto {f : Word → Word} {g : BitVec (8 * n) → Word} (hfv : f v = w)
    (hfg : ∀ x, f x = g (x.extractLsb' 0 (8 * n))) (hn : n ≤ 4) (hrd : rd ≠ 0) (hr : InRange a) (ha : ea = a)
    (hend : a.toNat + n ≤ 0x84000000) (hst : storeFrom n v a s = .next t) (hld : loadInto f rd ea t = .next u) :
    u.reg rd = w := by
  subst ha
  have hram : inRam ea.toNat = true := (inRam_iff _).2 hr
  rw [storeFrom_write (memWrite_ram hram)] at hst
  rw [loadInto_read (memRead_ram hram)] at hld
  calc u.reg rd
      = f (t.ramWord ea.toNat) := reg_of_writeBack hrd hld
    _ = f ((s.setRamBytes ea.toNat v n).ramWord ea.toNat) := by rw [endCycle_next hst, cycleEnd_ramWord]
    _ = f v := by rw [hfg, hfg, lowBits_ramWord_setRamBytes hn hr.1 hend]
    _ = w := hfv

end Machine

end Sys2Proof
end

section
/-! The statements of 42_load_store.md, settled. -/

namespace Sys2Proof.Machine

open Sys2Proof.Claims

/-- Settles O31, by the I format and each narrowing in numbers. -/
theorem loads : Obligations.Loads := by
  refine fun s rd rs1 imm => ⟨?_, ?_, ?_, ?_, ?_⟩
  · exact ⟨reads_wordI 0 0x03 rfl rfl, loadResult_of_loadInto rfl narrowByteSigned_eq⟩
  · exact ⟨reads_wordI 1 0x03 rfl rfl, loadResult_of_loadInto rfl narrowHalfSigned_eq⟩
  · exact ⟨reads_wordI 2 0x03 rfl rfl, loadResult_of_loadInto rfl fun _ => rfl⟩
  · exact ⟨reads_wordI 4 0x03 rfl rfl, loadResult_of_loadInto rfl narrowByteUnsigned_eq⟩
  · exact ⟨reads_wordI 5 0x03 rfl rfl, loadResult_of_loadInto rfl narrowHalfUnsigned_eq⟩

/-- Settles O32, by the S format and what each reading of the state gives after a bus write. -/
theorem stores : Obligations.Stores := by
  refine fun s rs1 rs2 imm => ⟨?_, ?_, ?_⟩
  · exact ⟨reads_wordS 0 rfl rfl, storeResult_of_storeFrom rfl⟩
  · exact ⟨reads_wordS 1 rfl rfl, storeResult_of_storeFrom rfl⟩
  · exact ⟨reads_wordS 2 rfl rfl, storeResult_of_storeFrom rfl⟩

/-- Settles O33: each narrowing looks at no more bits than the store of its width wrote. -/
theorem storeThenLoad : Obligations.StoreThenLoad := by
  intro s t u rs1 rs2 rb rd imm imm' hrd a hr ha
  refine ⟨fun hend hst => ⟨fun hld => ?_, fun hld => ?_⟩, fun hend hst => ⟨fun hld => ?_, fun hld => ?_⟩,
    fun hend hst hld => ?_⟩
  · exact reg_of_storeFrom_loadInto (narrowByteSigned_eq _) (fun _ => rfl) (by decide) hrd hr ha hend hst hld
  · exact reg_of_storeFrom_loadInto (narrowByteUnsigned_eq _) (fun _ => rfl) (by decide) hrd hr ha hend hst hld
  · exact reg_of_storeFrom_loadInto (narrowHalfSigned_eq _) (fun _ => rfl) (by decide) hrd hr ha hend hst hld
  · exact reg_of_storeFrom_loadInto (narrowHalfUnsigned_eq _) (fun _ => rfl) (by decide) hrd hr ha hend hst hld
  · exact reg_of_storeFrom_loadInto (f := id) (g := id) rfl (fun _ => BitVec.extractLsb'_eq_self.symm) (by decide) hrd
      hr ha hend hst hld

end Sys2Proof.Machine
end

section
/-! SUPPORT. Words of the J and B formats (30_encoding.md R102, R105, R107), JALR words that are no instruction (R114
item 6), the target of JALR in integer arithmetic (R212), and the whole next state of a jump and of a branch
(43_control.md R210). -/

namespace Sys2Proof

open Sys2Proof.Claims

/-! ## Words of the J and B formats -/

theorem wordJ_eq_encodeJ (offset : BitVec 21) (rd : Reg) : wordJ offset rd = encodeJ offset rd := by
  apply BitVec.eq_of_toNat_eq
  -- inst[19:12] is one slice of the offset for the encoder, and two fields of the word in numbers (R101, R107).
  have hmid : offset.toNat / 2 ^ 12 % 2 ^ 8 =
      offset.toNat / 2 ^ 15 % 2 ^ 5 * 2 ^ 3 + offset.toNat / 2 ^ 12 % 2 ^ 3 := by omega
  simp only [wordJ, word, encodeJ, toNat_append, toNat_slice, regBits_toNat, BitVec.toNat_ofNat, pow_one]
  omega

theorem wordB_eq_encodeB (offset : BitVec 13) (rs2 rs1 : Reg) (f3 : BitVec 3) :
    wordB offset rs2 rs1 f3.toNat = encodeB offset rs2 rs1 f3 := by
  apply BitVec.eq_of_toNat_eq
  simp only [wordB, word, encodeB, toNat_append, toNat_slice, regBits_toNat, BitVec.toNat_ofNat, pow_one]
  omega

/-- An instruction that is well formed when bit 0 of its offset is 0 is so at an even offset (R105, R107). -/
theorem wf_of_even {i : Instr} {n : Nat} {offset : BitVec n} (hwf : i.wf = !offset.getLsbD 0)
    (h : offset.toNat % 2 = 0) : i.wf = true := by
  rw [hwf, (getLsbD_zero_iff offset).2 h, Bool.not_false]

theorem reads_wordJ {offset : BitVec 21} (rd : Reg) (h : offset.toNat % 2 = 0) :
    Reads (wordJ offset rd) (.jal rd offset) :=
  reads_of_eq_encode (wordJ_eq_encodeJ offset rd).symm (wf_of_even rfl h)

theorem reads_wordB {i : Instr} {offset : BitVec 13} {rs1 rs2 : Reg} (f3 : BitVec 3)
    (he : encode i = encodeB offset rs2 rs1 f3) (hwf : i.wf = !offset.getLsbD 0) (h : offset.toNat % 2 = 0) :
    Reads (wordB offset rs2 rs1 f3.toNat) i :=
  reads_of_eq_encode (he.trans (wordB_eq_encodeB offset rs2 rs1 f3).symm) (wf_of_even hwf h)

theorem noInstr_jalr_of_funct3_ne {f3 : BitVec 3} (h : f3 ≠ 0#3) (imm : BitVec 12) (rs1 rd : Reg) :
    NoInstr (encodeI imm rs1 f3 rd 0b1100111#7) := by
  refine ⟨.jalr, ?_⟩
  rw [decodeWord_jalr (opcodeOf_encodeI _ _ _ _ _), funct3Of_encodeI, if_neg h]

namespace Machine

variable {s : State} {i : Instr} {rd : Reg} {v v' : Word}

/-! ## The target of JALR -/

/-- Clearing bit 0 of an integer's low 32 bits rounds it down to an even one, below 0 too. -/
theorem clearBit0_ofInt (z : Int) : BitVec.ofInt 32 z &&& 0xFFFFFFFE#32 = BitVec.ofInt 32 (z / 2 * 2) := by
  rw [clearBit0_eq]
  apply BitVec.eq_of_toNat_eq
  rw [BitVec.toNat_ofNat, BitVec.toNat_ofInt, BitVec.toNat_ofInt]
  omega

theorem jalrTarget_eq (x : Word) (imm : BitVec 12) :
    (x + sext12 imm) &&& 0xFFFFFFFE#32 = BitVec.ofInt 32 ((x.toNat + imm.toInt) / 2 * 2) := by
  rw [sext12, add_signExtend (by decide), clearBit0_ofInt]

/-! ## The whole next state -/

/-- An instruction whose meaning is a jump to `v` completes with the link in rd, pc at `v` and nothing else changed. -/
theorem jumpResult_of_jumpAndLink (h : exec i s = jumpAndLink rd v s) (hv : v = v') : JumpResult i s rd v' := by
  subst hv
  have hcsr : (s.setReg rd (s.pc + 4#32)).csr = s.csr := funext (s.setReg_csr rd _)
  have hp := cycleEnd_none_post v (s.setReg rd (s.pc + 4#32))
  rw [hcsr, State.setReg_resv, State.setReg_console, State.setReg_hostIn, State.setReg_consOut] at hp
  exact ⟨_, h.trans (jumpAndLink_eq rd v s), { hp with
    reg := fun r => (hp.reg r).trans (s.reg_setReg rd r _)
    ram := fun a => (hp.ram a).trans (s.setReg_ramByte rd _ a) }⟩

/-- An instruction whose meaning is a branch on a test of `p` leaves pc at the target or at pc + 4, as `p` says, and
nothing else changed. -/
theorem pcResult_of_branchIf {c : Bool} {offset : BitVec 13} {p : Prop} [Decidable p]
    (h : exec i s = branchIf c offset s) (hc : c = true ↔ p) :
    PcResult i s (if p then BitVec.ofInt 32 (s.pc.toNat + offset.toInt) else s.pc + 4#32) := by
  rw [branchIf_eq, sext13, add_signExtend (by decide)] at h
  simp only [hc] at h
  exact ⟨_, h, cycleEnd_none_post _ s⟩

/-! ## What the tests of the branches say of the integers (R213 to R218) -/

theorem decide_eq_iff_toNat (x y : Word) : decide (x = y) = true ↔ x.toNat = y.toNat := by
  rw [decide_eq_true_eq, BitVec.toNat_inj]

theorem decide_ne_iff_toNat (x y : Word) : decide (x ≠ y) = true ↔ x.toNat ≠ y.toNat := by
  rw [decide_eq_true_eq, BitVec.toNat_ne_iff_ne]

theorem ltSigned_iff (x y : Word) : ltSigned x y = true ↔ x.toInt < y.toInt := decide_eq_true_iff

theorem ltUnsigned_iff (x y : Word) : ltUnsigned x y = true ↔ x.toNat < y.toNat := decide_eq_true_iff

theorem not_ltSigned_iff (x y : Word) : (!ltSigned x y) = true ↔ x.toInt ≥ y.toInt := by
  rw [Bool.not_eq_true', ← Bool.not_eq_true, ltSigned_iff, not_lt, ge_iff_le]

theorem not_ltUnsigned_iff (x y : Word) : (!ltUnsigned x y) = true ↔ x.toNat ≥ y.toNat := by
  rw [Bool.not_eq_true', ← Bool.not_eq_true, ltUnsigned_iff, not_lt, ge_iff_le]

end Machine

end Sys2Proof
end

section
/-! The statements of 43_control.md, settled. -/

namespace Sys2Proof.Machine

open Sys2Proof.Claims

/-- Settles O35, by the J and I formats and each target in integer arithmetic. -/
theorem jumps : Obligations.Jumps := by
  refine ⟨fun rd _ => reads_wordJ rd, fun s rd offset => ?_, fun s rd rs1 imm => ⟨?_, ?_⟩, fun rd rs1 imm f3 h => ?_⟩
  · exact jumpResult_of_jumpAndLink rfl (add_signExtend (by decide) s.pc offset)
  · exact reads_wordI 0 0x67 rfl rfl
  · exact jumpResult_of_jumpAndLink rfl (jalrTarget_eq _ imm)
  · exact wordI_eq_encodeI imm rs1 f3 rd 0x67 ▸ noInstr_jalr_of_funct3_ne h imm rs1 rd

/-- Settles O36, by the B format and what each test says of the integers compared. -/
theorem branches : Obligations.Branches := by
  refine ⟨fun rs1 rs2 offset h => ⟨?_, ?_, ?_, ?_, ?_, ?_⟩, fun s rs1 rs2 offset => ⟨?_, ?_, ?_, ?_, ?_, ?_⟩⟩
  · exact reads_wordB 0 rfl rfl h
  · exact reads_wordB 1 rfl rfl h
  · exact reads_wordB 4 rfl rfl h
  · exact reads_wordB 5 rfl rfl h
  · exact reads_wordB 6 rfl rfl h
  · exact reads_wordB 7 rfl rfl h
  · exact pcResult_of_branchIf rfl (decide_eq_iff_toNat _ _)
  · exact pcResult_of_branchIf rfl (decide_ne_iff_toNat _ _)
  · exact pcResult_of_branchIf rfl (ltSigned_iff _ _)
  · exact pcResult_of_branchIf rfl (not_ltSigned_iff _ _)
  · exact pcResult_of_branchIf rfl (ltUnsigned_iff _ _)
  · exact pcResult_of_branchIf rfl (not_ltUnsigned_iff _ _)

end Sys2Proof.Machine
end

section
/-! SUPPORT. FENCE words written in numbers (30_encoding.md R101, R111), the funct3 values of RSV1xx (44_fence.md R232),
and what an instruction that only completes leaves. -/

namespace Sys2Proof

open Sys2Proof.Claims

/-- The fields of inst[31:20] joined in a FENCE word: fm, pred and succ, four bits each (R111). -/
theorem word_eq_encodeFence (fm pred succ : BitVec 4) (rs1 rd : Reg) :
    word (fm.toNat * 2 ^ 8 + pred.toNat * 2 ^ 4 + succ.toNat) rs1.val 0 rd.val 0x0F =
      encodeFence fm pred succ rs1 rd := by
  have hfields : fm.toNat * 2 ^ 8 + pred.toNat * 2 ^ 4 + succ.toNat = (fm ++ pred ++ succ).toNat := by
    simp only [toNat_append]
    omega
  rw [hfields]
  exact word_eq_append (fm ++ pred ++ succ) (regBits rs1) 0b000#3 (regBits rd) 0b0001111#7

theorem miscMemRsv1xx_wf_of_le {funct3 : BitVec 3} (h : 4 ≤ funct3.toNat) (f : BitVec 12) (rs1 rd : Reg) :
    (Instr.miscMemRsv1xx funct3 f rs1 rd).wf = true :=
  (BitVec.msb_eq_getLsbD_last funct3).symm.trans (BitVec.msb_eq_true_iff_two_mul_ge.2 (by omega))

namespace Machine

/-- An instruction that only completes moves pc to pc + 4 and changes nothing else. -/
theorem pcResult_of_complete {i : Instr} {s : State} (h : exec i s = complete s) : PcResult i s (s.pc + 4#32) :=
  ⟨_, h, cycleEnd_none_post _ s⟩

end Machine

end Sys2Proof
end

section
/-! The statement of 44_fence.md, settled. -/

namespace Sys2Proof.Machine

open Sys2Proof.Claims

/-- Settles O38, by the FENCE and I formats: every word of the class is its instruction's encoding, and each meaning is
to complete. -/
theorem miscMemDoesNothing : Obligations.MiscMemDoesNothing := by
  refine ⟨fun s fm pred succ rs1 rd => ⟨?_, ?_⟩, fun s f rs1 rd => ⟨?_, ?_⟩,
    fun s funct3 f rs1 rd => ⟨fun h => ?_, fun h => ?_, ?_, ?_⟩⟩
  · exact reads_of_eq_encode (word_eq_encodeFence fm pred succ rs1 rd).symm rfl
  · exact pcResult_of_complete rfl
  · exact reads_wordI 1 0x0F rfl rfl
  · exact pcResult_of_complete rfl
  · exact reads_wordI funct3 0x0F rfl ((miscMemRsv01x_wf_iff funct3 f rs1 rd).2 h)
  · exact reads_wordI funct3 0x0F rfl (miscMemRsv1xx_wf_of_le h f rs1 rd)
  · exact pcResult_of_complete rfl
  · exact pcResult_of_complete rfl

end Sys2Proof.Machine
end

section
/-! SUPPORT. The one word of an instruction whose fields are fixed (30_encoding.md R113), CSR immediate words in numbers
(R109), and the whole next state of an exception return and of a CSR access (45_system.md R243, R244). -/

namespace Sys2Proof

open Sys2Proof.Claims

/-! ## Words -/

/-- A word decodes to a well-formed instruction exactly when it is that instruction's encoding. -/
theorem reads_iff_eq_encode {i : Instr} (hwf : i.wf = true) (w : Word) : Reads w i ↔ w = encode i :=
  ⟨fun h => (Machine.encodeInvertsDecode w i h).2.symm, fun h => reads_of_eq_encode h.symm hwf⟩

theorem word_eq_encodeCsrI (csr : CsrIndex) (zimm : BitVec 5) (f3 : BitVec 3) (rd : Reg) :
    word csr.toNat zimm.toNat f3.toNat rd.val 0x73 = encodeCsrI csr zimm f3 rd :=
  word_eq_append csr zimm f3 (regBits rd) 0b1110011#7

theorem reads_word_csrI {i : Instr} {csr : CsrIndex} {zimm : BitVec 5} {rd : Reg} (f3 : BitVec 3)
    (h : encode i = encodeCsrI csr zimm f3 rd) (hwf : i.wf = true) :
    Reads (word csr.toNat zimm.toNat f3.toNat rd.val 0x73) i :=
  reads_of_eq_encode (h.trans (word_eq_encodeCsrI csr zimm f3 rd).symm) hwf

namespace Machine

variable {i : Instr} {s : State}

/-- zimm is the number its 5 bits hold (R109). -/
theorem zext5_eq (zimm : BitVec 5) : zext5 zimm = BitVec.ofNat 32 zimm.toNat := (BitVec.ofNat_toNat 32 zimm).symm

/-! ## The whole next state -/

/-- An instruction whose meaning is to return from an exception leaves pc at mepc and changes nothing else. -/
theorem pcResult_of_returnFromException (h : exec i s = returnFromException s) : PcResult i s (s.csr Csr.mepc) :=
  ⟨_, h, cycleEnd_none_post _ s⟩

/-- An instruction whose meaning is a CSR access gives rd the old value, and the counters are updated from the CSRs
that hold the new one (R331). -/
theorem csrResult_of_csrAccess {f : Word → Word → Word} {rd : Reg} {csr : CsrIndex} {src new : Word}
    (h : exec i s = csrAccess f rd csr src s) (hf : f (s.csr csr) src = new) : CsrResult i s rd csr new := by
  subst hf
  unfold CsrResult
  rw [h]
  exact complete_post (fun r => s.reg_setReg rd r _) (s.setReg_pc rd _)
    (fun n => by rw [State.csr_setCsr, State.setReg_csr]) (s.setReg_ramByte rd _) (s.setReg_resv rd _)
    (s.setReg_console rd _) (s.setReg_hostIn rd _) (s.setReg_consOut rd _)

end Machine

end Sys2Proof
end

section
/-! The statements of 45_system.md, settled. -/

namespace Sys2Proof.Machine

open Sys2Proof.Claims

/-- Settles O39: the word is the encoding, and the meaning is the environment call's exception, whose npc is pc + 4. -/
theorem ecallTraps : Obligations.EcallTraps :=
  ⟨reads_iff_eq_encode rfl, fun _ => traps_of_takeException (c := .environmentCall) rfl⟩

/-- Settles O40: the word is the encoding, and the meaning is the breakpoint's exception, whose npc is pc. -/
theorem ebreakTraps : Obligations.EbreakTraps :=
  ⟨reads_iff_eq_encode rfl, fun _ => traps_of_takeException (c := .breakpoint) rfl⟩

/-- Settles O41: the word is the encoding, and the meaning is to return from an exception. -/
theorem mretReturns : Obligations.MretReturns :=
  ⟨reads_iff_eq_encode rfl, fun _ => pcResult_of_returnFromException rfl⟩

/-- Settles O42, by the I format and the one rule of CSR accesses. -/
theorem csrRegisterForms : Obligations.CsrRegisterForms := by
  refine fun s rd rs1 csr => ⟨?_, ?_, ?_⟩
  · exact ⟨reads_wordI 1 0x73 rfl rfl, csrResult_of_csrAccess rfl rfl⟩
  · exact ⟨reads_wordI 2 0x73 rfl rfl, csrResult_of_csrAccess rfl rfl⟩
  · exact ⟨reads_wordI 3 0x73 rfl rfl, csrResult_of_csrAccess rfl rfl⟩

/-- Settles O43: the accesses of O42, with zimm in the rs1 field as the source. -/
theorem csrImmediateForms : Obligations.CsrImmediateForms := by
  refine fun s rd csr zimm => ⟨?_, ?_, ?_⟩
  · exact ⟨reads_word_csrI 5 rfl rfl, csrResult_of_csrAccess rfl (zext5_eq zimm)⟩
  · exact ⟨reads_word_csrI 6 rfl rfl, csrResult_of_csrAccess rfl (by rw [zext5_eq, csrSetBits])⟩
  · exact ⟨reads_word_csrI 7 rfl rfl, csrResult_of_csrAccess rfl (by rw [zext5_eq, csrClearBits])⟩

end Sys2Proof.Machine
end

section
/-! SUPPORT. Words of the AMO form (30_encoding.md R110), the cycle that reads the bus and may set the reservation and
write at the same address (46_atomic.md R260 to R263), and the choice the AMO minima and maxima make (R269 to R272). -/

namespace Sys2Proof

open Sys2Proof.Claims

/-! ## Words of the AMO form -/

theorem wordA_eq_encodeAmo (f5 : BitVec 5) (aq rl : Bool) (rd rs1 rs2 : Reg) :
    wordA f5.toNat aq rl rd rs1 rs2 = encodeAmo f5 aq rl rd rs1 rs2 := by
  have hf7 : (f5 ++ BitVec.ofBool aq ++ BitVec.ofBool rl).toNat = f5.toNat * 4 + aq.toNat * 2 + rl.toNat := by
    rw [toNat_append, toNat_append, BitVec.toNat_ofBool, BitVec.toNat_ofBool]
    omega
  rw [wordA, ← hf7]
  exact word_eq_append_split (f5 ++ BitVec.ofBool aq ++ BitVec.ofBool rl) (regBits rs2) (regBits rs1) 0b010#3
    (regBits rd) 0b0101111#7

theorem reads_wordA {i : Instr} {aq rl : Bool} {rd rs1 rs2 : Reg} (f5 : BitVec 5)
    (h : encode i = encodeAmo f5 aq rl rd rs1 rs2) (hwf : i.wf = true) :
    Reads (wordA f5.toNat aq rl rd rs1 rs2) i :=
  reads_of_eq_encode (h.trans (wordA_eq_encodeAmo f5 aq rl rd rs1 rs2).symm) hwf

namespace Machine

variable {s u : State} {i : Instr} {rd rs1 rs2 : Reg} {a v : Word} {n : Nat}

/-! ## The whole next state -/

/-- A bus read changes nothing but the console and the host's queue. -/
theorem exists_afterRead_eq_setConsole (ha : Mapped a) (s : State) : ∃ c q, afterRead s a = s.setConsole c q :=
  ⟨_, _, memRead_frame (memRead_mapped ha s)⟩

/-- Completing with a value in rd after a bus write (R61): beside rd, the write is all that differs. -/
theorem complete_setReg_post_of_memWrite (hw : memWrite a n v s = some u) (rd : Reg) (w : Word) :
    ∃ t, complete (u.setReg rd w) = .next t ∧
      Post t (wrote s rd w) (s.pc + 4#32) (afterCount s.csr) (ramWith s a n v) s.resv s.console s.hostIn
        (outWith s a v) := by
  refine complete_post (fun j => ?_) ((State.setReg_pc _ rd w).trans (memWrite_pc hw))
    (fun m => (State.setReg_csr _ rd w m).trans (memWrite_csr hw m))
    (fun x => (State.setReg_ramByte _ rd w x).trans (memWrite_ramWith hw x))
    ((State.setReg_resv _ rd w).trans (memWrite_resv hw))
    ((State.setReg_console _ rd w).trans (memWrite_keeps_console hw))
    ((State.setReg_hostIn _ rd w).trans (memWrite_hostIn hw))
    ((State.setReg_consOut _ rd w).trans (memWrite_outWith hw))
  rw [State.reg_setReg, memWrite_reg hw]
  rfl

/-- Completing with a value in rd after a bus read that was followed by setting the reservation. -/
theorem complete_setReg_post_of_setResv (ha : Mapped a) (s : State) (r : Reservation) (rd : Reg) (w : Word) :
    ∃ t, complete (((afterRead s a).setResv r).setReg rd w) = .next t ∧
      Post t (wrote s rd w) (s.pc + 4#32) (afterCount s.csr) s.ramByte r (afterRead s a).console
        (afterRead s a).hostIn s.consOut := by
  obtain ⟨c, q, hread⟩ := exists_afterRead_eq_setConsole ha s
  rw [hread]
  exact complete_post (fun j => State.reg_setReg _ rd j w) (State.setReg_pc _ rd w) (State.setReg_csr _ rd w)
    (State.setReg_ramByte _ rd w) (State.setReg_resv _ rd w) (State.setReg_console _ rd w)
    (State.setReg_hostIn _ rd w) (State.setReg_consOut _ rd w)

/-- Completing with a value in rd after a bus read, setting the reservation, and a bus write at the same address. -/
theorem complete_setReg_post_of_setResv_memWrite (ha : Mapped a) {r : Reservation}
    (hw : memWrite a n v ((afterRead s a).setResv r) = some u) (rd : Reg) (w : Word) :
    ∃ t, complete (u.setReg rd w) = .next t ∧
      Post t (wrote s rd w) (s.pc + 4#32) (afterCount s.csr) (ramWith s a n v) r (afterRead s a).console
        (afterRead s a).hostIn (outWith s a v) := by
  obtain ⟨c, q, hread⟩ := exists_afterRead_eq_setConsole ha s
  rw [hread] at hw ⊢
  exact complete_setReg_post_of_memWrite hw rd w

/-! ## The AMO form (section 2 of 46_atomic.md), at a mapped and at an unmapped address -/

theorem amoUpdate_fault (hm : memRead (s.reg rs1) s = none) (op : Word → Word → Word) (rd rs2 : Reg) :
    amoUpdate op rd rs1 rs2 s = takeException .loadAccessFault s := by
  simp only [amoUpdate, hm]

theorem amoUpdate_write {op : Word → Word → Word} {s' : State} (hm : memRead (s.reg rs1) s = some (v, s'))
    (hw : memWrite (s.reg rs1) 4 (op v (s.reg rs2)) s' = some u) (rd : Reg) :
    amoUpdate op rd rs1 rs2 s = complete (u.setReg rd v) := by
  simp only [amoUpdate, hm, hw]

/-- An instruction whose meaning is the AMO form leaves the reservation: its read and its write both keep it. -/
theorem amoResult_of_amoUpdate {op op' : Word → Word → Word} (h : exec i s = amoUpdate op rd rs1 rs2 s)
    (hop : ∀ t d, op t d = op' t d) : AmoResult i s rd (s.reg rs1) (s.reg rs2) op' := by
  obtain rfl : op = op' := funext fun t => funext (hop t)
  refine ⟨fun ha => ?_, fun ha => ?_⟩
  · have hm := memRead_mapped ha s
    obtain ⟨u, hw⟩ := memWrite_mapped ha 4 (op (busValue s (s.reg rs1)) (s.reg rs2)) (afterRead s (s.reg rs1))
    have hresv : (afterRead s (s.reg rs1)).setResv s.resv = afterRead s (s.reg rs1) := by
      rw [← memRead_resv hm]
      rfl
    rw [h, amoUpdate_write hm hw]
    exact complete_setReg_post_of_setResv_memWrite ha (hresv.symm ▸ hw) rd _
  · exact traps_of_takeException (h.trans (amoUpdate_fault (memRead_notMapped ha s) op rd rs2))

/-- An AMO minimum or maximum: the meaning takes the register's word where it is strictly better, the rule keeps the
value read where that is at least as good. -/
theorem amoResult_of_amoUpdate_ite {better : Word → Word → Bool} {keep : Word → Word → Prop}
    [∀ t d, Decidable (keep t d)] (h : exec i s = amoUpdate (fun t d => if better t d then d else t) rd rs1 rs2 s)
    (hkeep : ∀ t d, (!better t d) = true ↔ keep t d) :
    AmoResult i s rd (s.reg rs1) (s.reg rs2) fun t d => if keep t d then t else d := by
  refine amoResult_of_amoUpdate h fun t d => ?_
  by_cases hk : keep t d
  · rw [if_pos hk, if_neg (by simpa using (hkeep t d).2 hk)]
  · rw [if_neg hk, if_pos (by simpa using mt (hkeep t d).1 hk)]

end Machine

end Sys2Proof
end

section
/-! The statements of 46_atomic.md, settled. -/

namespace Sys2Proof.Machine

open Sys2Proof.Claims

/-- Settles O45: the read completes with the reservation set, or faults before it is. -/
theorem loadReserved : Obligations.LoadReserved := by
  intro s aq rl rd rs1 rs2 a
  have hexec : exec (.lrW aq rl rd rs1 rs2) s = execLrW rd rs1 s := rfl
  refine ⟨reads_wordA 2 rfl rfl, fun ha => ?_, fun ha => ?_⟩
  · rw [hexec, execLrW_read (memRead_mapped ha s)]
    exact complete_setReg_post_of_setResv ha s _ rd _
  · exact traps_of_takeException (hexec.trans (execLrW_fault (memRead_notMapped ha s)))

/-- Settles O46: after a read that does not fault the reservation is cleared, and it alone decides whether the store
is made; a store where the read succeeded does not fault. -/
theorem storeConditional : Obligations.StoreConditional := by
  intro s aq rl rd rs1 rs2 a d i
  have hexec : exec i s = execScW rd rs1 rs2 s := rfl
  refine ⟨reads_wordA 3 rfl rfl, fun ha hv => ?success, fun ha hv => ?failure, fun ha => ?fault⟩
  case success =>
    obtain ⟨u, hw⟩ := memWrite_mapped ha 4 d ((afterRead s a).setResv ⟨false, s.resv.addr⟩)
    rw [hexec, execScW_success (memRead_mapped ha s) hv hw]
    exact complete_setReg_post_of_setResv_memWrite ha hw rd _
  case failure =>
    rw [hexec, execScW_failure (memRead_mapped ha s) hv]
    exact complete_setReg_post_of_setResv ha s _ rd _
  case fault => exact traps_of_takeException (hexec.trans (execScW_fault (memRead_notMapped ha s)))

/-- Settles O47, by the AMO form and each operation in numbers. -/
theorem atomicSwapAddAndLogic : Obligations.AtomicSwapAddAndLogic := by
  refine fun s aq rl rd rs1 rs2 => ⟨?_, ?_, ?_, ?_, ?_⟩
  · exact ⟨reads_wordA 1 rfl rfl, amoResult_of_amoUpdate (op := fun _ d => d) rfl fun _ _ => rfl⟩
  · exact ⟨reads_wordA 0 rfl rfl, amoResult_of_amoUpdate rfl add_eq_ofNat⟩
  · exact ⟨reads_wordA 4 rfl rfl, amoResult_of_amoUpdate rfl fun _ _ => rfl⟩
  · exact ⟨reads_wordA 12 rfl rfl, amoResult_of_amoUpdate rfl fun _ _ => rfl⟩
  · exact ⟨reads_wordA 8 rfl rfl, amoResult_of_amoUpdate rfl fun _ _ => rfl⟩

/-- Settles O48: the strict tests of the model and the rules' own comparisons choose the same word. -/
theorem atomicMinimumAndMaximum : Obligations.AtomicMinimumAndMaximum := by
  refine fun s aq rl rd rs1 rs2 => ⟨?_, ?_, ?_, ?_⟩
  · exact ⟨reads_wordA 16 rfl rfl,
      amoResult_of_amoUpdate_ite (better := fun t d => ltSigned d t) rfl fun t d => not_ltSigned_iff d t⟩
  · exact ⟨reads_wordA 20 rfl rfl, amoResult_of_amoUpdate_ite (better := ltSigned) rfl not_ltSigned_iff⟩
  · exact ⟨reads_wordA 24 rfl rfl,
      amoResult_of_amoUpdate_ite (better := fun t d => ltUnsigned d t) rfl fun t d => not_ltUnsigned_iff d t⟩
  · exact ⟨reads_wordA 28 rfl rfl, amoResult_of_amoUpdate_ite (better := ltUnsigned) rfl not_ltUnsigned_iff⟩

end Sys2Proof.Machine
end

section
/-! SUPPORT. What the counter update leaves, the trap target in vectored mode, what every step keeps along a run, and
the cycle of a direct-mode handler at an unmapped address (60_exceptions.md R305, R306, R308, R330). -/

namespace Sys2Proof.Machine

open Sys2Proof.Claims

/-! ## The counter update (R330) -/

@[simp] theorem counterUpdate_reg (s : State) (r : Reg) : (counterUpdate s).reg r = s.reg r := by
  simp [State.reg]
@[simp] theorem counterUpdate_ramByte (s : State) (a : Nat) : (counterUpdate s).ramByte a = s.ramByte a := by
  simp [State.ramByte]

/-! ## The trap target (R306) -/

theorem trapTarget_direct {mtvec : Word} (h : mtvec.toNat % 4 = 0) (c : Cause) : trapTarget mtvec c = mtvec := by
  rw [trapTarget_eq, if_pos h]

theorem trapTarget_vectored {mtvec base : Word} (h : mtvec.toNat % 4 ≠ 0)
    (hbase : base.toNat = mtvec.toNat / 4 * 4) (c : Cause) :
    trapTarget mtvec c = base + BitVec.ofNat 32 (c.code.toNat * 4) := by
  rw [trapTarget_eq, if_neg h, ← hbase, BitVec.ofNat_add, BitVec.ofNat_toNat, BitVec.setWidth_eq]

/-! ## Runs -/

/-- A property that every step keeps holds after any number of steps, and none of them stops the machine. -/
theorem core_run_keeps {P : State → Prop} (hstep : ∀ s, P s → ∃ t, step s = .next t ∧ P t) (k : Nat) {s : State}
    (hs : P s) : ∃ t : State, Sys2Proof.core.run k s = .next t ∧ P t := by
  induction k generalizing s with
  | zero => exact ⟨s, rfl, hs⟩
  | succ k ih =>
    obtain ⟨t, hst, ht⟩ := hstep s hs
    rw [core_run_succ k hst]
    exact ih ht

/-! ## The loop of a trap with no handler (R308) -/

/-- A fetch at `a` has faulted and the trap went back to `a`, in direct mode. -/
structure FaultedAt (a : Word) (t : State) : Prop where
  pc : t.pc = a
  mtvec : t.csr 0x305#12 = a
  mcause : t.csr 0x342#12 = 5#32
  mepc : t.csr 0x341#12 = a

/-- One cycle at an unmapped address that is mtvec itself. -/
theorem step_faultedAt {a : Word} (ha : ¬ Mapped a) (hdirect : a.toNat % 4 = 0) {s : State} (hpc : s.pc = a)
    (hmtvec : s.csr 0x305#12 = a) : ∃ t, step s = .next t ∧ FaultedAt a t := by
  obtain ⟨t, hst, hp⟩ := fetchFaultTraps s (hpc ▸ ha)
  refine ⟨t, hst, { pc := ?_, mtvec := ?_, mcause := hp.csr _, mepc := (hp.csr _).trans hpc }⟩
  · rw [hp.pc, hmtvec, target, if_pos hdirect]
  · exact (hp.csr _).trans hmtvec

end Sys2Proof.Machine
end

section
/-! The statements of 60_exceptions.md, settled. -/

namespace Sys2Proof.Machine

open Sys2Proof.Claims

/-- Settles O44: the first step faults at mtvec, and every further step faults there again. -/
theorem unmappedHandlerLoops : Obligations.UnmappedHandlerLoops := by
  intro s k hunmapped hmtvec hdirect
  cases k with
  | zero => exact ⟨s, rfl, rfl, fun h => absurd h (Nat.lt_irrefl 0)⟩
  | succ k =>
    obtain ⟨u, hsu, hu⟩ := step_faultedAt hunmapped hdirect rfl hmtvec
    obtain ⟨t, hrun, ht⟩ :=
      core_run_keeps (fun _ h => step_faultedAt hunmapped hdirect h.pc h.mtvec) k hu
    exact ⟨t, (core_run_succ k hsu).trans hrun, ht.pc, fun _ => ⟨ht.mcause, ht.mepc⟩⟩

/-- Settles O21, from what each reading of the state gives after the counter update. -/
theorem counterUpdates : Obligations.CounterUpdates := fun s =>
  ⟨counterUpdate_csr s, counterUpdate_reg s, counterUpdate_pc s, counterUpdate_ramByte s, counterUpdate_resv s,
    counterUpdate_exc s, counterUpdate_console s, counterUpdate_hostIn s, counterUpdate_consOut s⟩

/-- Settles O22: the vectored targets are base + 4 · code, at the codes 2, 3, 5, 6 and 10. -/
theorem trapTargets : Obligations.TrapTargets := by
  refine ⟨fun _ c h => trapTarget_direct h c, fun mtvec base h hbase => ?_⟩
  have hvec := trapTarget_vectored h hbase
  exact ⟨hvec .illegalInstruction, hvec .breakpoint, hvec .loadAccessFault, hvec .storeAccessFault,
    hvec .environmentCall⟩

end Sys2Proof.Machine
end

section
/-! SUPPORT. What reset and the load of an image leave, reading by reading (70_reset_and_hazards.md R351, R352). -/

namespace Sys2Proof.Machine

variable {s : State} {x : Nat}

/-! ## Reset (R351): a later reset reads like the one at power-up, but for RAM, the host's queue and the output -/

@[simp] theorem State.applyReset_reg (misa mvendorid mtvec : Word) (s : State) (r : Reg) :
    (s.applyReset misa mvendorid mtvec).reg r = 0#32 :=
  State.resetWith_reg misa mvendorid mtvec r

/-- The CSR file at reset in the order of R351's table; the three entries it names are distinct. -/
theorem State.resetWith_csr_table (misa mvendorid mtvec : Word) (n : CsrIndex) :
    (State.resetWith misa mvendorid mtvec).csr n =
      if n = 0x301#12 then misa else if n = 0xF11#12 then mvendorid
      else if n = 0x305#12 then mtvec else 0#32 := by
  have hmisa : n = 0x301#12 → n ≠ 0xF11#12 ∧ n ≠ 0x305#12 := by rintro rfl; decide
  have hmvendorid : n = 0xF11#12 → n ≠ 0x305#12 := by rintro rfl; decide
  rw [State.resetWith_csr, Csr.mtvec, Csr.mvendorid, Csr.misa]
  split_ifs <;> tauto

/-- Every CSR after a later reset, which leaves the CSR file of power-up. -/
theorem State.applyReset_csr (misa mvendorid mtvec : Word) (s : State) (n : CsrIndex) :
    (s.applyReset misa mvendorid mtvec).csr n = (State.resetWith misa mvendorid mtvec).csr n := rfl

@[simp] theorem State.applyReset_ramByte (misa mvendorid mtvec : Word) (s : State) (x : Nat) :
    (s.applyReset misa mvendorid mtvec).ramByte x = s.ramByte x := rfl

@[simp] theorem State.applyReset_hostIn (misa mvendorid mtvec : Word) (s : State) :
    (s.applyReset misa mvendorid mtvec).hostIn = s.hostIn := rfl

/-! ## Writing an image into RAM (R352) -/

/-- A reading that no byte write changes is not changed by an image. -/
theorem State.setRamImage_keeps {β : Type} (f : State → β) (hf : ∀ s a b, f (s.setRamByte a b) = f s)
    (image : List Byte) (a : Nat) (s : State) : f (State.setRamImage a image s) = f s := by
  induction image generalizing a s with
  | nil => rfl
  | cons b rest ih => exact (ih (a + 1) (s.setRamByte a b)).trans (hf s a b)

/-- A byte before or after the image keeps its value. -/
theorem State.setRamImage_ramByte_outside {image : List Byte} {a : Nat} (hx : x < a ∨ a + image.length ≤ x) :
    (State.setRamImage a image s).ramByte x = s.ramByte x := by
  induction image generalizing a s with
  | nil => rfl
  | cons b rest ih =>
    rw [List.length_cons] at hx
    have hne : x ≠ a := by omega
    rw [State.setRamImage, ih (by omega), State.ramByte_setRamByte, if_neg fun h => hne h.1]

/-- Byte k of the image is at `a + k`, where that is in RAM: written there once, and not again by the rest. -/
theorem State.setRamImage_ramByte_inside {image : List Byte} {a k : Nat} (hk : k < image.length)
    (hram : inRam (a + k) = true) : (State.setRamImage a image s).ramByte (a + k) = image[k] := by
  induction image generalizing a k s with
  | nil => exact absurd hk (Nat.not_lt_zero k)
  | cons b rest ih =>
    cases k with
    | zero =>
      rw [State.setRamImage, State.setRamImage_ramByte_outside (by omega), State.ramByte_setRamByte,
        if_pos ⟨rfl, hram⟩]
      rfl
    | succ k =>
      have hshift : a + (k + 1) = a + 1 + k := by omega
      rw [hshift] at hram ⊢
      exact ih (Nat.lt_of_succ_lt_succ hk) hram

/-! ## The load (R352), case by case -/

theorem State.load_fits {image : List Byte} (h : image.length ≤ 0x04000000) (s : State) :
    State.load (some image) s = .next (State.setRamImage 0x80000000 image s) := if_pos h

theorem State.load_tooLong {image : List Byte} (h : 0x04000000 < image.length) (s : State) :
    State.load (some image) s = .refused .imageTooLong := if_neg (Nat.not_le.2 h)

end Sys2Proof.Machine
end

section
/-! The statements of 70_reset_and_hazards.md, settled. -/

namespace Sys2Proof.Machine

/-- Settles O13: the bytes of an image that fits all lie in RAM, and each reading but RAM's is one that no byte write
changes. -/
theorem imageLoad : Obligations.ImageLoad := by
  refine ⟨fun image s hfits => ?_, fun image s hlong => State.load_tooLong hlong s, fun s => rfl⟩
  refine ⟨_, State.load_fits hfits s, fun k hk => ?_, fun a ha => State.setRamImage_ramByte_outside ha,
    fun r => ?_, ?_, fun n => ?_, ?_, ?_, ?_, ?_, ?_⟩
  · exact State.setRamImage_ramByte_inside hk ((inRam_iff _).2 (by omega))
  · exact State.setRamImage_keeps (State.reg · r) (State.setRamByte_reg · · · r) image _ s
  · exact State.setRamImage_keeps State.pc State.setRamByte_pc image _ s
  · exact State.setRamImage_keeps (State.csr · n) (State.setRamByte_csr · · · n) image _ s
  · exact State.setRamImage_keeps State.resv State.setRamByte_resv image _ s
  · exact State.setRamImage_keeps State.exc State.setRamByte_exc image _ s
  · exact State.setRamImage_keeps State.console State.setRamByte_console image _ s
  · exact State.setRamImage_keeps State.hostIn State.setRamByte_hostIn image _ s
  · exact State.setRamImage_keeps State.consOut State.setRamByte_consOut image _ s

/-- Settles O12: at power-up and from any state reset leaves one table of values; only the latter has a RAM and a queue
to keep. -/
theorem resetValues : Obligations.ResetValues := by
  intro misa mvendorid mtvec s t ht
  have hkept : t = s.applyReset misa mvendorid mtvec →
      (∀ a, t.ramByte a = s.ramByte a) ∧ t.hostIn = s.hostIn := by
    rintro rfl
    exact ⟨State.applyReset_ramByte misa mvendorid mtvec s, State.applyReset_hostIn misa mvendorid mtvec s⟩
  have hcsr := State.resetWith_csr_table misa mvendorid mtvec
  rcases ht with rfl | rfl
  · exact ⟨State.resetWith_reg misa mvendorid mtvec, rfl, hcsr, rfl, rfl, rfl, hkept⟩
  · exact ⟨State.applyReset_reg misa mvendorid mtvec s, rfl,
      fun n => (State.applyReset_csr misa mvendorid mtvec s n).trans (hcsr n), rfl, rfl, rfl, hkept⟩

end Sys2Proof.Machine
end
